-- ==== Sys2Proof/Word.lean ====
section
/-! DEFINITION. The word types of the block (spec/00_scope.md rule R7): a byte, a 16-bit operand field, a 32-bit
address or length field. -/

namespace Sys2Proof

/-- `Byte` of rule R7: 8-bit unsigned; bit 7 is the most significant (rule R11). -/
abbrev Byte := BitVec 8

/-- `U16` of rule R7: the operand fields `A`, `B`, `C`, `D`, `TXTL` and the panel and canvas sizes. -/
abbrev U16 := BitVec 16

/-- `U32` of rule R7: the descriptor fields `BUFA`, `BUFL`, `TXTA`. -/
abbrev U32 := BitVec 32

end Sys2Proof
end

