-- ==== Sys2Proof/Syntax.lean ====
section
/-! DEFINITION. The instructions: one constructor for each of the 40 rows of spec/opcode_table.json. The first 19 are
the operations the host issues as 24-byte descriptors (rows of format `DESC`, spec/30_encoding.md rule R95), each with
the descriptor fields it uses (rule R92). The last 21 are the command frames the sequencer sends to the display
controller (rows of format `WIRE_CMD`, spec/40_command_and_lut_tables.md rule R120). -/

namespace Sys2Proof

/-- `Color` (rule R7): exactly two values. -/
inductive Color where
  | white
  | black
deriving DecidableEq, Repr, Inhabited

/-- The two image planes of the display controller, as `PLANE` names them (rule R90). -/
inductive Plane where
  | old
  | new
deriving DecidableEq, Repr, Inhabited

/-- The five waveform tables of a LUT set (rule R124). -/
inductive LutKind where
  | vcom
  | ww
  | bw
  | wb
  | bb
deriving DecidableEq, Repr, Inhabited

/-- The two LUT sets (rule R125). -/
inductive LutSet where
  | full
  | quick
deriving DecidableEq, Repr, Inhabited

/-- `CmdName`: the closed enumeration of the 21 symbolic command names (rule R120), in the order of its table. -/
inductive CmdName where
  | panelSetting
  | powerSetting
  | powerOff
  | powerOn
  | boosterSoftStart
  | deepSleep
  | dataStartTransmission1
  | displayRefresh
  | dataStartTransmission2
  | lutForVcom
  | lutWhiteToWhite
  | lutBlackToWhite
  | lutWhiteToBlack
  | lutBlackToBlack
  | pllControl
  | vcomAndDataIntervalSetting
  | resolutionSetting
  | vcmDcSetting
  | partialWindow
  | partialIn
  | partialOut
deriving DecidableEq, Repr, Inhabited

/-- The two formats of spec/opcode_table.json: `DESC`, what the host hands to `Issue` (rule R90), and `WIRE_CMD`, the
byte of a command frame on the wire (rule R100). -/
inductive Format where
  | desc
  | wireCmd
deriving DecidableEq, Repr, Inhabited

/-- The instructions, one constructor for each row of spec/opcode_table.json.

The operands of an operation are the descriptor fields rule R92 lists for it, in the order of rule R98: `A` to `D`,
then the colour, the plane, the buffer (`bufa`, `bufl`), the text (`txta`, `txtl`). A field an operation does not use
is ignored by it (rule R92) and is no operand. -/
inductive Instr where
  /-- `CLEAR` (R140) -/
  | clear (color : Color) (bufa bufl : U32)
  /-- `DRAW_PIXEL` (R141) -/
  | drawPixel (x y : U16) (color : Color) (bufa bufl : U32)
  /-- `DRAW_LINE` (R143) -/
  | drawLine (x0 y0 x1 y1 : U16) (color : Color) (bufa bufl : U32)
  /-- `DRAW_HLINE` (R145); `w` is a length in pixels -/
  | drawHline (x y w : U16) (color : Color) (bufa bufl : U32)
  /-- `DRAW_VLINE` (R146); `l` is a length in pixels -/
  | drawVline (x y l : U16) (color : Color) (bufa bufl : U32)
  /-- `DRAW_RECT` (R160) -/
  | drawRect (x0 y0 x1 y1 : U16) (color : Color) (bufa bufl : U32)
  /-- `DRAW_FRECT` (R162) -/
  | drawFrect (x0 y0 x1 y1 : U16) (color : Color) (bufa bufl : U32)
  /-- `DRAW_CIRCLE` (R166) -/
  | drawCircle (cx cy r : U16) (color : Color) (bufa bufl : U32)
  /-- `DRAW_FCIRCLE` (R168) -/
  | drawFcircle (cx cy r : U16) (color : Color) (bufa bufl : U32)
  /-- `DRAW_STRING` (R182) -/
  | drawString (x0 y0 : U16) (color : Color) (bufa bufl txta : U32) (txtl : U16)
  /-- `RESET` (R200) -/
  | reset
  /-- `INIT` (R210) -/
  | init
  /-- `DISPLAY_AND_TRANSFER_FRAME` (R212); `color` is `background_color` -/
  | displayAndTransferFrame (color : Color) (bufa bufl : U32)
  /-- `SET_PARTIAL_WINDOW` (R214) -/
  | setPartialWindow (x y w l : U16) (plane : Plane) (bufa bufl : U32)
  /-- `DISPLAY_FRAME` (R216) -/
  | displayFrame
  /-- `DISPLAY_FRAME_QUICK` (R217) -/
  | displayFrameQuick
  /-- `CLEAR_FRAME` (R218); `color` is `reset_color` -/
  | clearFrame (color : Color)
  /-- `SLEEP` (R220) -/
  | sleep
  /-- `WAIT_UNTIL_IDLE` (R201) -/
  | waitUntilIdle
  /-- The command frame `C(PANEL_SETTING)` (R121, R192); so for the 20 below. -/
  | panelSetting
  | powerSetting
  | powerOff
  | powerOn
  | boosterSoftStart
  | deepSleep
  | dataStartTransmission1
  | displayRefresh
  | dataStartTransmission2
  | lutForVcom
  | lutWhiteToWhite
  | lutBlackToWhite
  | lutWhiteToBlack
  | lutBlackToBlack
  | pllControl
  | vcomAndDataIntervalSetting
  | resolutionSetting
  | vcmDcSetting
  | partialWindow
  | partialIn
  | partialOut
deriving DecidableEq, Repr

/-- The pseudo-operation `construct` (rule R99). -/
abbrev Instr.construct : Instr := .init

/-- The pseudo-operation `wake` (rule R99): `INIT` begins with the electrical reset, so one `INIT` is the whole cycle. -/
abbrev Instr.wake : Instr := .init

/-- The pseudo-operation `draw_point` (rule R99). -/
abbrev Instr.drawPoint (x y : U16) (color : Color) (bufa bufl : U32) : Instr := .drawPixel x y color bufa bufl

end Sys2Proof
end

