-- ==== Sys2Proof/Config.lean ====
section
/-! DEFINITION. What an implementation fixes: the configuration record `CFG` (spec/00_scope.md rules R6, R9), the type of
the environment's answers (rule R8), the reference configuration the reset state carries (log entry 1), and the two
free values of the model, the environment's answers beyond those a state fixes (log entry 4). -/

namespace Sys2Proof

/-- The transfer-error value `e` of rule R33: an opaque value of the environment's error type. No rule inspects it
(rule R233); `token` only tells two of them apart (log entry 5). -/
structure XferErr where
  token : Nat
deriving DecidableEq, Repr, Inhabited

/-- `XferResult` (rule R8): the environment's answer to one byte transfer. -/
inductive XferResult where
  | ok
  | err (e : XferErr)
deriving DecidableEq, Repr, Inhabited

/-- `BusyLevel` (rule R8): the environment's answer to one read of the busy pin; `low` means busy (rule R26). -/
inductive BusyLevel where
  | low
  | high
  | readErr
deriving DecidableEq, Repr, Inhabited

/-- The free value of rule R8: the answer to the `n`-th byte transfer that neither `xferIn` nor `xferRest` of the state
answers. It has no body, so nothing can be proved of it (log entry 4). -/
opaque xferAnswer : Nat → XferResult

/-- The free value of rule R8: the answer to the `n`-th read of the busy pin that neither `busyIn` nor `busyRest` of the
state answers (log entry 4). -/
opaque busyAnswer : Nat → BusyLevel

/-- `CFG.CMD` (rule R121): the byte of each of the 21 names. The default values are the right-hand column of rule R121,
general knowledge and not normative (PRESUMED, log entry 2). -/
structure CmdTable where
  panelSetting : Byte := 0x00
  powerSetting : Byte := 0x01
  powerOff : Byte := 0x02
  powerOn : Byte := 0x04
  boosterSoftStart : Byte := 0x06
  deepSleep : Byte := 0x07
  dataStartTransmission1 : Byte := 0x10
  displayRefresh : Byte := 0x12
  dataStartTransmission2 : Byte := 0x13
  lutForVcom : Byte := 0x20
  lutWhiteToWhite : Byte := 0x21
  lutBlackToWhite : Byte := 0x22
  lutWhiteToBlack : Byte := 0x23
  lutBlackToBlack : Byte := 0x24
  pllControl : Byte := 0x30
  vcomAndDataIntervalSetting : Byte := 0x50
  resolutionSetting : Byte := 0x61
  vcmDcSetting : Byte := 0x82
  partialWindow : Byte := 0x90
  partialIn : Byte := 0x91
  partialOut : Byte := 0x92
deriving DecidableEq, Repr

/-- `CFG.LUT_FULL` or `CFG.LUT_QUICK` (rule R125): one byte list for each kind; lengths may differ, and a list may be
empty. -/
structure LutTable where
  vcom : List Byte
  ww : List Byte
  bw : List Byte
  wb : List Byte
  bb : List Byte
deriving DecidableEq, Repr

/-- One entry of the glyph table, packed as rule R183 says: `FH` rows of `ceil(FW/8)` bytes, top to bottom, the leftmost
pixel in bit 7. -/
structure Glyph where
  code : Byte
  rows : List Byte
deriving DecidableEq, Repr

/-- The configuration record `CFG` (rule R9), every field of its table. It is fixed at construction and not mutable
thereafter (rule R6). `GLYPHSET` is the set of codes that `glyphs` lists, `GLYPH` their rows (rule R183). -/
structure Cfg where
  /-- `WIDTH`, `HEIGHT`: the panel -/
  width : U16
  height : U16
  /-- `CW`, `CH`: the canvas -/
  cw : U16
  ch : U16
  /-- `BLACK_BIT`: the buffer bit that encodes Black -/
  blackBit : Bool
  /-- `MEMSZ` -/
  memsz : Nat
  /-- `CMD` -/
  cmd : CmdTable
  lutFull : LutTable
  lutQuick : LutTable
  pwrData : List Byte
  btstData : List Byte
  psrData : List Byte
  pllData : List Byte
  cdiData : List Byte
  sleepCdiData : List Byte
  sleepVcmData : List Byte
  sleepPsrData : List Byte
  ptlScan : Byte
  tRstLow : Nat
  tRstHigh : Nat
  tShort : Nat
  tDtf : Nat
  tFrame : Nat
  tQuick : Nat
  tSleepA : Nat
  tSleepB : Nat
  tPoll : Nat
  /-- `POLL_LIMIT`: `none` keeps the reference's unbounded wait -/
  pollLimit : Option Nat
  /-- `FW`, `FH`: the glyph cell -/
  fw : Nat
  fh : Nat
  /-- `GLYPHSET` with `GLYPH` -/
  glyphs : List Glyph
  /-- `FALLBACK`, packed as a glyph -/
  fallback : List Byte
deriving DecidableEq, Repr

/-- The test font of spec/95_test_vectors.md section 2.7. -/
def testGlyphs : List Glyph :=
  [⟨0x41, [0x60, 0x90, 0x90, 0xF0, 0x90, 0x90, 0x90]⟩,
   ⟨0x48, [0x90, 0x90, 0x90, 0xF0, 0x90, 0x90, 0x90]⟩,
   ⟨0x49, [0xE0, 0x40, 0x40, 0x40, 0x40, 0x40, 0xE0]⟩]

/-- The reference configuration: `TCFG-S` of spec/96_test_programs.md section 4, the configuration of the spec that gives
every field a value. The spec calls it an instance and not a default, so the reset state's carrying it is a DESIGN
CHOICE (log entry 1); no statement rests on it. -/
def Cfg.reference : Cfg where
  width := 16
  height := 8
  cw := 16
  ch := 8
  blackBit := true
  memsz := 4096
  cmd := {}
  lutFull := ⟨[0xA0, 0xA1], [0xB0, 0xB1], [0xC0, 0xC1], [0xD0, 0xD1], [0xE0, 0xE1]⟩
  lutQuick := ⟨[0x0A, 0x1A], [0x0B, 0x1B], [0x0C, 0x1C], [0x0D, 0x1D], [0x0E, 0x1E]⟩
  pwrData := [0x03, 0x00, 0x2B, 0x2B, 0xFF]
  btstData := [0x17, 0x17, 0x17]
  psrData := [0xBF, 0x0B]
  pllData := [0x3C]
  cdiData := [0x97]
  sleepCdiData := [0x17]
  sleepVcmData := []
  sleepPsrData := []
  ptlScan := 0x01
  tRstLow := 200
  tRstHigh := 200
  tShort := 2
  tDtf := 100
  tFrame := 100
  tQuick := 10
  tSleepA := 100
  tSleepB := 100
  tPoll := 100
  pollLimit := some 3
  fw := 5
  fh := 7
  glyphs := testGlyphs
  fallback := [0xF0, 0x90, 0x90, 0x90, 0x90, 0x90, 0xF0]

end Sys2Proof
end

