-- ==== Sys2Proof/WellFormed.lean ====
section
/-! DEFINITION. Well-formedness: of a descriptor's bytes, written from spec/30_encoding.md rules R90 and R97 without the
decoder (the decoder is compared with it), and of a configuration (spec/70_reset_and_hazards.md rule R264). An `Instr`
needs no check of its own: its operand types are as wide as the fields of the descriptor (rule R91), every value of
every field is legal, and an unused field is no operand (rule R92). -/

namespace Sys2Proof

/-- The 19 assigned `OPC` values (rule R95). -/
def assignedOpcs : List Byte :=
  [0x01, 0x02, 0x03, 0x04, 0x05, 0x06, 0x07, 0x08, 0x09, 0x0A,
   0x10, 0x11, 0x12, 0x13, 0x14, 0x15, 0x16, 0x17, 0x18]

/-- A descriptor has exactly 24 bytes (rule R90). -/
def descLengthOk (bytes : List Byte) : Bool := bytes.length == 24

/-- Byte 0 is an assigned `OPC` (rules R95, R97). -/
def descOpcOk (bytes : List Byte) : Bool := assignedOpcs.contains (bytes.getD 0 0)

/-- `RSV`, bits 7 to 2 of byte 1, is 0 (rules R90, R97). -/
def descRsvOk (bytes : List Byte) : Bool := (bytes.getD 1 0).extractLsb' 2 6 == 0

/-- A well-formed descriptor: one that can be issued (rule R96) and is not illegal (rule R97). -/
def descWellFormed (bytes : List Byte) : Bool := descLengthOk bytes && descOpcOk bytes && descRsvOk bytes

/-- `WIDTH >= 8` and `WIDTH mod 8 = 0`. -/
def Cfg.widthOk (cfg : Cfg) : Bool := decide (8 ≤ cfg.width.toNat ∧ cfg.width.toNat % 8 = 0)

/-- `HEIGHT >= 1`. -/
def Cfg.heightOk (cfg : Cfg) : Bool := decide (1 ≤ cfg.height.toNat)

/-- `CW >= 1` and `CH >= 1`. -/
def Cfg.canvasOk (cfg : Cfg) : Bool := decide (1 ≤ cfg.cw.toNat ∧ 1 ≤ cfg.ch.toNat)

/-- `MEMSZ <= 2^32`. -/
def Cfg.memszOk (cfg : Cfg) : Bool := decide (cfg.memsz ≤ 2 ^ 32)

/-- `T_RST_LOW >= 200` and `T_RST_HIGH >= 200` (also rule R272). -/
def Cfg.resetPulseOk (cfg : Cfg) : Bool := decide (200 ≤ cfg.tRstLow ∧ 200 ≤ cfg.tRstHigh)

/-- `T_QUICK < T_FRAME`. -/
def Cfg.refreshDelayOk (cfg : Cfg) : Bool := decide (cfg.tQuick < cfg.tFrame)

/-- `POLL_LIMIT = none` or `some L` with `L >= 1`. -/
def Cfg.pollLimitOk (cfg : Cfg) : Bool :=
  match cfg.pollLimit with
  | none => true
  | some limit => decide (1 ≤ limit)

/-- `FW >= 1` and `FH >= 1`. -/
def Cfg.fontCellOk (cfg : Cfg) : Bool := decide (1 ≤ cfg.fw ∧ 1 ≤ cfg.fh)

/-- The glyphs and the fallback are packed in `FH * ceil(FW/8)` bytes (rule R183). -/
def Cfg.fontRowsOk (cfg : Cfg) : Bool :=
  (cfg.fallback :: cfg.glyphs.map Glyph.rows).all fun rows => rows.length == cfg.fh * ((cfg.fw + 7) / 8)

/-- No code has two glyphs: `GLYPHSET` is a set and `GLYPH` a function on it (rule R183). -/
def Cfg.glyphCodesOk (cfg : Cfg) : Bool := decide (cfg.glyphs.map Glyph.code).Nodup

/-- The constraints of rule R264 on `CFG`, with the font tables of rule R183. -/
def Cfg.wf (cfg : Cfg) : Bool :=
  cfg.widthOk && cfg.heightOk && cfg.canvasOk && cfg.memszOk && cfg.resetPulseOk && cfg.refreshDelayOk
    && cfg.pollLimitOk && cfg.fontCellOk && cfg.fontRowsOk && cfg.glyphCodesOk

end Sys2Proof
end

