-- ==== Sys2Proof/Decode.lean ====
section
/-! DEFINITION. The decoder of the two formats of spec/opcode_table.json, total on any bytes and rejecting by name
(spec/30_encoding.md rules R90 to R97), and after it the encoder. The byte of a command name is looked up in a
`CmdTable` (spec/40_command_and_lut_tables.md rule R121). -/

namespace Sys2Proof

/-- Why the decoder rejects. `truncated`: fewer bytes than the format has (rule R96: such a descriptor cannot be
issued). `unassignedOpc`, `reservedBits`: the two illegal descriptors of rule R97, for which the machine takes
`IllegalOp`. `unknownCommand`: no row of format `WIRE_CMD` has that byte. -/
inductive DecodeReject where
  | truncated
  | unassignedOpc
  | reservedBits
  | unknownCommand
deriving DecidableEq, Repr

/-- `CFG.CMD(name)`, a total mapping looked up by symbolic name (rule R121). -/
def CmdTable.byte (t : CmdTable) : CmdName → Byte
  | .panelSetting => t.panelSetting
  | .powerSetting => t.powerSetting
  | .powerOff => t.powerOff
  | .powerOn => t.powerOn
  | .boosterSoftStart => t.boosterSoftStart
  | .deepSleep => t.deepSleep
  | .dataStartTransmission1 => t.dataStartTransmission1
  | .displayRefresh => t.displayRefresh
  | .dataStartTransmission2 => t.dataStartTransmission2
  | .lutForVcom => t.lutForVcom
  | .lutWhiteToWhite => t.lutWhiteToWhite
  | .lutBlackToWhite => t.lutBlackToWhite
  | .lutWhiteToBlack => t.lutWhiteToBlack
  | .lutBlackToBlack => t.lutBlackToBlack
  | .pllControl => t.pllControl
  | .vcomAndDataIntervalSetting => t.vcomAndDataIntervalSetting
  | .resolutionSetting => t.resolutionSetting
  | .vcmDcSetting => t.vcmDcSetting
  | .partialWindow => t.partialWindow
  | .partialIn => t.partialIn
  | .partialOut => t.partialOut

/-- The 21 names in the order of rule R120's table. -/
def allCmdNames : List CmdName :=
  [.panelSetting, .powerSetting, .powerOff, .powerOn, .boosterSoftStart, .deepSleep, .dataStartTransmission1,
   .displayRefresh, .dataStartTransmission2, .lutForVcom, .lutWhiteToWhite, .lutBlackToWhite, .lutWhiteToBlack,
   .lutBlackToBlack, .pllControl, .vcomAndDataIntervalSetting, .resolutionSetting, .vcmDcSetting, .partialWindow,
   .partialIn, .partialOut]

/-- The instruction of a command name: its row of format `WIRE_CMD`. -/
def Instr.ofCmd : CmdName → Instr
  | .panelSetting => .panelSetting
  | .powerSetting => .powerSetting
  | .powerOff => .powerOff
  | .powerOn => .powerOn
  | .boosterSoftStart => .boosterSoftStart
  | .deepSleep => .deepSleep
  | .dataStartTransmission1 => .dataStartTransmission1
  | .displayRefresh => .displayRefresh
  | .dataStartTransmission2 => .dataStartTransmission2
  | .lutForVcom => .lutForVcom
  | .lutWhiteToWhite => .lutWhiteToWhite
  | .lutBlackToWhite => .lutBlackToWhite
  | .lutWhiteToBlack => .lutWhiteToBlack
  | .lutBlackToBlack => .lutBlackToBlack
  | .pllControl => .pllControl
  | .vcomAndDataIntervalSetting => .vcomAndDataIntervalSetting
  | .resolutionSetting => .resolutionSetting
  | .vcmDcSetting => .vcmDcSetting
  | .partialWindow => .partialWindow
  | .partialIn => .partialIn
  | .partialOut => .partialOut

/-- `FLG[0]` as a colour: 0 = White, 1 = Black (rules R90, R91). -/
def colorOfFlg (flg : Byte) : Color := if flg.getLsbD 0 then .black else .white

/-- `FLG[1]` as a plane: 0 = Old, 1 = New (rules R90, R91). -/
def planeOfFlg (flg : Byte) : Plane := if flg.getLsbD 1 then .new else .old

/-- `RSV`, bits 7 to 2 of `FLG` (rule R90). -/
def rsvOfFlg (flg : Byte) : BitVec 6 := flg.extractLsb' 2 6

/-- Two bytes of a big-endian field, the high byte first (rules R90, R91). -/
def be16 (hi lo : Byte) : U16 := hi ++ lo

/-- Four bytes of a big-endian field (rules R90, R91). -/
def be32 (b3 b2 b1 b0 : Byte) : U32 := b3 ++ b2 ++ b1 ++ b0

/-- A descriptor's fields to its operation: the `OPC` map of rule R95 with the operands of rule R92. The two rejections
are the illegal descriptors of rule R97. -/
def decodeFields (opc flg : Byte) (a b c d : U16) (bufa bufl txta : U32) (txtl : U16) : Except DecodeReject Instr :=
  if rsvOfFlg flg ≠ 0 then .error .reservedBits
  else if opc = 0x01 then .ok (.clear (colorOfFlg flg) bufa bufl)
  else if opc = 0x02 then .ok (.drawPixel a b (colorOfFlg flg) bufa bufl)
  else if opc = 0x03 then .ok (.drawLine a b c d (colorOfFlg flg) bufa bufl)
  else if opc = 0x04 then .ok (.drawHline a b c (colorOfFlg flg) bufa bufl)
  else if opc = 0x05 then .ok (.drawVline a b c (colorOfFlg flg) bufa bufl)
  else if opc = 0x06 then .ok (.drawRect a b c d (colorOfFlg flg) bufa bufl)
  else if opc = 0x07 then .ok (.drawFrect a b c d (colorOfFlg flg) bufa bufl)
  else if opc = 0x08 then .ok (.drawCircle a b c (colorOfFlg flg) bufa bufl)
  else if opc = 0x09 then .ok (.drawFcircle a b c (colorOfFlg flg) bufa bufl)
  else if opc = 0x0A then .ok (.drawString a b (colorOfFlg flg) bufa bufl txta txtl)
  else if opc = 0x10 then .ok .reset
  else if opc = 0x11 then .ok .init
  else if opc = 0x12 then .ok (.displayAndTransferFrame (colorOfFlg flg) bufa bufl)
  else if opc = 0x13 then .ok (.setPartialWindow a b c d (planeOfFlg flg) bufa bufl)
  else if opc = 0x14 then .ok .displayFrame
  else if opc = 0x15 then .ok .displayFrameQuick
  else if opc = 0x16 then .ok (.clearFrame (colorOfFlg flg))
  else if opc = 0x17 then .ok .sleep
  else if opc = 0x18 then .ok .waitUntilIdle
  else .error .unassignedOpc

/-- Decodes one descriptor: it consumes exactly 24 bytes, byte 0 first (rules R90, R93, R96), and answers the operation
with the bytes that follow. -/
def decodeDesc : List Byte → Except DecodeReject (Instr × List Byte)
  | opc :: flg :: a1 :: a0 :: b1 :: b0 :: c1 :: c0 :: d1 :: d0 :: u3 :: u2 :: u1 :: u0 :: l3 :: l2 :: l1 :: l0
      :: t3 :: t2 :: t1 :: t0 :: n1 :: n0 :: rest =>
    match decodeFields opc flg (be16 a1 a0) (be16 b1 b0) (be16 c1 c0) (be16 d1 d0) (be32 u3 u2 u1 u0)
        (be32 l3 l2 l1 l0) (be32 t3 t2 t1 t0) (be16 n1 n0) with
    | .ok i => .ok (i, rest)
    | .error e => .error e
  | _ => .error .truncated

/-- Decodes the byte of a command frame by the default table of rule R121, the one the `match` values of
spec/opcode_table.json give (PRESUMED, log entry 2). -/
def decodeWire : List Byte → Except DecodeReject (Instr × List Byte)
  | b :: rest =>
    match allCmdNames.find? fun n => CmdTable.byte {} n == b with
    | some n => .ok (Instr.ofCmd n, rest)
    | none => .error .unknownCommand
  | [] => .error .truncated

/-- The decoder: `DESC` bytes come from the host, `WIRE_CMD` bytes stand in a command frame (rule R100). Total on any
bytes (rule R96). -/
def decode : Format → List Byte → Except DecodeReject (Instr × List Byte)
  | .desc, bytes => decodeDesc bytes
  | .wireCmd, bytes => decodeWire bytes

/-- The bits of a table word, laid out as the descriptor's 12 big-endian 16-bit words: word 0 is the header `HDR`
(rule R90), bits 15 to 8 of a word are the byte at the lower place (log entry 3). -/
def descBytesOfWord (w : Nat) : List Byte :=
  (List.range 12).flatMap fun (k : Nat) => [BitVec.ofNat 8 (w >>> (16 * k + 8)), BitVec.ofNat 8 (w >>> (16 * k))]

/-- The bytes of a table word of `nbits` bits: a row of at most 8 bits is a `WIRE_CMD` byte, any other a `DESC`
descriptor, the bits above `nbits` zero (log entry 3). -/
def bytesOfTableWord (nbits w : Nat) : Format × List Byte :=
  if nbits ≤ 8 then (.wireCmd, [BitVec.ofNat 8 (w % 2 ^ nbits)]) else (.desc, descBytesOfWord (w % 2 ^ nbits))

/-- The instruction the decoder reads from a table word. -/
def decodeTableWord (nbits w : Nat) : Option Instr :=
  match decode (bytesOfTableWord nbits w).1 (bytesOfTableWord nbits w).2 with
  | .ok (i, _) => some i
  | .error _ => none

/-! The encoder. -/

/-- The high byte of a 16-bit value, then the low byte: the big-endian order of rules R69 and R70. -/
def bytes16 (v : U16) : List Byte := [v.extractLsb' 8 8, v.extractLsb' 0 8]

/-- The four bytes of a 32-bit field, big-endian (rule R90). -/
def bytes32 (v : U32) : List Byte :=
  [v.extractLsb' 24 8, v.extractLsb' 16 8, v.extractLsb' 8 8, v.extractLsb' 0 8]

/-- Bit 0 of `FLG` for a colour (rule R90). -/
def flgOfColor : Color → Byte
  | .white => 0x00
  | .black => 0x01

/-- Bit 1 of `FLG` for a plane (rule R90). -/
def flgOfPlane : Plane → Byte
  | .old => 0x00
  | .new => 0x02

/-- The 24 bytes of a descriptor from its fields, in the order of rule R90's table. -/
def descBytes (opc flg : Byte) (a b c d : U16) (bufa bufl txta : U32) (txtl : U16) : List Byte :=
  opc :: flg :: (bytes16 a ++ bytes16 b ++ bytes16 c ++ bytes16 d ++ bytes32 bufa ++ bytes32 bufl ++ bytes32 txta
    ++ bytes16 txtl)

/-- The format of an instruction's row. -/
def Instr.format : Instr → Format
  | .clear _ _ _ | .drawPixel _ _ _ _ _ | .drawLine _ _ _ _ _ _ _ | .drawHline _ _ _ _ _ _
  | .drawVline _ _ _ _ _ _ | .drawRect _ _ _ _ _ _ _ | .drawFrect _ _ _ _ _ _ _ | .drawCircle _ _ _ _ _ _
  | .drawFcircle _ _ _ _ _ _ | .drawString _ _ _ _ _ _ _ | .reset | .init | .displayAndTransferFrame _ _ _
  | .setPartialWindow _ _ _ _ _ _ _ | .displayFrame | .displayFrameQuick | .clearFrame _ | .sleep
  | .waitUntilIdle => .desc
  | .panelSetting | .powerSetting | .powerOff | .powerOn | .boosterSoftStart | .deepSleep | .dataStartTransmission1
  | .displayRefresh | .dataStartTransmission2 | .lutForVcom | .lutWhiteToWhite | .lutBlackToWhite
  | .lutWhiteToBlack | .lutBlackToBlack | .pllControl | .vcomAndDataIntervalSetting | .resolutionSetting
  | .vcmDcSetting | .partialWindow | .partialIn | .partialOut => .wireCmd

/-- The bytes of an instruction: a descriptor with its unused fields 0, or the byte of a command frame by the default
table (rules R90, R92, R95, R121). -/
def encode : Instr → List Byte
  | .clear c u l => descBytes 0x01 (flgOfColor c) 0 0 0 0 u l 0 0
  | .drawPixel x y c u l => descBytes 0x02 (flgOfColor c) x y 0 0 u l 0 0
  | .drawLine x0 y0 x1 y1 c u l => descBytes 0x03 (flgOfColor c) x0 y0 x1 y1 u l 0 0
  | .drawHline x y w c u l => descBytes 0x04 (flgOfColor c) x y w 0 u l 0 0
  | .drawVline x y n c u l => descBytes 0x05 (flgOfColor c) x y n 0 u l 0 0
  | .drawRect x0 y0 x1 y1 c u l => descBytes 0x06 (flgOfColor c) x0 y0 x1 y1 u l 0 0
  | .drawFrect x0 y0 x1 y1 c u l => descBytes 0x07 (flgOfColor c) x0 y0 x1 y1 u l 0 0
  | .drawCircle cx cy r c u l => descBytes 0x08 (flgOfColor c) cx cy r 0 u l 0 0
  | .drawFcircle cx cy r c u l => descBytes 0x09 (flgOfColor c) cx cy r 0 u l 0 0
  | .drawString x y c u l t n => descBytes 0x0A (flgOfColor c) x y 0 0 u l t n
  | .reset => descBytes 0x10 0 0 0 0 0 0 0 0 0
  | .init => descBytes 0x11 0 0 0 0 0 0 0 0 0
  | .displayAndTransferFrame c u l => descBytes 0x12 (flgOfColor c) 0 0 0 0 u l 0 0
  | .setPartialWindow x y w n p u l => descBytes 0x13 (flgOfPlane p) x y w n u l 0 0
  | .displayFrame => descBytes 0x14 0 0 0 0 0 0 0 0 0
  | .displayFrameQuick => descBytes 0x15 0 0 0 0 0 0 0 0 0
  | .clearFrame c => descBytes 0x16 (flgOfColor c) 0 0 0 0 0 0 0 0
  | .sleep => descBytes 0x17 0 0 0 0 0 0 0 0 0
  | .waitUntilIdle => descBytes 0x18 0 0 0 0 0 0 0 0 0
  | .panelSetting => [0x00]
  | .powerSetting => [0x01]
  | .powerOff => [0x02]
  | .powerOn => [0x04]
  | .boosterSoftStart => [0x06]
  | .deepSleep => [0x07]
  | .dataStartTransmission1 => [0x10]
  | .displayRefresh => [0x12]
  | .dataStartTransmission2 => [0x13]
  | .lutForVcom => [0x20]
  | .lutWhiteToWhite => [0x21]
  | .lutBlackToWhite => [0x22]
  | .lutWhiteToBlack => [0x23]
  | .lutBlackToBlack => [0x24]
  | .pllControl => [0x30]
  | .vcomAndDataIntervalSetting => [0x50]
  | .resolutionSetting => [0x61]
  | .vcmDcSetting => [0x82]
  | .partialWindow => [0x90]
  | .partialIn => [0x91]
  | .partialOut => [0x92]

end Sys2Proof
end

