-- ==== Sys2Proof/Machine/State.lean ====
section
/-! DEFINITION. The machine's state as plain data (spec/10_state.md), the reasons a step can stop, and the state after
power-on (rule R41). INVENTORY.md lists every field with its rule and reset value. -/

namespace Sys2Proof.Machine

/-- SR0 `MODE` (rule R25); the reserved value 3 is never produced (spec/93_implementation_defined.md U16). -/
inductive Mode where
  | uninitialized
  | active
  | sleeping
deriving DecidableEq, Repr, Inhabited

/-- SR1 `LUTSEL` (rules R25, R29); the reserved value 3 is never produced (U16). -/
inductive LutSel where
  | none
  | full
  | quick
deriving DecidableEq, Repr, Inhabited

/-- SR2 `RESULT`: the codes of rule R230; no other value is ever written (U16). -/
inductive ResultCode where
  | ok
  | transferError
  | bufferSizeMismatch
  | deviceNotResponding
  | notActive
  | windowError
  | illegalOp
  | memRange
deriving DecidableEq, Repr, Inhabited

/-- The block's faults with their info (rule R230). The block TAKES them: they end an operation and leave a next state
(rule R236), and are no `Fault` of the model. -/
inductive OpFault where
  | transferError (e : XferErr)
  | bufferSizeMismatch
  | deviceNotResponding
  | notActive
  | windowError
  | illegalOp
  | memRange
deriving DecidableEq, Repr

/-- SR3 `ERRINFO` (rule R25): 0, or the transfer-error value. -/
inductive ErrInfo where
  | zero
  | err (e : XferErr)
deriving DecidableEq, Repr, Inhabited

/-- The three output pins (rule R39). -/
inductive PinName where
  | cs
  | dc
  | rst
deriving DecidableEq, Repr, Inhabited

/-- The level a pin is driven to (rule R190). -/
inductive Level where
  | low
  | high
deriving DecidableEq, Repr, Inhabited

/-- The last level driven on a pin, `unknown` before the first (rules R25, R32). -/
inductive PinLevel where
  | unknown
  | low
  | high
deriving DecidableEq, Repr, Inhabited

/-- SR5 `PINS` (rules R25, R32). -/
structure Pins where
  cs : PinLevel
  dc : PinLevel
  rst : PinLevel
deriving DecidableEq, Repr

/-- The events of `TRACE` (rule R33). -/
inductive Event where
  | pin (p : PinName) (lvl : Level)
  | xfer (bytes : List Byte) (res : XferResult)
  | delay (ms : Nat)
  | busyRead (lvl : BusyLevel)
deriving DecidableEq, Repr

/-- The status registers by number (rule R25). -/
inductive StatusReg where
  | mode
  | lutsel
  | result
  | errinfo
  | faulted
  | pins
  | opi
  | ustep
  | polln
deriving DecidableEq, Repr

/-- What `ReadStatus(n)` observes (rule R40), in the register's type of rule R25. -/
inductive StatusValue where
  | bits2 (v : BitVec 2)
  | bits8 (v : BitVec 8)
  | errInfo (e : ErrInfo)
  | bit (b : Bool)
  | pinLevels (p : Pins)
  | count (n : Nat)
deriving DecidableEq, Repr

/-- What the host does at its side of the block (rules R20, R40): it issues a descriptor, reads a status register, reads
or writes a byte of `MEM`, or lets the block take its next step first (`yield`, log entry 6). -/
inductive HostAction where
  | issue (bytes : List Byte)
  | readStatus (n : StatusReg)
  | readMem (addr : Nat)
  | writeMem (addr : Nat) (v : Byte)
  | yield
deriving DecidableEq, Repr

/-- What the host has observed (rule R40). -/
inductive HostObs where
  | status (n : StatusReg) (v : StatusValue)
  | byte (addr : Nat) (v : Byte)
deriving DecidableEq, Repr

/-- `MEM` (rules R35, R60): (address, byte) pairs, addresses strictly rising, no entry equal to what an unlisted address
reads as (`Memory.unlisted` of Machine/Ops.lean). -/
abbrev Memory := List Host.Cell

/-- The state of the machine. -/
structure State where
  /-- `CFG` as constructed (rules R6, R9): no step changes it (log entry 1) -/
  cfg : Cfg
  /-- `MEM` (rule R35) -/
  mem : Memory
  /-- SR0 `MODE` -/
  mode : Mode
  /-- SR1 `LUTSEL` -/
  lutsel : LutSel
  /-- SR2 `RESULT` -/
  result : ResultCode
  /-- SR3 `ERRINFO` -/
  errinfo : ErrInfo
  /-- SR4 `FAULTED` -/
  faulted : Bool
  /-- SR5 `PINS` -/
  pins : Pins
  /-- SR6 `OPI` -/
  opi : Nat
  /-- SR7 `USTEP` -/
  ustep : Nat
  /-- SR8 `POLLN` -/
  polln : Nat
  /-- `TRACE`, oldest event first (rule R33) -/
  trace : List Event
  /-- the operation in progress, sampled whole at `Issue` (rules R24, R40, R77); `none` when the block is idle -/
  op : Option Instr
  /-- the `W` at `USTEP` has made its first read (rule R196: one `W` is many polls; log entry 7) -/
  inWait : Bool
  /-- the host's coming actions in program order (rules R20, R24, R40) -/
  host : List HostAction
  /-- what the host has observed, oldest first (rule R40) -/
  obs : List HostObs
  /-- the environment's coming answers to byte transfers (rule R8; log entry 4) -/
  xferIn : List XferResult
  /-- the environment's coming answers to busy reads (rule R8; log entry 4) -/
  busyIn : List BusyLevel
  /-- the environment's answer to every transfer after `xferIn`, when the run fixes one; `none` leaves them free (the
  model's own field; log entry 4) -/
  xferRest : Option XferResult
  /-- the environment's answer to every busy read after `busyIn`, when the run fixes one; `none` leaves them free (the
  model's own field; log entry 4) -/
  busyRest : Option BusyLevel
  /-- how many transfers the free value `xferAnswer` has answered (the model's own field; log entry 4) -/
  xferDraws : Nat
  /-- how many busy reads the free value `busyAnswer` has answered (the model's own field; log entry 4) -/
  busyDraws : Nat
deriving DecidableEq, Repr

/-- Why the machine stops. None of these is a fault of the block (those are taken, see `OpFault`). -/
inductive Fault where
  /-- An access outside `MEM`, whose addresses are `0 .. MEMSZ-1` (rule R35). Raised by the host's `readMem` and
  `writeMem`, and by the sequencer where it reads a buffer byte outside `MEM`, which the range check of rule R65 rules
  out in every run. Safe: the spec gives no such access. -/
  | noSuchAddress (addr : Nat)
  /-- An operation is in progress but `USTEP` is not the number of one of its micro-operations. Raised by the sequencer;
  no run reaches it, because an operation finishes with its last micro-operation (rule R199). Safe. -/
  | noMicroOperation
deriving DecidableEq, Repr

/-- Why a step has no meaning. -/
inductive Refusal where
  /-- An instruction with no meaning in this model. Raised by `exec` only; no arm of it is left. Safe. -/
  | notModelled (mnemonic : String)
  /-- An operation is issued while another is in progress. Raised by the meaning of every operation; `step` never
  issues then (rules R24, R40; U6: the model has no such step). Safe. -/
  | blockBusy
  /-- What is handed to `Issue` is not exactly 24 bytes (rules R90, R96: it cannot be issued). Raised by `step`. Safe. -/
  | descriptorLength
  /-- The host reads or writes the buffer of the operation in progress (rules R40, R75; U6: the model has no such step).
  Raised by the host's `readMem` and `writeMem`. Safe. -/
  | rangeOwnedByOperation (addr : Nat)
deriving DecidableEq, Repr

/-- Power-on of the block (rules R41, R260, R261) with the configuration it was constructed with and the launch content
of `MEM`; the host's actions and the environment's answers are the run's inputs. -/
def State.powerOn (cfg : Cfg) (mem : Memory) (host : List HostAction) (xferIn : List XferResult)
    (busyIn : List BusyLevel) (xferRest : Option XferResult) (busyRest : Option BusyLevel) : State where
  cfg := cfg
  mem := mem
  mode := .uninitialized
  lutsel := .none
  result := .ok
  errinfo := .zero
  faulted := false
  pins := ⟨.unknown, .unknown, .unknown⟩
  opi := 0
  ustep := 0
  polln := 0
  trace := []
  op := none
  inWait := false
  host := host
  obs := []
  xferIn := xferIn
  busyIn := busyIn
  xferRest := xferRest
  busyRest := busyRest
  xferDraws := 0
  busyDraws := 0

/-- The machine right after power-on, no descriptor issued, nothing listed in memory, no answer of the environment
fixed. The configuration is the reference one (DESIGN CHOICE, log entry 1). -/
def State.reset : State := State.powerOn Cfg.reference [] [] [] [] none none

end Sys2Proof.Machine
end

