-- ==== Sys2Proof/Machine/Flags.lean ====
section
/-! DEFINITION. The status registers as codes and as the host reads them (spec/10_state.md rule R25,
spec/60_exceptions.md rule R230). The block has no condition codes, no carry and no overflow flag (rule R25); these
registers are all the flags it has. -/

namespace Sys2Proof.Machine

/-- The value of SR0 (rule R25). -/
def Mode.code : Mode → BitVec 2
  | .uninitialized => 0
  | .active => 1
  | .sleeping => 2

/-- The value of SR1 (rule R25). -/
def LutSel.code : LutSel → BitVec 2
  | .none => 0
  | .full => 1
  | .quick => 2

/-- The value of SR2 (rule R230). -/
def ResultCode.code : ResultCode → BitVec 8
  | .ok => 0
  | .transferError => 1
  | .bufferSizeMismatch => 2
  | .deviceNotResponding => 3
  | .notActive => 4
  | .windowError => 5
  | .illegalOp => 6
  | .memRange => 7

/-- The code a fault writes to `RESULT` (rules R230, R236). -/
def OpFault.result : OpFault → ResultCode
  | .transferError _ => .transferError
  | .bufferSizeMismatch => .bufferSizeMismatch
  | .deviceNotResponding => .deviceNotResponding
  | .notActive => .notActive
  | .windowError => .windowError
  | .illegalOp => .illegalOp
  | .memRange => .memRange

/-- What a fault writes to `ERRINFO`: the transfer-error value, else 0 (rule R236). -/
def OpFault.info : OpFault → ErrInfo
  | .transferError e => .err e
  | _ => .zero

/-- A run-time fault, raised by a micro-operation; the others are found by a check before the first (rule R230). -/
def OpFault.isRunTime : OpFault → Bool
  | .transferError _ => true
  | .deviceNotResponding => true
  | _ => false

/-- `LUTSEL` after a LUT set has been loaded (rules R29, R198). -/
def lutSelOf : LutSet → LutSel
  | .full => .full
  | .quick => .quick

/-- The level of a pin after it was driven (rule R190). -/
def Level.driven : Level → PinLevel
  | .low => .low
  | .high => .high

/-- `PINS` after one pin was driven (rules R32, R190). -/
def Pins.drive (p : Pins) (name : PinName) (lvl : Level) : Pins :=
  match name with
  | .cs => { p with cs := lvl.driven }
  | .dc => { p with dc := lvl.driven }
  | .rst => { p with rst := lvl.driven }

/-- `SRn` by its number, 0 to 8 (rule R25). -/
def StatusReg.number : StatusReg → Nat
  | .mode => 0
  | .lutsel => 1
  | .result => 2
  | .errinfo => 3
  | .faulted => 4
  | .pins => 5
  | .opi => 6
  | .ustep => 7
  | .polln => 8

/-- `ReadStatus(n)` (rule R40): the value of a status register, always enabled, no side effect. -/
def State.readStatus (s : State) : StatusReg → StatusValue
  | .mode => .bits2 s.mode.code
  | .lutsel => .bits2 s.lutsel.code
  | .result => .bits8 s.result.code
  | .errinfo => .errInfo s.errinfo
  | .faulted => .bit s.faulted
  | .pins => .pinLevels s.pins
  | .opi => .count s.opi
  | .ustep => .count s.ustep
  | .polln => .count s.polln

end Sys2Proof.Machine
end

