-- ==== Sys2Proof/Machine/Operands.lean ====
section
/-! DEFINITION. Operand forms and derived constants: the canvas and panel sizes (spec/00_scope.md rule R10), pixel
addressing (rule R14), colours, the window arithmetic (spec/45_protocol_operations.md rule R215), the glyph cells
(spec/43_raster_text.md rules R180, R183) and the checks of an operation's operands (rules R65, R66, R203, R238). -/

namespace Sys2Proof.Machine

/-- `ceil(a/b) = (a + b - 1) div b` (rule R11). -/
def ceilDiv (a b : Nat) : Nat := (a + b - 1) / b

/-- `STRIDE = ceil(CW/8)`: bytes in a canvas row (rule R10). -/
def stride (cfg : Cfg) : Nat := ceilDiv cfg.cw.toNat 8

/-- `CB = STRIDE * CH`: the canvas's byte capacity (rule R10). -/
def canvasBytes (cfg : Cfg) : Nat := stride cfg * cfg.ch.toNat

/-- `PB = ceil(WIDTH/8) * HEIGHT`: the byte capacity of a panel plane (rule R10). -/
def planeBytes (cfg : Cfg) : Nat := ceilDiv cfg.width.toNat 8 * cfg.height.toNat

/-- `COLOR_BIT` (rule R10): Black is `BLACK_BIT`, White the other bit. -/
def colorBit (cfg : Cfg) : Color → Bool
  | .black => cfg.blackBit
  | .white => !cfg.blackBit

/-- `COLOR_BYTE` (rule R10). -/
def colorByte (cfg : Cfg) (c : Color) : Byte := if colorBit cfg c then 0xFF else 0x00

/-- A point of the drawing plane; coordinates are mathematical integers (rule R12). -/
abbrev Point := Int × Int

/-- The point lies in the canvas `[0,CW) x [0,CH)` (rules R12, R149). -/
def inCanvas (cfg : Cfg) (p : Point) : Bool :=
  decide (0 ≤ p.1 ∧ p.1 < cfg.cw.toNat ∧ 0 ≤ p.2 ∧ p.2 < cfg.ch.toNat)

/-- `ByteIndex(x, y) = y * STRIDE + (x div 8)` (rule R14). -/
def byteIndex (cfg : Cfg) (x y : Nat) : Nat := y * stride cfg + x / 8

/-- `BitMask(x) = 0x80 >> (x mod 8)`: MSB-first (rules R14, R67). -/
def bitMask (x : Nat) : Byte := (0x80 : Byte) >>> (x % 8)

/-- The two bytes of a 16-bit value on the wire: `(v >> 8) & 0xFF`, then `v & 0xFF` (rules R69, R194). -/
def wire16 (v : Nat) : List Byte := [BitVec.ofNat 8 (v >>> 8), BitVec.ofNat 8 v]

/-- `XS = x - (x mod 8)` (rules R214, R215). -/
def windowXs (x : U16) : Nat := x.toNat - x.toNat % 8

/-- `XE = (XS + w - 1) | 7` (rules R214, R215). -/
def windowXe (x w : U16) : Nat := (windowXs x + w.toNat - 1) ||| 7

/-- `YS = y` (rule R214). -/
def windowYs (y : U16) : Nat := y.toNat

/-- `YE = y + l - 1` (rules R214, R215). -/
def windowYe (y l : U16) : Nat := y.toNat + l.toNat - 1

/-- The length a window buffer must have: `ceil(w/8) * l` (rule R66). -/
def windowBytes (w l : U16) : Nat := ceilDiv w.toNat 8 * l.toNat

/-- The packed rows of a character's cell: its glyph, or `FALLBACK` for a code without one (rule R180). -/
def cellRows (cfg : Cfg) (ch : Byte) : List Byte :=
  match cfg.glyphs.find? fun g => g.code == ch with
  | some g => g.rows
  | none => cfg.fallback

/-- `Cell(ch, r, c)` from the packing of rule R183. -/
def cellBit (cfg : Cfg) (ch : Byte) (r c : Nat) : Bool :=
  ((cellRows cfg ch).getD (r * ceilDiv cfg.fw 8 + c / 8) 0).getLsbD (7 - c % 8)

/-! The checks of an operation's operands. Each answers the fault it raises, or none; the common frames list them in the
order of rule R241. -/

/-- The length check (rules R66, R232), on naturals. -/
def sizeFault (bufl : U32) (required : Nat) : Option OpFault :=
  if bufl.toNat = required then none else some .bufferSizeMismatch

/-- The range check (rules R65, R235), on naturals: the sum does not wrap. -/
def rangeFault (cfg : Cfg) (addr len : Nat) : Option OpFault :=
  if addr + len ≤ cfg.memsz then none else some .memRange

/-- The mode gate (rules R203, R237). -/
def modeFault (s : State) : Option OpFault :=
  if s.mode = .active then none else some .notActive

/-- The window check (rules R214, R238). -/
def windowFault (cfg : Cfg) (x y w l : U16) : Option OpFault :=
  if w = 0 ∨ l = 0 ∨ cfg.width.toNat < windowXs x + w.toNat ∨ cfg.height.toNat < y.toNat + l.toNat then
    some .windowError
  else none

/-- The first fault of a list of checks (rule R241: exactly one is reported, the first). -/
def firstFault : List (Option OpFault) → Option OpFault
  | [] => none
  | some f :: _ => some f
  | none :: rest => firstFault rest

end Sys2Proof.Machine
end

