-- ==== Sys2Proof/Machine/Ops.lean ====
section
/-! DEFINITION. The named operations over memory, trace, pins and the environment's answers, taking a fault, finishing
an operation, and the common frame of a rasterizer operation (spec/20_memory.md, spec/44_protocol_primitives.md
section 1, spec/60_exceptions.md section 2, spec/41_raster_pixel_line.md rule R142). -/

namespace Sys2Proof.Machine

/-! Memory. -/

/-- What an unlisted address reads as. The spec gives `MEM` no reset value (rule R64); the byte 0 is a DESIGN CHOICE
(log entry 8) that no statement rests on: a launch content is a list. -/
def Memory.unlisted : Byte := 0

/-- `MemRead(addr, 1)` (rule R62). -/
def Memory.read : Memory → Nat → Byte
  | [], _ => Memory.unlisted
  | (k, v) :: m, a => if k = a then v else Memory.read m a

/-- `MemWrite(addr, 1, v)` (rule R63), keeping the canonical form. -/
def Memory.write : Memory → Nat → Byte → Memory
  | [], a, v => if v = Memory.unlisted then [] else [(a, v)]
  | (k, w) :: m, a, v =>
    if a < k then (if v = Memory.unlisted then (k, w) :: m else (a, v) :: (k, w) :: m)
    else if a = k then (if v = Memory.unlisted then m else (a, v) :: m)
    else (k, w) :: Memory.write m a v

/-- The canonical form: addresses strictly rising, no entry equal to what an unlisted address reads as. -/
def Memory.wf : Memory → Bool
  | [] => true
  | (k, v) :: m => decide (v ≠ Memory.unlisted) && m.all (fun e => decide (k < e.1)) && Memory.wf m

/-- Every listed address is one of the `MEMSZ` addresses of `MEM` (rule R35). -/
def Memory.inside (memsz : Nat) (m : Memory) : Bool := m.all fun e => decide (e.1 < memsz)

/-- `MemRead(addr, n)`: the bytes in ascending address order (rule R62). -/
def Memory.readRange (m : Memory) (a n : Nat) : List Byte := (List.range n).map fun (i : Nat) => m.read (a + i)

/-- Writes one byte at each of `n` addresses from `a` up (the loop of rule R140). -/
def Memory.fill (m : Memory) (a n : Nat) (v : Byte) : Memory :=
  (List.range n).foldl (fun (m : Memory) (i : Nat) => m.write (a + i) v) m

/-! Pixels. -/

/-- `Plot(x, y, c)` (rule R14): a read-modify-write of one byte for a point of the canvas, nothing for any other. -/
def plot (cfg : Cfg) (bufa : Nat) (c : Color) (m : Memory) (p : Point) : Memory :=
  if inCanvas cfg p then
    let a := bufa + byteIndex cfg p.1.toNat p.2.toNat
    let b := m.read a
    m.write a (if colorBit cfg c then b ||| bitMask p.1.toNat else b &&& (0xFF - bitMask p.1.toNat))
  else m

/-- The calls of `Plot` of a drawing operation, in order. -/
def plotAll (cfg : Cfg) (bufa : Nat) (c : Color) (m : Memory) (ps : List Point) : Memory :=
  ps.foldl (plot cfg bufa c) m

/-- `GetPixel(x, y)` (rule R14), a notation of the spec and no operation. -/
def getPixel (cfg : Cfg) (m : Memory) (bufa x y : Nat) : Bool :=
  (m.read (bufa + byteIndex cfg x y)).getLsbD (7 - x % 8)

/-! Trace, pins, the environment's answers. -/

/-- Appends events to `TRACE` (rule R33). -/
def State.log (s : State) (evs : List Event) : State := { s with trace := s.trace ++ evs }

/-- `P(pin, lvl)` (rule R190). -/
def State.drivePin (s : State) (p : PinName) (lvl : Level) : State :=
  { s with trace := s.trace ++ [.pin p lvl], pins := s.pins.drive p lvl }

/-- `XferResult()` (rule R8): the environment's next answer to a transfer: the next of the run's list, then the answer
the run fixes for the rest, and the free value when the run fixes none. -/
def State.nextXfer (s : State) : XferResult :=
  match s.xferIn, s.xferRest with
  | r :: _, _ => r
  | [], some r => r
  | [], none => xferAnswer s.xferDraws

/-- The state after that answer was drawn. -/
def State.drawXfer (s : State) : State :=
  match s.xferIn, s.xferRest with
  | _ :: rest, _ => { s with xferIn := rest }
  | [], some _ => s
  | [], none => { s with xferDraws := s.xferDraws + 1 }

/-- `BusyLevel()` (rule R8): the environment's next answer to a read of the busy pin, as for a transfer. -/
def State.nextBusy (s : State) : BusyLevel :=
  match s.busyIn, s.busyRest with
  | r :: _, _ => r
  | [], some r => r
  | [], none => busyAnswer s.busyDraws

/-- The state after that answer was drawn. -/
def State.drawBusy (s : State) : State :=
  match s.busyIn, s.busyRest with
  | _ :: rest, _ => { s with busyIn := rest }
  | [], some _ => s
  | [], none => { s with busyDraws := s.busyDraws + 1 }

/-- `Frame(dc, b)` up to and with the release of chip-select (rule R191): four events, whether the transfer was answered
`Ok` or `Err`. -/
def State.frameEvents (s : State) (dc : Level) (b : Byte) : State :=
  let r := s.nextXfer
  let s := ((s.drivePin .cs .low).drivePin .dc dc).drawXfer
  (s.log [.xfer [b] r]).drivePin .cs .high

/-! The end of an operation. -/

/-- Taking a fault (rule R236): the operation stops; a run-time fault leaves the session `Uninitialized` and no LUT
loaded (rule R28); `RESULT`, `ERRINFO`, `FAULTED`, `USTEP`, `OPI` are written; the block is idle. Nothing is saved and
nothing is vectored, so there is no return from it (rule R242). -/
def State.raise (s : State) (f : OpFault) : State :=
  { s with
    mode := if f.isRunTime then .uninitialized else s.mode
    lutsel := if f.isRunTime then .none else s.lutsel
    result := f.result
    errinfo := f.info
    faulted := true
    ustep := 0
    opi := s.opi + 1
    op := none
    inWait := false }

/-- The normal end of an operation (rules R23, R30, R142 step 5, R199 step 5). -/
def State.finishOk (s : State) : State :=
  { s with
    result := .ok
    errinfo := .zero
    ustep := 0
    opi := s.opi + 1
    op := none
    inWait := false }

/-! The common frame of a rasterizer operation. -/

/-- Steps 2 to 5 of rule R142 (step 1 is the decoder's). The whole is one atomic step. `text` is the text range of
`DRAW_STRING`; `draw` is the operation's pseudocode, from the buffer address and the memory. -/
def rasterOp (bufa bufl : U32) (text : Option (Nat × Nat)) (draw : Cfg → Nat → Memory → Memory) (s : State) :
    Host.Outcome State Fault Refusal :=
  if s.op.isSome then .refused .blockBusy
  else
    match firstFault
        [sizeFault bufl (canvasBytes s.cfg), rangeFault s.cfg bufa.toNat bufl.toNat,
          text.bind fun t => rangeFault s.cfg t.1 t.2] with
    | some f => .next (s.raise f)
    | none => .next (State.finishOk { s with mem := draw s.cfg bufa.toNat s.mem })

end Sys2Proof.Machine
end

