-- ==== Sys2Proof/Machine/Sequencer.lean ====
section
/-! DEFINITION. The protocol sequencer: its micro-operations (spec/44_protocol_primitives.md section 1), the
micro-sequence of every operation (rules R197, R198, R200 to R202 and spec/45_protocol_operations.md), the position
`(OPI, USTEP)` in it (spec/10_state.md rule R23) and the common frame of a protocol operation (rule R199). -/

namespace Sys2Proof.Machine

/-- The micro-operations that are not command frames (rules R190, R193, R195, R196). `dataMem a` is one `D` of `Dbuf`
(rule R194): its byte is read from `MEM` when it is performed. -/
inductive PrimOp where
  | pin (p : PinName) (lvl : Level)
  | data (b : Byte)
  | dataMem (addr : Nat)
  | delay (ms : Nat)
  | wait
deriving DecidableEq, Repr

/-- A micro-operation: a command frame `C(name)` (rule R192), which is an instruction of the table, or one of the
others. -/
inductive MicroOp where
  | cmd (n : CmdName)
  | prim (p : PrimOp)
deriving DecidableEq, Repr

/-- One entry of a micro-sequence: the micro-operation, and the LUT set whose loading it completes, if it is the last
micro-operation of a `LoadLut` (rule R198). -/
structure MicroStep where
  op : MicroOp
  loads : Option LutSet := none
deriving DecidableEq, Repr

/-! Runs of micro-operations. -/

/-- `C(name)` (rule R192). -/
def microC (n : CmdName) : MicroStep := { op := .cmd n }

/-- `D(b)` (rule R193). -/
def microD (b : Byte) : MicroStep := { op := .prim (.data b) }

/-- `T(ms)` (rule R195). -/
def microT (ms : Nat) : MicroStep := { op := .prim (.delay ms) }

/-- `W` (rule R196). -/
def microW : MicroStep := { op := .prim .wait }

/-- `P(pin, lvl)` (rule R190). -/
def microP (p : PinName) (lvl : Level) : MicroStep := { op := .prim (.pin p lvl) }

/-- `Dl(list)` (rule R194). -/
def microDl (bytes : List Byte) : List MicroStep := bytes.map microD

/-- `Dn(k, b)` (rule R194). -/
def microDn (k : Nat) (b : Byte) : List MicroStep := List.replicate k (microD b)

/-- `Dbuf` (rule R194). -/
def microDbuf (bufa bufl : Nat) : List MicroStep :=
  (List.range bufl).map fun (i : Nat) => { op := .prim (.dataMem (bufa + i)) }

/-- `D16(v)` (rule R194). -/
def microD16 (v : Nat) : List MicroStep := microDl (wire16 v)

/-- A command block: one command frame, then its data bytes (rule R101). -/
def commandBlock (n : CmdName) (bytes : List Byte) : List MicroStep := microC n :: microDl bytes

/-- `ResetSeq` (rule R197). -/
def resetSeq (cfg : Cfg) : List MicroStep :=
  [microP .rst .low, microT cfg.tRstLow, microP .rst .high, microT cfg.tRstHigh]

/-- `LutCmd(k)` (rule R124). -/
def lutCmd : LutKind → CmdName
  | .vcom => .lutForVcom
  | .ww => .lutWhiteToWhite
  | .bw => .lutBlackToWhite
  | .wb => .lutWhiteToBlack
  | .bb => .lutBlackToBlack

/-- The bytes of one kind (rule R125). -/
def lutBytes (t : LutTable) : LutKind → List Byte
  | .vcom => t.vcom
  | .ww => t.ww
  | .bw => t.bw
  | .wb => t.wb
  | .bb => t.bb

/-- The table of a set: `CFG.LUT_FULL` or `CFG.LUT_QUICK` (rule R198). -/
def lutTable (cfg : Cfg) : LutSet → LutTable
  | .full => cfg.lutFull
  | .quick => cfg.lutQuick

/-- The order in which the five kinds are sent (rules R124, R198). -/
def lutOrder : List LutKind := [.vcom, .ww, .bw, .wb, .bb]

/-- Marks the last entry of a run as the one that completes the loading of a LUT set. -/
def markLast (set : LutSet) : List MicroStep → List MicroStep
  | [] => []
  | [m] => [{ m with loads := some set }]
  | m :: ms => m :: markLast set ms

/-- `LoadLut(set)` (rule R198). -/
def loadLut (cfg : Cfg) (set : LutSet) : List MicroStep :=
  markLast set (lutOrder.flatMap fun k => commandBlock (lutCmd k) (lutBytes (lutTable cfg set) k))

/-- `SendResolution` (rule R202). -/
def sendResolution (cfg : Cfg) : List MicroStep :=
  microC .resolutionSetting :: (microD16 cfg.width.toNat ++ microD16 cfg.height.toNat)

/-! The micro-sequences of the operations. -/

/-- `INIT`, lines 1 to 7 (rule R210). -/
def initSeq (cfg : Cfg) : List MicroStep :=
  resetSeq cfg ++ commandBlock .powerSetting cfg.pwrData ++ commandBlock .boosterSoftStart cfg.btstData
    ++ [microC .powerOn, microW] ++ commandBlock .panelSetting cfg.psrData ++ commandBlock .pllControl cfg.pllData

/-- `DISPLAY_AND_TRANSFER_FRAME`, lines 1 to 10 (rule R212). -/
def transferFrameSeq (cfg : Cfg) (color : Color) (bufa bufl : Nat) : List MicroStep :=
  sendResolution cfg ++ commandBlock .vcomAndDataIntervalSetting cfg.cdiData
    ++ (microC .dataStartTransmission1 :: microDn (planeBytes cfg) (colorByte cfg color)) ++ [microT cfg.tShort]
    ++ (microC .dataStartTransmission2 :: microDbuf bufa bufl) ++ [microT cfg.tShort]
    ++ loadLut cfg .full ++ [microC .displayRefresh, microT cfg.tDtf, microW]

/-- The command that selects an image plane (rule R214 line 5). -/
def planeCmd : Plane → CmdName
  | .old => .dataStartTransmission1
  | .new => .dataStartTransmission2

/-- `SET_PARTIAL_WINDOW`, lines 1 to 7 (rule R214). -/
def partialWindowSeq (cfg : Cfg) (x y w l : U16) (plane : Plane) (bufa bufl : Nat) : List MicroStep :=
  [microC .partialIn, microC .partialWindow] ++ microD16 (windowXs x) ++ microD16 (windowXe x w)
    ++ microD16 (windowYs y) ++ microD16 (windowYe y l) ++ [microD cfg.ptlScan]
    ++ (microC (planeCmd plane) :: microDbuf bufa bufl) ++ [microC .partialOut]

/-- `DISPLAY_FRAME` and `DISPLAY_FRAME_QUICK` differ in the LUT set and the delay only (rules R216, R217). -/
def refreshSeq (cfg : Cfg) (set : LutSet) (delay : Nat) : List MicroStep :=
  loadLut cfg set ++ [microC .displayRefresh, microT delay, microW]

/-- `CLEAR_FRAME`, lines 1 to 5 (rule R218). -/
def clearFrameSeq (cfg : Cfg) (color : Color) : List MicroStep :=
  sendResolution cfg ++ (microC .dataStartTransmission1 :: microDn (planeBytes cfg) (colorByte cfg color))
    ++ [microT cfg.tShort] ++ (microC .dataStartTransmission2 :: microDn (planeBytes cfg) (colorByte cfg color))
    ++ [microT cfg.tShort]

/-- `SLEEP`, lines 1 to 9 (rule R220). The four zero bytes and `0xA5` are constants of the block (rule R267). -/
def sleepSeq (cfg : Cfg) : List MicroStep :=
  commandBlock .vcomAndDataIntervalSetting cfg.sleepCdiData ++ commandBlock .vcmDcSetting cfg.sleepVcmData
    ++ commandBlock .panelSetting cfg.sleepPsrData ++ [microT cfg.tSleepA]
    ++ (microC .powerSetting :: microDn 4 0x00) ++ [microT cfg.tSleepB] ++ [microC .powerOff, microW]
    ++ [microC .deepSleep, microD 0xA5]

/-- The micro-sequence of an operation. A rasterizer operation has none: it is one atomic step (rule R23). A command
frame is itself a micro-operation. -/
def microSeq (cfg : Cfg) : Instr → List MicroStep
  | .reset => resetSeq cfg
  | .init => initSeq cfg
  | .displayAndTransferFrame color bufa bufl => transferFrameSeq cfg color bufa.toNat bufl.toNat
  | .setPartialWindow x y w l plane bufa bufl => partialWindowSeq cfg x y w l plane bufa.toNat bufl.toNat
  | .displayFrame => refreshSeq cfg .full cfg.tFrame
  | .displayFrameQuick => refreshSeq cfg .quick cfg.tQuick
  | .clearFrame color => clearFrameSeq cfg color
  | .sleep => sleepSeq cfg
  | .waitUntilIdle => [microW]
  | .clear _ _ _ | .drawPixel _ _ _ _ _ | .drawLine _ _ _ _ _ _ _ | .drawHline _ _ _ _ _ _
  | .drawVline _ _ _ _ _ _ | .drawRect _ _ _ _ _ _ _ | .drawFrect _ _ _ _ _ _ _ | .drawCircle _ _ _ _ _ _
  | .drawFcircle _ _ _ _ _ _ | .drawString _ _ _ _ _ _ _ => []
  | .panelSetting | .powerSetting | .powerOff | .powerOn | .boosterSoftStart | .deepSleep | .dataStartTransmission1
  | .displayRefresh | .dataStartTransmission2 | .lutForVcom | .lutWhiteToWhite | .lutBlackToWhite
  | .lutWhiteToBlack | .lutBlackToBlack | .pllControl | .vcomAndDataIntervalSetting | .resolutionSetting
  | .vcmDcSetting | .partialWindow | .partialIn | .partialOut => []

/-! The position, and the end of a micro-operation. -/

/-- The micro-operation number `USTEP` of the operation in progress (rules R23, R199). -/
def State.currentMicro (s : State) : Option MicroStep :=
  match s.op with
  | some i => (microSeq s.cfg i)[s.ustep]?
  | none => none

/-- `LUTSEL` when the micro-operation at `USTEP` completes (rules R29, R198). -/
def State.lutselAfter (s : State) : LutSel :=
  match s.currentMicro with
  | some m => (match m.loads with
    | some set => lutSelOf set
    | none => s.lutsel)
  | none => s.lutsel

/-- The completion effects of an operation on `MODE` and `LUTSEL` (rules R27, R29, R210, R220). -/
def State.completionEffects (s : State) (i : Instr) : State :=
  match i with
  | .init => { s with mode := .active }
  | .sleep => { s with mode := .sleeping, lutsel := .none }
  | _ => s

/-- A micro-operation completed without fault: `USTEP` advances by one (rule R23), and with the last one the operation
ends normally (rule R199 step 5). With no operation in progress there is no position to advance. -/
def State.advance (s : State) : State :=
  match s.op with
  | none => s
  | some i =>
    let s' := { s with lutsel := s.lutselAfter }
    if s.ustep + 1 < (microSeq s.cfg i).length then { s' with ustep := s.ustep + 1, inWait := false }
    else (s'.completionEffects i).finishOk

/-- A frame as a micro-operation (rule R191): the four events, then on `Err(e)` the fault `TransferError(e)`, else the
next micro-operation. -/
def State.sendFrame (s : State) (dc : Level) (b : Byte) : State :=
  match s.nextXfer with
  | .ok => (s.frameEvents dc b).advance
  | .err e => (s.frameEvents dc b).raise (.transferError e)

/-- The busy reads of a wait have reached the bound (rule R196). -/
def pollLimitReached (limit : Option Nat) (polln : Nat) : Bool :=
  match limit with
  | some l => decide (l ≤ polln)
  | none => false

/-- `POLLN` as the current poll finds it: 0 at the first read of a `W` (rule R196). -/
def State.pollStart (s : State) : Nat := if s.inWait then s.polln else 0

/-- One poll of `W` (rule R196): the read; idle completes the `W`; still busy counts, meets the bound or delays. -/
def State.pollOnce (s : State) : State :=
  let lvl := s.nextBusy
  let s' := (s.drawBusy).log [.busyRead lvl]
  if lvl = .high then State.advance { s' with polln := 0 }
  else
    let s' := { s' with polln := s.pollStart + 1, inWait := true }
    if pollLimitReached s.cfg.pollLimit (s.pollStart + 1) then s'.raise .deviceNotResponding
    else s'.log [.delay s.cfg.tPoll]

/-- Performs a micro-operation that is not a command frame. -/
def runPrim (p : PrimOp) (s : State) : Host.Outcome State Fault Refusal :=
  match p with
  | .pin name lvl => .next (s.drivePin name lvl).advance
  | .data b => .next (s.sendFrame .high b)
  | .dataMem a => if a < s.cfg.memsz then .next (s.sendFrame .high (s.mem.read a)) else .fault (.noSuchAddress a)
  | .delay ms => .next (s.log [.delay ms]).advance
  | .wait => .next s.pollOnce

/-- The meaning the 21 command frames share: `C(name) = Frame(Low, CFG.CMD(name))` (rule R192). -/
def wireCommand (n : CmdName) (s : State) : Host.Outcome State Fault Refusal :=
  .next (s.sendFrame .low (s.cfg.cmd.byte n))

/-! The common frame of a protocol operation. -/

/-- What `RESET` and `INIT` do on entry, before their first micro-operation (rules R27, R200, R210). -/
def State.entryReset (s : State) : State := { s with mode := .uninitialized, lutsel := .none }

/-- The operation is in progress at its first micro-operation (rule R199 step 4). -/
def State.begin (s : State) (i : Instr) : State := { s with op := some i, ustep := 0, inWait := false }

/-- Steps 2 to 4 of rule R199 up to the first micro-operation (step 1 is the decoder's): the checks in order, then the
operation is in progress. Its micro-operations are the steps that follow. -/
def protocolOp (i : Instr) (checks : List (Option OpFault)) (entry : State → State) (s : State) :
    Host.Outcome State Fault Refusal :=
  if s.op.isSome then .refused .blockBusy
  else
    match firstFault checks with
    | some f => .next (s.raise f)
    | none => .next ((entry s).begin i)

end Sys2Proof.Machine
end

