-- ==== Sys2Proof/Machine/Protocol.lean ====
section
/-! DEFINITION. The nine operations of the protocol sequencer at `Issue`: the mode gate (rule R203) and the checks of
spec/44_protocol_primitives.md rule R199, then the operation is in progress. What each then does is its
micro-sequence (Machine/Sequencer.lean), one micro-operation a step, and its completion effects. -/

namespace Sys2Proof.Machine

/-- `RESET` (rule R200): accepted in every mode. -/
def execReset (s : State) : Host.Outcome State Fault Refusal := protocolOp .reset [] State.entryReset s

/-- `INIT` (rule R210): accepted in every mode. -/
def execInit (s : State) : Host.Outcome State Fault Refusal := protocolOp .init [] State.entryReset s

/-- `DISPLAY_AND_TRANSFER_FRAME` (rule R212). -/
def execDisplayAndTransferFrame (color : Color) (bufa bufl : U32) (s : State) : Host.Outcome State Fault Refusal :=
  protocolOp (.displayAndTransferFrame color bufa bufl)
    [modeFault s, sizeFault bufl (planeBytes s.cfg), rangeFault s.cfg bufa.toNat bufl.toNat] id s

/-- `SET_PARTIAL_WINDOW` (rule R214). -/
def execSetPartialWindow (x y w l : U16) (plane : Plane) (bufa bufl : U32) (s : State) :
    Host.Outcome State Fault Refusal :=
  protocolOp (.setPartialWindow x y w l plane bufa bufl)
    [modeFault s, windowFault s.cfg x y w l, sizeFault bufl (windowBytes w l),
      rangeFault s.cfg bufa.toNat bufl.toNat] id s

/-- `DISPLAY_FRAME` (rule R216). -/
def execDisplayFrame (s : State) : Host.Outcome State Fault Refusal := protocolOp .displayFrame [modeFault s] id s

/-- `DISPLAY_FRAME_QUICK` (rule R217). -/
def execDisplayFrameQuick (s : State) : Host.Outcome State Fault Refusal :=
  protocolOp .displayFrameQuick [modeFault s] id s

/-- `CLEAR_FRAME` (rule R218): it uses no buffer. -/
def execClearFrame (color : Color) (s : State) : Host.Outcome State Fault Refusal :=
  protocolOp (.clearFrame color) [modeFault s] id s

/-- `SLEEP` (rule R220). -/
def execSleep (s : State) : Host.Outcome State Fault Refusal := protocolOp .sleep [modeFault s] id s

/-- `WAIT_UNTIL_IDLE` (rule R201). -/
def execWaitUntilIdle (s : State) : Host.Outcome State Fault Refusal := protocolOp .waitUntilIdle [modeFault s] id s

end Sys2Proof.Machine
end

