-- ==== Sys2Proof/Machine/RasterPixelLine.lean ====
section
/-! DEFINITION. `CLEAR`, `DRAW_PIXEL`, `DRAW_LINE`, `DRAW_HLINE`, `DRAW_VLINE` (spec/41_raster_pixel_line.md). A drawing
operation is the list of its `Plot` calls in order; the arithmetic is on integers (rule R148). -/

namespace Sys2Proof.Machine

/-- `Span(xa, xb, y)` (rule R14): ascending x, no point when `xa > xb`. -/
def rowPoints (xa xb y : Int) : List Point :=
  (List.range (xb - xa + 1).toNat).map fun (i : Nat) => (xa + (i : Int), y)

/-- `for y from ya to yb: Plot(x, y, c)`: no point when `ya > yb`. -/
def columnPoints (x ya yb : Int) : List Point :=
  (List.range (yb - ya + 1).toNat).map fun (j : Nat) => (x, ya + (j : Int))

/-- The loop of rule R143 from the point `(x, y)` with the error term `err`; both tests use the same `e2`. The first
argument bounds the number of points; `linePoints` gives the number the loop plots. `err` and `e2` are unbounded
integers: the bounds that rule R148 prints for them, `dy <= err <= dx` and `|e2| <= 131070`, do not hold of the loop of
rule R143, and the model follows rule R143 (DESIGN CHOICE, unsafe, log entry 27). -/
def lineWalk (xb yb dx dy sy : Int) : Nat → Int → Int → Int → List Point
  | 0, _, _, _ => []
  | n + 1, x, y, err =>
    (x, y) ::
      if x = xb ∧ y = yb then []
      else
        let e2 := 2 * err
        lineWalk xb yb dx dy sy n (if dy ≤ e2 then x + 1 else x) (if e2 ≤ dx then y + sy else y)
          (err + (if dy ≤ e2 then dy else 0) + (if e2 ≤ dx then dx else 0))

/-- The walk of rule R143 between endpoints in canonical order: `max(dx, -dy) + 1` points. -/
def orderedLinePoints (xa ya xb yb : Int) : List Point :=
  let dx := xb - xa
  let dy := -((yb - ya).natAbs : Int)
  lineWalk xb yb dx dy (if ya < yb then 1 else -1) ((max dx (-dy)).toNat + 1) xa ya (dx + dy)

/-- The points of `DRAW_LINE` (rule R143): the endpoints are first put in canonical order. -/
def linePoints (x0 y0 x1 y1 : U16) : List Point :=
  if x1.toNat < x0.toNat ∨ (x0.toNat = x1.toNat ∧ y1.toNat < y0.toNat) then
    orderedLinePoints x1.toNat y1.toNat x0.toNat y0.toNat
  else orderedLinePoints x0.toNat y0.toNat x1.toNat y1.toNat

/-- The points of `DRAW_HLINE` (rule R145). -/
def hlinePoints (x y w : U16) : List Point := rowPoints x.toNat ((x.toNat : Int) + w.toNat - 1) y.toNat

/-- The points of `DRAW_VLINE` (rule R146). -/
def vlinePoints (x y l : U16) : List Point := columnPoints x.toNat y.toNat ((y.toNat : Int) + l.toNat - 1)

/-- `CLEAR` (rule R140): every byte of the buffer is written whole. -/
def execClear (color : Color) (bufa bufl : U32) (s : State) : Host.Outcome State Fault Refusal :=
  rasterOp bufa bufl none (fun cfg a m => m.fill a bufl.toNat (colorByte cfg color)) s

/-- `DRAW_PIXEL` (rule R141). -/
def execDrawPixel (x y : U16) (color : Color) (bufa bufl : U32) (s : State) : Host.Outcome State Fault Refusal :=
  rasterOp bufa bufl none (fun cfg a m => plotAll cfg a color m [((x.toNat : Int), (y.toNat : Int))]) s

/-- `DRAW_LINE` (rule R143). -/
def execDrawLine (x0 y0 x1 y1 : U16) (color : Color) (bufa bufl : U32) (s : State) :
    Host.Outcome State Fault Refusal :=
  rasterOp bufa bufl none (fun cfg a m => plotAll cfg a color m (linePoints x0 y0 x1 y1)) s

/-- `DRAW_HLINE` (rule R145). -/
def execDrawHline (x y w : U16) (color : Color) (bufa bufl : U32) (s : State) : Host.Outcome State Fault Refusal :=
  rasterOp bufa bufl none (fun cfg a m => plotAll cfg a color m (hlinePoints x y w)) s

/-- `DRAW_VLINE` (rule R146). -/
def execDrawVline (x y l : U16) (color : Color) (bufa bufl : U32) (s : State) : Host.Outcome State Fault Refusal :=
  rasterOp bufa bufl none (fun cfg a m => plotAll cfg a color m (vlinePoints x y l)) s

end Sys2Proof.Machine
end

