-- ==== Sys2Proof/Machine/RasterShapes.lean ====
section
/-! DEFINITION. `DRAW_RECT`, `DRAW_FRECT`, `DRAW_CIRCLE`, `DRAW_FCIRCLE` (spec/42_raster_shapes.md). -/

namespace Sys2Proof.Machine

/-- The points of `DRAW_RECT` (rule R160): top, bottom, left, right; none for reversed corners (rule R163). -/
def rectPoints (x0 y0 x1 y1 : U16) : List Point :=
  if x0.toNat ≤ x1.toNat ∧ y0.toNat ≤ y1.toNat then
    rowPoints x0.toNat x1.toNat y0.toNat ++ rowPoints x0.toNat x1.toNat y1.toNat
      ++ columnPoints x0.toNat y0.toNat y1.toNat ++ columnPoints x1.toNat y0.toNat y1.toNat
  else []

/-- The points of `DRAW_FRECT` (rule R162): row by row. -/
def frectPoints (x0 y0 x1 y1 : U16) : List Point :=
  (List.range (y1.toNat + 1 - y0.toNat)).flatMap fun (j : Nat) =>
    rowPoints x0.toNat x1.toNat ((y0.toNat : Int) + (j : Int))

/-- The loop of rule R166 as the offsets `(x, y)` at the moment of plotting, from `(x, y, d)`; the update of `d` uses
the values from before the iteration's changes. The first argument bounds the number of iterations; `octant` gives the
number the loop makes at most. -/
def octantWalk : Nat → Int → Int → Int → List (Int × Int)
  | 0, _, _, _ => []
  | n + 1, x, y, d =>
    if x ≤ y then
      (x, y) ::
        (if d < 0 then octantWalk n (x + 1) y (d + 2 * x + 3)
         else octantWalk n (x + 1) (y - 1) (d + 2 * (x - y) + 5))
    else []

/-- The octant of radius `r`, from `(0, r)` to the diagonal inclusive (rule R166): `x` rises with each iteration and
never passes `r`, so `r + 1` iterations are enough. -/
def octant (r : Nat) : List (Int × Int) := octantWalk (r + 1) 0 r (1 - (r : Int))

/-- The points of `DRAW_CIRCLE` (rule R166): eight for each offset. -/
def circlePoints (cx cy r : U16) : List Point :=
  (octant r.toNat).flatMap fun o =>
    let x := o.1
    let y := o.2
    let a : Int := cx.toNat
    let b : Int := cy.toNat
    [(a + x, b + y), (a - x, b + y), (a + x, b - y), (a - x, b - y),
     (a + y, b + x), (a - y, b + x), (a + y, b - x), (a - y, b - x)]

/-- The points of `DRAW_FCIRCLE` (rule R168): four spans for each offset. -/
def fcirclePoints (cx cy r : U16) : List Point :=
  (octant r.toNat).flatMap fun o =>
    let x := o.1
    let y := o.2
    let a : Int := cx.toNat
    let b : Int := cy.toNat
    rowPoints (a - x) (a + x) (b + y) ++ rowPoints (a - x) (a + x) (b - y)
      ++ rowPoints (a - y) (a + y) (b + x) ++ rowPoints (a - y) (a + y) (b - x)

/-- `DRAW_RECT` (rule R160). -/
def execDrawRect (x0 y0 x1 y1 : U16) (color : Color) (bufa bufl : U32) (s : State) :
    Host.Outcome State Fault Refusal :=
  rasterOp bufa bufl none (fun cfg a m => plotAll cfg a color m (rectPoints x0 y0 x1 y1)) s

/-- `DRAW_FRECT` (rule R162). -/
def execDrawFrect (x0 y0 x1 y1 : U16) (color : Color) (bufa bufl : U32) (s : State) :
    Host.Outcome State Fault Refusal :=
  rasterOp bufa bufl none (fun cfg a m => plotAll cfg a color m (frectPoints x0 y0 x1 y1)) s

/-- `DRAW_CIRCLE` (rule R166). -/
def execDrawCircle (cx cy r : U16) (color : Color) (bufa bufl : U32) (s : State) :
    Host.Outcome State Fault Refusal :=
  rasterOp bufa bufl none (fun cfg a m => plotAll cfg a color m (circlePoints cx cy r)) s

/-- `DRAW_FCIRCLE` (rule R168). -/
def execDrawFcircle (cx cy r : U16) (color : Color) (bufa bufl : U32) (s : State) :
    Host.Outcome State Fault Refusal :=
  rasterOp bufa bufl none (fun cfg a m => plotAll cfg a color m (fcirclePoints cx cy r)) s

end Sys2Proof.Machine
end

