-- ==== Sys2Proof/Machine/RasterText.lean ====
section
/-! DEFINITION. `DRAW_STRING` (spec/43_raster_text.md). -/

namespace Sys2Proof.Machine

/-- The 1-bits of a character's cell with its top-left pixel at `(x0, y0)`, row by row (rule R182). -/
def cellPoints (cfg : Cfg) (ch : Byte) (x0 y0 : Int) : List Point :=
  (List.range cfg.fh).flatMap fun (r : Nat) =>
    ((List.range cfg.fw).filter fun (c : Nat) => cellBit cfg ch r c).map fun (c : Nat) => (x0 + (c : Int), y0 + (r : Int))

/-- The points of a text (rule R182): the cells left to right, each `FW` pixels wide, with a glyph or without. -/
def textPoints (cfg : Cfg) (x0 y0 : U16) (text : List Byte) : List Point :=
  text.zipIdx.flatMap fun (e : Byte × Nat) => cellPoints cfg e.1 ((x0.toNat : Int) + (e.2 * cfg.fw : Nat)) y0.toNat

/-- `DRAW_STRING` (rule R182): the whole text is read before the first `Plot` (rule R181). -/
def execDrawString (x0 y0 : U16) (color : Color) (bufa bufl txta : U32) (txtl : U16) (s : State) :
    Host.Outcome State Fault Refusal :=
  rasterOp bufa bufl (some (txta.toNat, txtl.toNat))
    (fun cfg a m => plotAll cfg a color m (textPoints cfg x0 y0 (m.readRange txta.toNat txtl.toNat))) s

end Sys2Proof.Machine
end

