-- ==== Sys2Proof/Machine/WireCommands.lean ====
section
/-! DEFINITION. The 21 command frames (rows `WIRE_CMD` of spec/opcode_table.json; spec/40_command_and_lut_tables.md rule
R121, spec/44_protocol_primitives.md rule R192). A command frame is the micro-operation `C(name)` of the operation in
progress: chip-select low, data/command low, the byte `CFG.CMD(name)`, chip-select high; then the next micro-operation,
or the fault `TransferError`. `step` performs one where the micro-sequence has it (log entry 9). -/

namespace Sys2Proof.Machine

/-- `C(PANEL_SETTING)`. -/
def execPanelSetting (s : State) : Host.Outcome State Fault Refusal := wireCommand .panelSetting s

/-- `C(POWER_SETTING)`. -/
def execPowerSetting (s : State) : Host.Outcome State Fault Refusal := wireCommand .powerSetting s

/-- `C(POWER_OFF)`. -/
def execPowerOff (s : State) : Host.Outcome State Fault Refusal := wireCommand .powerOff s

/-- `C(POWER_ON)`. -/
def execPowerOn (s : State) : Host.Outcome State Fault Refusal := wireCommand .powerOn s

/-- `C(BOOSTER_SOFT_START)`. -/
def execBoosterSoftStart (s : State) : Host.Outcome State Fault Refusal := wireCommand .boosterSoftStart s

/-- `C(DEEP_SLEEP)`. -/
def execDeepSleep (s : State) : Host.Outcome State Fault Refusal := wireCommand .deepSleep s

/-- `C(DATA_START_TRANSMISSION_1)`. -/
def execDataStartTransmission1 (s : State) : Host.Outcome State Fault Refusal := wireCommand .dataStartTransmission1 s

/-- `C(DISPLAY_REFRESH)`. -/
def execDisplayRefresh (s : State) : Host.Outcome State Fault Refusal := wireCommand .displayRefresh s

/-- `C(DATA_START_TRANSMISSION_2)`. -/
def execDataStartTransmission2 (s : State) : Host.Outcome State Fault Refusal := wireCommand .dataStartTransmission2 s

/-- `C(LUT_FOR_VCOM)`. -/
def execLutForVcom (s : State) : Host.Outcome State Fault Refusal := wireCommand .lutForVcom s

/-- `C(LUT_WHITE_TO_WHITE)`. -/
def execLutWhiteToWhite (s : State) : Host.Outcome State Fault Refusal := wireCommand .lutWhiteToWhite s

/-- `C(LUT_BLACK_TO_WHITE)`. -/
def execLutBlackToWhite (s : State) : Host.Outcome State Fault Refusal := wireCommand .lutBlackToWhite s

/-- `C(LUT_WHITE_TO_BLACK)`. -/
def execLutWhiteToBlack (s : State) : Host.Outcome State Fault Refusal := wireCommand .lutWhiteToBlack s

/-- `C(LUT_BLACK_TO_BLACK)`. -/
def execLutBlackToBlack (s : State) : Host.Outcome State Fault Refusal := wireCommand .lutBlackToBlack s

/-- `C(PLL_CONTROL)`. -/
def execPllControl (s : State) : Host.Outcome State Fault Refusal := wireCommand .pllControl s

/-- `C(VCOM_AND_DATA_INTERVAL_SETTING)`. -/
def execVcomAndDataIntervalSetting (s : State) : Host.Outcome State Fault Refusal := wireCommand .vcomAndDataIntervalSetting s

/-- `C(RESOLUTION_SETTING)`. -/
def execResolutionSetting (s : State) : Host.Outcome State Fault Refusal := wireCommand .resolutionSetting s

/-- `C(VCM_DC_SETTING)`. -/
def execVcmDcSetting (s : State) : Host.Outcome State Fault Refusal := wireCommand .vcmDcSetting s

/-- `C(PARTIAL_WINDOW)`. -/
def execPartialWindow (s : State) : Host.Outcome State Fault Refusal := wireCommand .partialWindow s

/-- `C(PARTIAL_IN)`. -/
def execPartialIn (s : State) : Host.Outcome State Fault Refusal := wireCommand .partialIn s

/-- `C(PARTIAL_OUT)`. -/
def execPartialOut (s : State) : Host.Outcome State Fault Refusal := wireCommand .partialOut s

end Sys2Proof.Machine
end

