-- ==== Sys2Proof/Machine/Dispatch.lean ====
section
/-! DEFINITION. The dispatch: one arm for each constructor of `Instr`, each one call of its meaning. -/

namespace Sys2Proof.Machine

/-- The meaning of an instruction. -/
def exec (i : Instr) (s : State) : Host.Outcome State Fault Refusal :=
  match i with
  | .clear color bufa bufl => Sys2Proof.Machine.execClear color bufa bufl s
  | .drawPixel x y color bufa bufl => Sys2Proof.Machine.execDrawPixel x y color bufa bufl s
  | .drawLine x0 y0 x1 y1 color bufa bufl => Sys2Proof.Machine.execDrawLine x0 y0 x1 y1 color bufa bufl s
  | .drawHline x y w color bufa bufl => Sys2Proof.Machine.execDrawHline x y w color bufa bufl s
  | .drawVline x y l color bufa bufl => Sys2Proof.Machine.execDrawVline x y l color bufa bufl s
  | .drawRect x0 y0 x1 y1 color bufa bufl => Sys2Proof.Machine.execDrawRect x0 y0 x1 y1 color bufa bufl s
  | .drawFrect x0 y0 x1 y1 color bufa bufl => Sys2Proof.Machine.execDrawFrect x0 y0 x1 y1 color bufa bufl s
  | .drawCircle cx cy r color bufa bufl => Sys2Proof.Machine.execDrawCircle cx cy r color bufa bufl s
  | .drawFcircle cx cy r color bufa bufl => Sys2Proof.Machine.execDrawFcircle cx cy r color bufa bufl s
  | .drawString x0 y0 color bufa bufl txta txtl => Sys2Proof.Machine.execDrawString x0 y0 color bufa bufl txta txtl s
  | .reset => Sys2Proof.Machine.execReset s
  | .init => Sys2Proof.Machine.execInit s
  | .displayAndTransferFrame color bufa bufl => Sys2Proof.Machine.execDisplayAndTransferFrame color bufa bufl s
  | .setPartialWindow x y w l plane bufa bufl => Sys2Proof.Machine.execSetPartialWindow x y w l plane bufa bufl s
  | .displayFrame => Sys2Proof.Machine.execDisplayFrame s
  | .displayFrameQuick => Sys2Proof.Machine.execDisplayFrameQuick s
  | .clearFrame color => Sys2Proof.Machine.execClearFrame color s
  | .sleep => Sys2Proof.Machine.execSleep s
  | .waitUntilIdle => Sys2Proof.Machine.execWaitUntilIdle s
  | .panelSetting => Sys2Proof.Machine.execPanelSetting s
  | .powerSetting => Sys2Proof.Machine.execPowerSetting s
  | .powerOff => Sys2Proof.Machine.execPowerOff s
  | .powerOn => Sys2Proof.Machine.execPowerOn s
  | .boosterSoftStart => Sys2Proof.Machine.execBoosterSoftStart s
  | .deepSleep => Sys2Proof.Machine.execDeepSleep s
  | .dataStartTransmission1 => Sys2Proof.Machine.execDataStartTransmission1 s
  | .displayRefresh => Sys2Proof.Machine.execDisplayRefresh s
  | .dataStartTransmission2 => Sys2Proof.Machine.execDataStartTransmission2 s
  | .lutForVcom => Sys2Proof.Machine.execLutForVcom s
  | .lutWhiteToWhite => Sys2Proof.Machine.execLutWhiteToWhite s
  | .lutBlackToWhite => Sys2Proof.Machine.execLutBlackToWhite s
  | .lutWhiteToBlack => Sys2Proof.Machine.execLutWhiteToBlack s
  | .lutBlackToBlack => Sys2Proof.Machine.execLutBlackToBlack s
  | .pllControl => Sys2Proof.Machine.execPllControl s
  | .vcomAndDataIntervalSetting => Sys2Proof.Machine.execVcomAndDataIntervalSetting s
  | .resolutionSetting => Sys2Proof.Machine.execResolutionSetting s
  | .vcmDcSetting => Sys2Proof.Machine.execVcmDcSetting s
  | .partialWindow => Sys2Proof.Machine.execPartialWindow s
  | .partialIn => Sys2Proof.Machine.execPartialIn s
  | .partialOut => Sys2Proof.Machine.execPartialOut s

end Sys2Proof.Machine
end

