-- ==== Sys2Proof/Machine/Issue.lean ====
section
/-! DEFINITION. Where the machine's next instruction comes from: the host's side of the block (`Issue`, `ReadStatus`,
`MEM` reads and writes; spec/10_state.md rule R40, spec/20_memory.md rule R75) and the sequencer's micro-operation at
`USTEP` (spec/44_protocol_primitives.md rule R199). -/

namespace Sys2Proof.Machine

/-- `Issue(desc)` at an idle block: the bytes are decoded and the operation's meaning runs. An illegal descriptor takes
the fault `IllegalOp` (rules R97, R231); bytes that are no descriptor cannot be issued (rule R96). -/
def issueBytes (bytes : List Byte) (s : State) : Host.Outcome State Fault Refusal :=
  if bytes.length ≠ 24 then .refused .descriptorLength
  else
    match decode .desc bytes with
    | .ok (i, _) => exec i s
    | .error _ => .next (s.raise .illegalOp)

/-- The block's own step: the micro-operation at `USTEP` of the operation in progress (rule R199); a command frame is
the instruction of its name. An idle block does nothing until the host issues a descriptor (rule R41). -/
def blockStep (s : State) : Host.Outcome State Fault Refusal :=
  match s.op with
  | none => .next s
  | some _ =>
    match s.currentMicro with
    | none => .fault .noMicroOperation
    | some m =>
      match m.op with
      | .cmd n => exec (Instr.ofCmd n) s
      | .prim p => runPrim p s

/-- The range of `MEM` an operation in progress owns: its buffer (rules R40, R75). A rasterizer operation is never in
progress, it is one atomic step (rule R142). -/
def ownedRange : Option Instr → Option (Nat × Nat)
  | some (.displayAndTransferFrame _ bufa bufl) => some (bufa.toNat, bufl.toNat)
  | some (.setPartialWindow _ _ _ _ _ bufa bufl) => some (bufa.toNat, bufl.toNat)
  | _ => none

/-- The address lies in the buffer of the operation in progress. -/
def State.ownsAddr (s : State) (a : Nat) : Bool :=
  match ownedRange s.op with
  | some r => decide (r.1 ≤ a ∧ a < r.1 + r.2)
  | none => false

/-- A host access of `MEM`, allowed at an address of `MEM` that the operation in progress does not own (rules R35, R40,
R75). -/
def hostAccess (a : Nat) (next : State) (s : State) : Host.Outcome State Fault Refusal :=
  if s.cfg.memsz ≤ a then .fault (.noSuchAddress a)
  else if s.ownsAddr a then .refused (.rangeOwnedByOperation a)
  else .next next

/-- The host's next action was taken. -/
def State.popHost (s : State) : State := { s with host := s.host.tail }

/-- The host observed something. -/
def State.observe (s : State) (o : HostObs) : State := { s with obs := s.obs ++ [o] }

/-- One step of the machine: the host's next action when it is enabled, else the block's own step. `Issue` is enabled
only when the block is idle (rules R24, R40); until then the block goes on. -/
def machineStep (s : State) : Host.Outcome State Fault Refusal :=
  match s.host with
  | [] => blockStep s
  | .yield :: _ => blockStep s.popHost
  | .issue bytes :: _ => if s.op.isSome then blockStep s else issueBytes bytes s.popHost
  | .readStatus n :: _ => .next (s.popHost.observe (.status n (s.readStatus n)))
  | .readMem a :: _ => hostAccess a (s.popHost.observe (.byte a (s.mem.read a))) s
  | .writeMem a v :: _ => hostAccess a { s.popHost with mem := s.mem.write a v } s

/-- An operation whose micro-sequence sends the command (rule R101). -/
def carrierOf : CmdName → Instr
  | .panelSetting | .powerSetting | .boosterSoftStart | .powerOn | .pllControl => .init
  | .powerOff | .deepSleep | .vcmDcSetting | .vcomAndDataIntervalSetting => .sleep
  | .resolutionSetting | .dataStartTransmission1 | .dataStartTransmission2 => .clearFrame .white
  | .lutForVcom | .lutWhiteToWhite | .lutBlackToWhite | .lutWhiteToBlack | .lutBlackToBlack | .displayRefresh =>
    .displayFrame
  | .partialWindow | .partialIn | .partialOut => .setPartialWindow 0 0 8 1 .old 0 1

/-- The state with a descriptor as the host's next action and an idle block, so that the next step issues it. -/
def State.placeDescriptor (s : State) (bytes : List Byte) : State :=
  { s with host := .issue bytes :: s.host, op := none, ustep := 0, inWait := false }

/-- The state with an operation in progress whose micro-operation at `USTEP` is the command frame, and the block's step
next. -/
def State.placeCommand (s : State) (n : CmdName) : State :=
  { s with
    host := .yield :: s.host
    op := some (carrierOf n)
    ustep := (microSeq s.cfg (carrierOf n)).findIdx fun m => decide (m.op = .cmd n)
    inWait := false }

/-- The command name of a command frame's byte, by the default table (log entry 2). -/
def cmdOfByte (b : Byte) : Option CmdName := allCmdNames.find? fun n => CmdTable.byte {} n == b

/-- The state with a table word placed where the next step takes its instruction from (log entries 3, 10). -/
def State.placeTableWord (s : State) (nbits w : Nat) : State :=
  match bytesOfTableWord nbits w with
  | (.desc, bytes) => s.placeDescriptor bytes
  | (.wireCmd, bytes) =>
    match cmdOfByte (bytes.headD 0) with
    | some n => s.placeCommand n
    | none => s

end Sys2Proof.Machine
end

