-- ==== Sys2Proof/Safety.lean ====
section
/-! DEFINITION. The terms the claims use: the states a run can be in (`MachineInv`), the transcripts the spec writes for the
protocol operations, independent of the micro-sequences, the acceptance of an operation at `Issue`, the pixel sets of
the drawing operations, and the runs of a program with their outcomes. No step of the machine uses them. -/

namespace Sys2Proof.Machine

/-! Colours. -/

/-- The bit that stands for a colour in a buffer (rules R10, R68): `BLACK_BIT` for Black, the other bit for White. -/
def bitOf (cfg : Cfg) (color : Color) : Bool := if color = .black then cfg.blackBit else !cfg.blackBit

/-- The byte of eight pixels of a colour (rule R10). -/
def byteOf (cfg : Cfg) (color : Color) : Byte := if bitOf cfg color then 0xFF else 0x00

/-! Transcripts (spec/44_protocol_primitives.md, spec/45_protocol_operations.md). -/

/-- The four events of a frame whose transfer is answered `res` (rule R191). -/
def frameTrace (dc : Level) (b : Byte) (res : XferResult) : List Event :=
  [.pin .cs .low, .pin .dc dc, .xfer [b] res, .pin .cs .high]

/-- A command frame answered `Ok`. -/
def cTrace (cfg : Cfg) (n : CmdName) : List Event := frameTrace .low (cfg.cmd.byte n) .ok

/-- A run of data frames answered `Ok`. -/
def dTrace (bytes : List Byte) : List Event := bytes.flatMap fun b => frameTrace .high b .ok

/-- A 16-bit value as its high byte and its low byte (rule R69). -/
def hiLo (v : Nat) : List Byte := [BitVec.ofNat 8 (v / 256), BitVec.ofNat 8 v]

/-- The transcript of `ResetSeq` (rule R197). -/
def resetTrace (cfg : Cfg) : List Event :=
  [.pin .rst .low, .delay cfg.tRstLow, .pin .rst .high, .delay cfg.tRstHigh]

/-- The transcript of `SendResolution` (rule R202). -/
def resolutionTrace (cfg : Cfg) : List Event :=
  cTrace cfg .resolutionSetting ++ dTrace (hiLo cfg.width.toNat ++ hiLo cfg.height.toNat)

/-- The transcript of `LoadLut` with the table of a set (rule R198). -/
def lutTrace (cfg : Cfg) (t : LutTable) : List Event :=
  cTrace cfg .lutForVcom ++ dTrace t.vcom ++ cTrace cfg .lutWhiteToWhite ++ dTrace t.ww
    ++ cTrace cfg .lutBlackToWhite ++ dTrace t.bw ++ cTrace cfg .lutWhiteToBlack ++ dTrace t.wb
    ++ cTrace cfg .lutBlackToBlack ++ dTrace t.bb

/-- The frame that completes the loading of a LUT set (rule R198): the last byte of its BB table, answered `Ok`; the table's
command when the table is empty (log entry 11). -/
def lastLutFrame (cfg : Cfg) (t : LutTable) : List Event :=
  match t.bb.getLast? with
  | some b => frameTrace .high b .ok
  | none => cTrace cfg .lutBlackToBlack

/-- Where an operation completes the loading of a LUT set. -/
structure LutEnd where
  /-- `LUTSEL` after it -/
  sel : LutSel
  /-- `USTEP` of the micro-operation that completes it -/
  pos : Nat
  /-- that micro-operation's events when it is answered `Ok` -/
  frame : List Event
deriving DecidableEq, Repr

/-- The end of the loading of a LUT set that starts at micro-operation `start`: it has five commands and the bytes of the
five tables (rule R198). -/
def lutEndFrom (cfg : Cfg) (sel : LutSel) (t : LutTable) (start : Nat) : LutEnd where
  sel := sel
  pos := start + 4 + t.vcom.length + t.ww.length + t.bw.length + t.wb.length + t.bb.length
  frame := lastLutFrame cfg t

/-- Where an operation completes the loading of a LUT set, if it loads one. `DISPLAY_FRAME` and `DISPLAY_FRAME_QUICK` begin
with it (rules R216, R217); in `DISPLAY_AND_TRANSFER_FRAME` the resolution (5 frames), the interval setting, the two
planes and their delays stand before it (rule R212 lines 1 to 6). -/
def lutEnd (cfg : Cfg) : Instr → Option LutEnd
  | .displayFrame => some (lutEndFrom cfg .full cfg.lutFull 0)
  | .displayFrameQuick => some (lutEndFrom cfg .quick cfg.lutQuick 0)
  | .displayAndTransferFrame _ _ bufl =>
    some (lutEndFrom cfg .full cfg.lutFull (10 + cfg.cdiData.length + planeBytes cfg + bufl.toNat))
  | _ => none

/-- The transcript of a protocol operation when every transfer is answered `Ok` and every read of the busy pin `High`
(rules R197, R200, R201, R210, R212, R214, R216, R217, R218, R220), `mem` being the memory it reads. -/
def transcript (cfg : Cfg) (mem : Memory) : Instr → List Event
  | .reset => resetTrace cfg
  | .init =>
    resetTrace cfg ++ cTrace cfg .powerSetting ++ dTrace cfg.pwrData ++ cTrace cfg .boosterSoftStart
      ++ dTrace cfg.btstData ++ cTrace cfg .powerOn ++ [.busyRead .high] ++ cTrace cfg .panelSetting
      ++ dTrace cfg.psrData ++ cTrace cfg .pllControl ++ dTrace cfg.pllData
  | .displayAndTransferFrame color bufa bufl =>
    resolutionTrace cfg ++ cTrace cfg .vcomAndDataIntervalSetting ++ dTrace cfg.cdiData
      ++ cTrace cfg .dataStartTransmission1 ++ dTrace (List.replicate (planeBytes cfg) (byteOf cfg color))
      ++ [.delay cfg.tShort] ++ cTrace cfg .dataStartTransmission2
      ++ dTrace (mem.readRange bufa.toNat bufl.toNat) ++ [.delay cfg.tShort] ++ lutTrace cfg cfg.lutFull
      ++ cTrace cfg .displayRefresh ++ [.delay cfg.tDtf, .busyRead .high]
  | .setPartialWindow x y w l plane bufa bufl =>
    cTrace cfg .partialIn ++ cTrace cfg .partialWindow
      ++ dTrace (hiLo (x.toNat / 8 * 8) ++ hiLo (x.toNat / 8 * 8 + 8 * ceilDiv w.toNat 8 - 1)
          ++ hiLo y.toNat ++ hiLo (y.toNat + l.toNat - 1) ++ [cfg.ptlScan])
      ++ cTrace cfg (match plane with
          | .old => .dataStartTransmission1
          | .new => .dataStartTransmission2)
      ++ dTrace (mem.readRange bufa.toNat bufl.toNat) ++ cTrace cfg .partialOut
  | .displayFrame =>
    lutTrace cfg cfg.lutFull ++ cTrace cfg .displayRefresh ++ [.delay cfg.tFrame, .busyRead .high]
  | .displayFrameQuick =>
    lutTrace cfg cfg.lutQuick ++ cTrace cfg .displayRefresh ++ [.delay cfg.tQuick, .busyRead .high]
  | .clearFrame color =>
    resolutionTrace cfg
      ++ cTrace cfg .dataStartTransmission1 ++ dTrace (List.replicate (planeBytes cfg) (byteOf cfg color))
      ++ [.delay cfg.tShort]
      ++ cTrace cfg .dataStartTransmission2 ++ dTrace (List.replicate (planeBytes cfg) (byteOf cfg color))
      ++ [.delay cfg.tShort]
  | .sleep =>
    cTrace cfg .vcomAndDataIntervalSetting ++ dTrace cfg.sleepCdiData ++ cTrace cfg .vcmDcSetting
      ++ dTrace cfg.sleepVcmData ++ cTrace cfg .panelSetting ++ dTrace cfg.sleepPsrData ++ [.delay cfg.tSleepA]
      ++ cTrace cfg .powerSetting ++ dTrace [0x00, 0x00, 0x00, 0x00] ++ [.delay cfg.tSleepB]
      ++ cTrace cfg .powerOff ++ [.busyRead .high] ++ cTrace cfg .deepSleep ++ dTrace [0xA5]
  | .waitUntilIdle => [.busyRead .high]
  | _ => []

/-- `MODE` and `LUTSEL` after a protocol operation that finished `Ok` (rule R245), from their values at `Issue`. -/
def modeLutAfter (mode : Mode) (lutsel : LutSel) : Instr → Mode × LutSel
  | .reset => (.uninitialized, .none)
  | .init => (.active, .none)
  | .displayAndTransferFrame _ _ _ => (mode, .full)
  | .displayFrame => (mode, .full)
  | .displayFrameQuick => (mode, .quick)
  | .sleep => (.sleeping, .none)
  | _ => (mode, lutsel)

/-- The bytes of the `Xfer` events of a trace, in order. -/
def busBytes (evs : List Event) : List Byte :=
  evs.flatMap fun
    | .xfer bytes _ => bytes
    | _ => []

/-- The bytes of the `Xfer` events with the level last driven on `DC` (the `dc` given before the first), in order. -/
def framedBytes : Option Level → List Event → List (Option Level × Byte)
  | _, [] => []
  | _, .pin .dc lvl :: evs => framedBytes (some lvl) evs
  | dc, .xfer bytes _ :: evs => bytes.map (fun b => (dc, b)) ++ framedBytes dc evs
  | dc, _ :: evs => framedBytes dc evs

/-- How many reads of the busy pin a trace holds. -/
def busyReadCount (evs : List Event) : Nat :=
  evs.countP fun
    | .busyRead _ => true
    | _ => false

/-- The total delay a trace requests (rule R279): the sum of its `Delay` events. -/
def totalDelay (evs : List Event) : Nat :=
  (evs.map fun
    | .delay ms => ms
    | _ => 0).sum

/-- `PINS` after a trace (rule R32: they mirror the last `Pin` events). -/
def pinsAfter (p : Pins) (evs : List Event) : Pins :=
  evs.foldl (fun p e => match e with
    | .pin name lvl => p.drive name lvl
    | _ => p) p

/-! Acceptance at `Issue`. -/

/-- The nine operations of the protocol sequencer (rule R4). -/
def isProtocol : Instr → Bool
  | .reset | .init | .displayAndTransferFrame _ _ _ | .setPartialWindow _ _ _ _ _ _ _ | .displayFrame
  | .displayFrameQuick | .clearFrame _ | .sleep | .waitUntilIdle => true
  | _ => false

/-- The two operations accepted in every mode (rule R203). -/
def anyMode : Instr → Bool
  | .reset | .init => true
  | _ => false

/-- The window of rule R214 is not empty and lies on the panel. -/
def windowOk (cfg : Cfg) (x y w l : U16) : Prop :=
  0 < w.toNat ∧ 0 < l.toNat ∧ x.toNat / 8 * 8 + w.toNat ≤ cfg.width.toNat ∧ y.toNat + l.toNat ≤ cfg.height.toNat

/-- An idle block accepts the protocol operation (rules R199, R203, R212, R214). -/
def Accepts (s : State) : Instr → Prop
  | .reset => True
  | .init => True
  | .displayAndTransferFrame _ bufa bufl =>
    s.mode = .active ∧ bufl.toNat = planeBytes s.cfg ∧ bufa.toNat + bufl.toNat ≤ s.cfg.memsz
  | .setPartialWindow x y w l _ bufa bufl =>
    s.mode = .active ∧ windowOk s.cfg x y w l ∧ bufl.toNat = ceilDiv w.toNat 8 * l.toNat
      ∧ bufa.toNat + bufl.toNat ≤ s.cfg.memsz
  | .displayFrame => s.mode = .active
  | .displayFrameQuick => s.mode = .active
  | .clearFrame _ => s.mode = .active
  | .sleep => s.mode = .active
  | .waitUntilIdle => s.mode = .active
  | _ => False

/-- A rasterizer operation's buffer address, buffer length and, for `DRAW_STRING`, text range (rule R92). -/
def rasterRanges : Instr → Option (Nat × Nat × Option (Nat × Nat))
  | .clear _ u l => some (u.toNat, l.toNat, none)
  | .drawPixel _ _ _ u l => some (u.toNat, l.toNat, none)
  | .drawLine _ _ _ _ _ u l => some (u.toNat, l.toNat, none)
  | .drawHline _ _ _ _ u l => some (u.toNat, l.toNat, none)
  | .drawVline _ _ _ _ u l => some (u.toNat, l.toNat, none)
  | .drawRect _ _ _ _ _ u l => some (u.toNat, l.toNat, none)
  | .drawFrect _ _ _ _ _ u l => some (u.toNat, l.toNat, none)
  | .drawCircle _ _ _ _ u l => some (u.toNat, l.toNat, none)
  | .drawFcircle _ _ _ _ u l => some (u.toNat, l.toNat, none)
  | .drawString _ _ _ u l t n => some (u.toNat, l.toNat, some (t.toNat, n.toNat))
  | _ => none

/-- The state a fault found by a check before the operation leaves (rules R236, R243): nothing but the result, the
sticky flag and the count of finished operations. -/
def preCheckFault (s : State) (r : ResultCode) : State :=
  { s with result := r, errinfo := .zero, faulted := true, ustep := 0, opi := s.opi + 1, op := none, inWait := false }

/-- The state a run-time fault leaves (rules R28, R236). -/
def runTimeFault (s : State) (r : ResultCode) (info : ErrInfo) : State :=
  { s with
    mode := .uninitialized, lutsel := .none, result := r, errinfo := info, faulted := true, ustep := 0,
    opi := s.opi + 1, op := none, inWait := false }

/-- The state an operation that finished `Ok` leaves, besides its own effects (rules R142 step 5, R199 step 5). -/
def finished (s : State) : State :=
  { s with
    result := .ok, errinfo := .zero, ustep := 0, opi := s.opi + 1, op := none, inWait := false }

/-- `LUTSEL` after a micro-operation that completes the loading of a LUT set, if it does (rules R29, R198). -/
def selAfter (lutsel : LutSel) : Option LutSet → LutSel
  | some .full => .full
  | some .quick => .quick
  | none => lutsel

/-- The completion effect of an operation on `MODE` (rules R27, R210, R220). -/
def modeAtEnd (mode : Mode) : Instr → Mode
  | .init => .active
  | .sleep => .sleeping
  | _ => mode

/-- The completion effect of an operation on `LUTSEL` (rules R29, R220). -/
def lutselAtEnd (lutsel : LutSel) : Instr → LutSel
  | .sleep => .none
  | _ => lutsel

/-- The state a micro-operation of `i` leaves when it completes without fault, besides its own effects (rules R23, R198,
R199): `LUTSEL` if it is the last of a `LoadLut`, then the next micro-operation or the end of the operation with its
completion effects. -/
def microDone (s : State) (i : Instr) (loads : Option LutSet) : State :=
  if s.ustep + 1 < (microSeq s.cfg i).length then
    { s with lutsel := selAfter s.lutsel loads, ustep := s.ustep + 1, inWait := false }
  else finished { s with mode := modeAtEnd s.mode i, lutsel := lutselAtEnd (selAfter s.lutsel loads) i }

/-- The block is about to perform the micro-operation `m` of the operation `i`: the host has nothing pending, or it lets
the block take its step first (log entry 6). That step leaves `s.host.tail` pending. -/
def AtMicro (s : State) (i : Instr) (m : MicroStep) : Prop :=
  (s.host = [] ∨ ∃ rest, s.host = .yield :: rest) ∧ s.op = some i ∧ (microSeq s.cfg i)[s.ustep]? = some m

/-! Drawing. -/

/-- The memory `m'` is `m` with exactly the pixels of the set `pixels` that lie in the canvas drawn in `color` into the
buffer at `bufa` (rules R14, R149): every pixel of the canvas in the set has the colour, every other one is as before,
so is every pad bit, and every byte of memory that holds no pixel of the set. -/
def DrewExactly (cfg : Cfg) (bufa : Nat) (color : Color) (pixels : Int → Int → Prop) (m m' : Memory) : Prop :=
  (∀ x y : Nat, x < cfg.cw.toNat → y < cfg.ch.toNat →
    (pixels x y → getPixel cfg m' bufa x y = if color = .black then cfg.blackBit else !cfg.blackBit)
      ∧ (¬ pixels x y → getPixel cfg m' bufa x y = getPixel cfg m bufa x y))
    ∧ (∀ x y : Nat, cfg.cw.toNat ≤ x → x < 8 * stride cfg → y < cfg.ch.toNat →
      getPixel cfg m' bufa x y = getPixel cfg m bufa x y)
    ∧ (∀ a : Nat,
      (¬ ∃ x y : Nat, x < cfg.cw.toNat ∧ y < cfg.ch.toNat ∧ pixels x y ∧ a = bufa + byteIndex cfg x y) →
        m'.read a = m.read a)

/-- The pixel at row `r` and column `c` of a character's cell is drawn (rules R180, R183): its bit is 1 in the packed rows
of the code's glyph, or of `FALLBACK` when no glyph has the code. -/
def CellHas (cfg : Cfg) (ch : Byte) (r c : Nat) : Prop :=
  ∃ (rows : List Byte) (b : Byte),
    ((∃ g ∈ cfg.glyphs, g.code = ch ∧ rows = g.rows) ∨ ((∀ g ∈ cfg.glyphs, g.code ≠ ch) ∧ rows = cfg.fallback))
      ∧ rows[r * ((cfg.fw + 7) / 8) + c / 8]? = some b ∧ (b >>> (7 - c % 8)) &&& 1 = 1

/-- What a drawing operation with the colour and the canvas buffer does at an idle block (rules R142, R149). A buffer of
the wrong length, or one that does not lie inside `MEM`, takes its fault and changes nothing else. Otherwise the next
state is the one in which exactly the pixels of the set are drawn, the result is `Ok`, one more operation is finished
and nothing else is changed. -/
def DrawsExactly (i : Instr) (color : Color) (bufa bufl : U32) (pixels : State → Int → Int → Prop) (s : State) : Prop :=
  s.op = none →
    (bufl.toNat ≠ canvasBytes s.cfg → exec i s = .next (preCheckFault s .bufferSizeMismatch))
      ∧ (bufl.toNat = canvasBytes s.cfg → s.cfg.memsz < bufa.toNat + bufl.toNat →
          exec i s = .next (preCheckFault s .memRange))
      ∧ (bufl.toNat = canvasBytes s.cfg → bufa.toNat + bufl.toNat ≤ s.cfg.memsz → s.mem.wf = true →
          ∃ m' : Memory, exec i s = .next (finished { s with mem := m' })
            ∧ DrewExactly s.cfg bufa.toNat color (pixels s) s.mem m')

/-! The states of a run. -/

/-- The mode in which an operation can be in progress: `RESET` and `INIT` set `MODE <- Uninitialized` on entry, the
others run in `Active` only (rules R200, R203, R210). -/
def modeInProgress : Instr → Mode
  | .reset => .uninitialized
  | .init => .uninitialized
  | _ => .active

/-- What holds at power-on and after every step: the memory is in canonical form and inside `MEM`; an idle block has
`USTEP = 0`; an operation in progress is at one of its micro-operations, in its mode, with its buffer inside `MEM`; a
wait in progress is at a `W` and under the bound; no LUT counts as loaded outside `Active` (rule R245); a fault result
sets the sticky flag (rule R31); `ERRINFO` is not 0 exactly for a transfer error (rule R230). -/
def MachineInv (s : State) : Prop :=
  s.mem.wf = true ∧ s.mem.inside s.cfg.memsz = true
    ∧ (s.op = none → s.ustep = 0 ∧ s.inWait = false)
    ∧ (∀ i, s.op = some i → s.ustep < (microSeq s.cfg i).length ∧ s.mode = modeInProgress i
        ∧ ∀ r, ownedRange (some i) = some r → r.1 + r.2 ≤ s.cfg.memsz)
    ∧ (s.inWait = true → (∃ m, s.currentMicro = some m ∧ m.op = .prim .wait)
        ∧ pollLimitReached s.cfg.pollLimit s.polln = false)
    ∧ (s.mode ≠ .active → s.lutsel = .none)
    ∧ (s.result ≠ .ok → s.faulted = true)
    ∧ (s.result = .transferError ↔ s.errinfo ≠ .zero)

/-! Runs (spec/70_reset_and_hazards.md rule R280). -/

/-- `n` steps of the machine, stopping at the first stop: `Host.Core.run core` written for this state type
(Laws/Run.lean `core_run_eq`). -/
def runSteps : Nat → State → Host.Outcome State Fault Refusal
  | 0, s => .next s
  | n + 1, s =>
    match step s with
    | .next t => runSteps n t
    | .fault f => .fault f
    | .refused r => .refused r

/-- The end state of a run: the tuple of rule R280, `MEM`, the nine status registers and `TRACE`. -/
structure EndState where
  mem : Memory
  mode : Mode
  lutsel : LutSel
  result : ResultCode
  errinfo : ErrInfo
  faulted : Bool
  pins : Pins
  opi : Nat
  ustep : Nat
  polln : Nat
  trace : List Event
deriving DecidableEq, Repr

/-- The end state read from a state. -/
def State.endState (s : State) : EndState where
  mem := s.mem
  mode := s.mode
  lutsel := s.lutsel
  result := s.result
  errinfo := s.errinfo
  faulted := s.faulted
  pins := s.pins
  opi := s.opi
  ustep := s.ustep
  polln := s.polln
  trace := s.trace

/-- The last descriptor of the program has finished: the block is idle and the host issues nothing more. -/
def State.programDone (s : State) : Bool :=
  s.op.isNone && s.host.all fun
    | .issue _ => false
    | _ => true

/-- The step from `s` to `t` finished a descriptor with a fault. `RESULT` and `FAULTED` as the run found them play no
part. -/
def faultFinish (s t : State) : Bool := decide (t.opi ≠ s.opi ∧ t.result ≠ .ok)

/-- Where a run is: still going; ended with every descriptor finished `Ok`; ended at the first descriptor that finished
with a fault; or the machine has no step, because the host asked for what it cannot have (log entries 19, 20), which is
no outcome of rule R280. -/
inductive RunStatus where
  | going (s : State)
  | completed (e : EndState)
  | stoppedAtFault (e : EndState)
  | noStep
deriving DecidableEq, Repr

/-- Where the run from `s` is after at most `n` steps (log entry 26). It takes no step once it has ended. -/
def runStatus : Nat → State → RunStatus
  | 0, s => if s.programDone then .completed s.endState else .going s
  | n + 1, s =>
    if s.programDone then .completed s.endState
    else
      match step s with
      | .next t => if faultFinish s t then .stoppedAtFault t.endState else runStatus n t
      | .fault _ => .noStep
      | .refused _ => .noStep

/-- The run from `s` completed: every descriptor the host issues has finished, each with `RESULT = Ok`. -/
def Completes (s : State) : Prop := ∃ n e, runStatus n s = .completed e

/-- The run from `s` stopped at a fault: a descriptor has finished with `RESULT` other than `Ok`. -/
def StopsAtFault (s : State) : Prop := ∃ n e, runStatus n s = .stoppedAtFault e

/-- The run from `s` hangs: with no bound on the busy-wait it reaches a `W` that never reads idle, so that from some step
on the run is in that wait for ever. -/
def Hangs (s : State) : Prop :=
  s.cfg.pollLimit = none ∧ ∃ k, ∀ n, ∃ t, runStatus (k + n) s = .going t ∧ t.inWait = true

/-- The program, a finite list of descriptors (rule R24), as the host's whole list of actions. -/
def State.launch (s : State) (program : List (List Byte)) : State := { s with host := program.map .issue }

end Sys2Proof.Machine
end

