-- ==== Sys2Proof/Certificates/Slice0/Obligations.lean ====
section
/-! DEFINITION. The statements for the provers. Each says what the spec's numbered rules say of the machine; OBLIGATIONS.json
gives the rules. Every one holds for every configuration: the configuration is a field of the state. -/

open Sys2Proof Sys2Proof.Machine

/-! Encoding (spec/30_encoding.md). -/

/-- Five descriptors of spec/96_test_programs.md (P1 operation 4, P2 operation 2, P3 operations 3 and 1, P6 operation 3 with
its unused fields not zero) and the byte of `DISPLAY_REFRESH` decode to their instructions. -/
def Obligations.SpecProgramWordsDecode : Prop :=
  decode .desc [0x03, 0x01, 0x00, 0x08, 0x00, 0x05, 0x00, 0x0D, 0x00, 0x02, 0x00, 0x00, 0x00, 0x00, 0x00, 0x00, 0x00,
      0x10, 0x00, 0x00, 0x00, 0x00, 0x00, 0x00] = .ok (.drawLine 8 5 13 2 .black 0 16, [])
    ∧ decode .desc [0x0A, 0x01, 0x00, 0x02, 0x00, 0x00, 0x00, 0x00, 0x00, 0x00, 0x00, 0x00, 0x01, 0x00, 0x00, 0x00,
      0x00, 0x10, 0x00, 0x00, 0x02, 0x00, 0x00, 0x02] = .ok (.drawString 2 0 .black 0x100 16 0x200 2, [])
    ∧ decode .desc [0x13, 0x02, 0x00, 0x09, 0x00, 0x03, 0x00, 0x08, 0x00, 0x02, 0x00, 0x00, 0x03, 0x00, 0x00, 0x00,
      0x00, 0x02, 0x00, 0x00, 0x00, 0x00, 0x00, 0x00] = .ok (.setPartialWindow 9 3 8 2 .new 0x300 2, [])
    ∧ decode .desc [0x16, 0x00, 0x00, 0x00, 0x00, 0x00, 0x00, 0x00, 0x00, 0x00, 0x00, 0x00, 0x00, 0x00, 0x00, 0x00,
      0x00, 0x00, 0x00, 0x00, 0x00, 0x00, 0x00, 0x00] = .ok (.clearFrame .white, [])
    ∧ decode .desc [0x02, 0x03, 0x00, 0x03, 0x00, 0x01, 0xFF, 0xFF, 0x12, 0x34, 0x00, 0x00, 0x00, 0x00, 0x00, 0x00,
      0x00, 0x10, 0xDE, 0xAD, 0xBE, 0xEF, 0x00, 0x09] = .ok (.drawPixel 3 1 .black 0 16, [])
    ∧ decode .wireCmd [0x12] = .ok (.displayRefresh, [])

/-- Decode and encode agree: every instruction, with every operand at every value, is what its encoding decodes to. -/
def Obligations.DecodeEncodeRoundTrip : Prop :=
  ∀ (i : Instr) (rest : List Byte), decode i.format (encode i ++ rest) = .ok (i, rest)

/-- The `OPC` map with the fields each operation uses (rules R92, R95): whatever the other fields hold, they are ignored;
`RSV` is always checked. `flg` has the colour in bit 0 and the plane in bit 1. -/
def Obligations.DecodeUsesExactlyTheListedFields : Prop :=
  ∀ (flg : Byte) (a b c d : U16) (u l t : U32) (n : U16),
    let color : Color := if flg.getLsbD 0 then .black else .white
    let plane : Plane := if flg.getLsbD 1 then .new else .old
    let word (opc : Byte) : List Byte := descBytes opc flg a b c d u l t n
    (flg.toNat < 4 →
      decode .desc (word 0x01) = .ok (.clear color u l, [])
        ∧ decode .desc (word 0x02) = .ok (.drawPixel a b color u l, [])
        ∧ decode .desc (word 0x03) = .ok (.drawLine a b c d color u l, [])
        ∧ decode .desc (word 0x04) = .ok (.drawHline a b c color u l, [])
        ∧ decode .desc (word 0x05) = .ok (.drawVline a b c color u l, [])
        ∧ decode .desc (word 0x06) = .ok (.drawRect a b c d color u l, [])
        ∧ decode .desc (word 0x07) = .ok (.drawFrect a b c d color u l, [])
        ∧ decode .desc (word 0x08) = .ok (.drawCircle a b c color u l, [])
        ∧ decode .desc (word 0x09) = .ok (.drawFcircle a b c color u l, [])
        ∧ decode .desc (word 0x0A) = .ok (.drawString a b color u l t n, [])
        ∧ decode .desc (word 0x10) = .ok (.reset, [])
        ∧ decode .desc (word 0x11) = .ok (.init, [])
        ∧ decode .desc (word 0x12) = .ok (.displayAndTransferFrame color u l, [])
        ∧ decode .desc (word 0x13) = .ok (.setPartialWindow a b c d plane u l, [])
        ∧ decode .desc (word 0x14) = .ok (.displayFrame, [])
        ∧ decode .desc (word 0x15) = .ok (.displayFrameQuick, [])
        ∧ decode .desc (word 0x16) = .ok (.clearFrame color, [])
        ∧ decode .desc (word 0x17) = .ok (.sleep, [])
        ∧ decode .desc (word 0x18) = .ok (.waitUntilIdle, []))
      ∧ (4 ≤ flg.toNat → ∀ opc : Byte, decode .desc (word opc) = .error .reservedBits)

/-- Decode is total on any 24 bytes (rules R96, R97): an operation exactly for a well-formed descriptor, one of the two
illegal verdicts for any other. Fewer bytes are no descriptor, and an idle block's step refuses to issue them. -/
def Obligations.DecodeVerdictOnAnyBytes : Prop :=
  ∀ bytes : List Byte,
    (bytes.length = 24 → descWellFormed bytes = true →
          ∃ i, decode .desc bytes = .ok (i, []) ∧ i.format = .desc)
      ∧ (bytes.length = 24 → descWellFormed bytes = false →
          decode .desc bytes = .error .unassignedOpc ∨ decode .desc bytes = .error .reservedBits)
      ∧ (bytes.length < 24 → decode .desc bytes = .error .truncated
          ∧ ∀ (s : State) (rest : List HostAction), s.op = none → s.host = .issue bytes :: rest →
            step s = .refused .descriptorLength)

/-! The step (spec/10_state.md rules R24, R40; spec/44_protocol_primitives.md rule R199). -/

/-- A step runs the decoded instruction: at an idle block, when the host's next action issues bytes that decode to `i`,
the step is `exec` of `i` at the state with that action taken. -/
def Obligations.StepRunsTheIssuedOperation : Prop :=
  ∀ (s : State) (bytes : List Byte) (rest : List HostAction) (i : Instr),
    s.op = none → s.host = .issue bytes :: rest → decode .desc bytes = .ok (i, []) →
      step s = exec i { s with host := rest }

/-- A step runs the command frame at `USTEP`: when the micro-operation of the operation in progress is `C(name)`, the step
is `exec` of that command's instruction. That the host may let the block go first by an action `yield`, which the step
takes, is the model's choice (log entry 6). -/
def Obligations.StepRunsTheCommandFrame : Prop :=
  ∀ (s : State) (i : Instr) (m : MicroStep) (n : CmdName), AtMicro s i m → m.op = .cmd n →
    step s = exec (Instr.ofCmd n) { s with host := s.host.tail }

/-- The block accepts no descriptor while an operation is in progress: an `Issue` that is pending stays pending, and the
step is the one the block makes with nothing pending. -/
def Obligations.IssueWaitsWhileAnOperationIsInProgress : Prop :=
  ∀ (s t : State) (bytes : List Byte) (rest : List HostAction),
    s.op ≠ none → s.host = .issue bytes :: rest → step s = .next t →
      t.host = s.host ∧ step { s with host := [] } = .next { t with host := [] }

/-- An idle block with nothing issued does nothing (rule R41). The second clause is the model's choice (log entry 6): where
the host lets the block go first by the action `yield`, the step takes that action and does nothing else. -/
def Obligations.IdleBlockDoesNothing : Prop :=
  ∀ s : State, s.op = none →
    (s.host = [] → step s = .next s) ∧ ∀ rest, s.host = .yield :: rest → step s = .next { s with host := rest }

/-- `ReadStatus(n)` is enabled always, gives the register's value as rule R25 codes it, and changes nothing else. -/
def Obligations.ReadStatusObservesTheRegister : Prop :=
  ∀ (s : State) (n : StatusReg) (rest : List HostAction), s.host = .readStatus n :: rest →
    ∃ v : StatusValue, step s = .next { s with host := rest, obs := s.obs ++ [.status n v] }
      ∧ (n = .mode → v = .bits2 (match s.mode with
          | .uninitialized => 0
          | .active => 1
          | .sleeping => 2))
      ∧ (n = .lutsel → v = .bits2 (match s.lutsel with
          | .none => 0
          | .full => 1
          | .quick => 2))
      ∧ (n = .result → v = .bits8 (match s.result with
          | .ok => 0
          | .transferError => 1
          | .bufferSizeMismatch => 2
          | .deviceNotResponding => 3
          | .notActive => 4
          | .windowError => 5
          | .illegalOp => 6
          | .memRange => 7))
      ∧ (n = .errinfo → v = .errInfo s.errinfo) ∧ (n = .faulted → v = .bit s.faulted)
      ∧ (n = .pins → v = .pinLevels s.pins) ∧ (n = .opi → v = .count s.opi)
      ∧ (n = .ustep → v = .count s.ustep) ∧ (n = .polln → v = .count s.polln)

/-- The host writes a byte of `MEM`: outside the buffer of the operation in progress it changes exactly that byte; inside
it the model has no such step (rule R75), and outside `MEM` there is no such address. -/
def Obligations.HostWritesOutsideTheOwnedBufferOnly : Prop :=
  ∀ (s : State) (a : Nat) (v : Byte) (rest : List HostAction), s.host = .writeMem a v :: rest → s.mem.wf = true →
    (s.cfg.memsz ≤ a → step s = .fault (.noSuchAddress a))
      ∧ (a < s.cfg.memsz → (∃ i u l, s.op = some i ∧ ownedRange (some i) = some (u, l) ∧ u ≤ a ∧ a < u + l) →
          step s = .refused (.rangeOwnedByOperation a))
      ∧ (a < s.cfg.memsz → (∀ i u l, s.op = some i → ownedRange (some i) = some (u, l) → a < u ∨ u + l ≤ a) →
          ∃ m' : Memory, step s = .next { s with host := rest, mem := m' } ∧ m'.read a = v
            ∧ ∀ b, b ≠ a → m'.read b = s.mem.read b)

/-- An illegal descriptor takes `IllegalOp` (rules R97, R231): whatever the mode, nothing but the result, the sticky flag
and the count of finished operations changes. -/
def Obligations.IllegalDescriptorTakesIllegalOp : Prop :=
  ∀ (s : State) (bytes : List Byte) (rest : List HostAction),
    s.op = none → s.host = .issue bytes :: rest → bytes.length = 24 → descWellFormed bytes = false →
      step s = .next (preCheckFault { s with host := rest } .illegalOp)

/-! The rasterizer (spec/41_raster_pixel_line.md, spec/42_raster_shapes.md, spec/43_raster_text.md). -/

/-- The checks of a rasterizer operation, in order, in every mode (rules R142, R241): the length, then the buffer range,
then the text range; past them the operation finishes `Ok`. -/
def Obligations.RasterOperationChecksInOrder : Prop :=
  ∀ (i : Instr) (s : State) (u l : Nat) (text : Option (Nat × Nat)),
    rasterRanges i = some (u, l, text) → s.op = none →
      (l ≠ canvasBytes s.cfg → exec i s = .next (preCheckFault s .bufferSizeMismatch))
        ∧ (l = canvasBytes s.cfg → s.cfg.memsz < u + l → exec i s = .next (preCheckFault s .memRange))
        ∧ (l = canvasBytes s.cfg → u + l ≤ s.cfg.memsz → (∃ r, text = some r ∧ s.cfg.memsz < r.1 + r.2) →
            exec i s = .next (preCheckFault s .memRange))
        ∧ (l = canvasBytes s.cfg → u + l ≤ s.cfg.memsz → (∀ r, text = some r → r.1 + r.2 ≤ s.cfg.memsz) →
            ∃ m' : Memory, exec i s = .next (finished { s with mem := m' }))

/-- The frame of every rasterizer operation (rules R21, R63): it writes no byte outside its buffer and no register but
`RESULT`, `ERRINFO`, `FAULTED`, `OPI`. -/
def Obligations.RasterOperationFrame : Prop :=
  ∀ (i : Instr) (s t : State) (u l : Nat) (text : Option (Nat × Nat)),
    rasterRanges i = some (u, l, text) → s.ustep = 0 → s.inWait = false → exec i s = .next t →
      t = { s with
            mem := t.mem, result := t.result, errinfo := .zero, faulted := t.faulted, opi := s.opi + 1 }
        ∧ ∀ a, a < u ∨ u + l ≤ a → t.mem.read a = s.mem.read a

/-- `CLEAR` (rules R10, R140): its faults change nothing else; past them every byte of the buffer is the colour's byte, pad
bits included, and every other byte and the rest of the state are as before. Black is eight bits `BLACK_BIT`, White
eight of the other bit. -/
def Obligations.ClearFillsTheBuffer : Prop :=
  ∀ (color : Color) (u l : U32) (s : State),
    s.op = none →
      (l.toNat ≠ canvasBytes s.cfg → exec (.clear color u l) s = .next (preCheckFault s .bufferSizeMismatch))
        ∧ (l.toNat = canvasBytes s.cfg → s.cfg.memsz < u.toNat + l.toNat →
            exec (.clear color u l) s = .next (preCheckFault s .memRange))
        ∧ (l.toNat = canvasBytes s.cfg → u.toNat + l.toNat ≤ s.cfg.memsz → s.mem.wf = true →
            ∃ m' : Memory, exec (.clear color u l) s = .next (finished { s with mem := m' })
              ∧ (∀ j, j < l.toNat → m'.read (u.toNat + j) = match color with
                  | .black => if s.cfg.blackBit then 0xFF else 0x00
                  | .white => if s.cfg.blackBit then 0x00 else 0xFF)
              ∧ ∀ a, a < u.toNat ∨ u.toNat + l.toNat ≤ a → m'.read a = s.mem.read a)

/-- `DRAW_PIXEL` (rule R141): the one point, if it lies in the canvas. -/
def Obligations.DrawPixelSetsOnePixel : Prop :=
  ∀ (x y : U16) (color : Color) (u l : U32) (s : State),
    DrawsExactly (.drawPixel x y color u l) color u l (fun _ X Y => X = x.toNat ∧ Y = y.toNat) s

/-- `DRAW_HLINE` (rule R145): the pixels `x .. x+w-1` of the row. -/
def Obligations.DrawHlineDrawsTheRowSegment : Prop :=
  ∀ (x y w : U16) (color : Color) (u l : U32) (s : State),
    DrawsExactly (.drawHline x y w color u l) color u l
      (fun _ X Y => Y = y.toNat ∧ (x.toNat : Int) ≤ X ∧ X < x.toNat + w.toNat) s

/-- `DRAW_VLINE` (rule R146): the pixels `y .. y+l-1` of the column. -/
def Obligations.DrawVlineDrawsTheColumnSegment : Prop :=
  ∀ (x y n : U16) (color : Color) (u l : U32) (s : State),
    DrawsExactly (.drawVline x y n color u l) color u l
      (fun _ X Y => X = x.toNat ∧ (y.toNat : Int) ≤ Y ∧ Y < y.toNat + n.toNat) s

/-- `DRAW_RECT` (rule R160): the boundary of the box; nothing when a corner is reversed (rule R163). -/
def Obligations.DrawRectDrawsTheBoundary : Prop :=
  ∀ (x0 y0 x1 y1 : U16) (color : Color) (u l : U32) (s : State),
    DrawsExactly (.drawRect x0 y0 x1 y1 color u l) color u l
      (fun _ X Y => (x0.toNat : Int) ≤ X ∧ X ≤ x1.toNat ∧ (y0.toNat : Int) ≤ Y ∧ Y ≤ y1.toNat
        ∧ (X = x0.toNat ∨ X = x1.toNat ∨ Y = y0.toNat ∨ Y = y1.toNat)) s

/-- `DRAW_FRECT` (rule R162): exactly the pixels of the box, both ends inclusive. -/
def Obligations.DrawFrectDrawsTheBox : Prop :=
  ∀ (x0 y0 x1 y1 : U16) (color : Color) (u l : U32) (s : State),
    DrawsExactly (.drawFrect x0 y0 x1 y1 color u l) color u l
      (fun _ X Y => (x0.toNat : Int) ≤ X ∧ X ≤ x1.toNat ∧ (y0.toNat : Int) ≤ Y ∧ Y ≤ y1.toNat) s

/-- Reversed corners draw nothing, outline and filled alike (rule R163): the memory is the same, byte for byte. -/
def Obligations.ReversedCornersDrawNothing : Prop :=
  ∀ (x0 y0 x1 y1 : U16) (color : Color) (u l : U32) (s : State),
    s.op = none → l.toNat = canvasBytes s.cfg → u.toNat + l.toNat ≤ s.cfg.memsz →
      x1.toNat < x0.toNat ∨ y1.toNat < y0.toNat →
        exec (.drawRect x0 y0 x1 y1 color u l) s = .next (finished s)
          ∧ exec (.drawFrect x0 y0 x1 y1 color u l) s = .next (finished s)

/-- The outline and the filled box (rule R164): the outline's points are points of the box and never of its strict
interior; the two sets are equal when the box is at most two pixels wide or high. -/
def Obligations.OutlineLiesOnTheFilledBox : Prop :=
  ∀ x0 y0 x1 y1 : U16,
    (∀ p, p ∈ rectPoints x0 y0 x1 y1 → p ∈ frectPoints x0 y0 x1 y1)
      ∧ (∀ p : Point, (x0.toNat : Int) < p.1 → p.1 < x1.toNat → (y0.toNat : Int) < p.2 → p.2 < y1.toNat →
          p ∉ rectPoints x0 y0 x1 y1)
      ∧ ((x1.toNat : Int) - x0.toNat ≤ 1 ∨ (y1.toNat : Int) - y0.toNat ≤ 1 →
          ∀ p, p ∈ frectPoints x0 y0 x1 y1 → p ∈ rectPoints x0 y0 x1 y1)

/-- `DRAW_LINE` (rule R143) draws exactly the points of its walk. -/
def Obligations.DrawLineDrawsItsWalk : Prop :=
  ∀ (x0 y0 x1 y1 : U16) (color : Color) (u l : U32) (s : State),
    DrawsExactly (.drawLine x0 y0 x1 y1 color u l) color u l (fun _ X Y => (X, Y) ∈ linePoints x0 y0 x1 y1) s

/-- The walk of rule R143: `max(dx, -dy) + 1` distinct points, the first and the last the endpoints in canonical order,
each next point within 1 of the one before in each coordinate and exactly 1 away in the major axis. Point number `k` is
`k` steps along the major axis, and in the other axis the grid point nearest to the ideal line; of two equally near it is
the one farther from the first endpoint, which is what the two tests of `e2` in rule R143 choose. So the whole list is
determined. -/
def Obligations.LineWalkJoinsItsEndpoints : Prop :=
  ∀ x0 y0 x1 y1 : U16,
    let first : Point := if x1.toNat < x0.toNat ∨ (x0.toNat = x1.toNat ∧ y1.toNat < y0.toNat) then
      (x1.toNat, y1.toNat) else (x0.toNat, y0.toNat)
    let last : Point := if x1.toNat < x0.toNat ∨ (x0.toNat = x1.toNat ∧ y1.toNat < y0.toNat) then
      (x0.toNat, y0.toNat) else (x1.toNat, y1.toNat)
    let ps := linePoints x0 y0 x1 y1
    let dx : Int := last.1 - first.1
    let ady : Int := (last.2 - first.2).natAbs
    ps.length = max ((x1.toNat : Int) - x0.toNat).natAbs ((y1.toNat : Int) - y0.toNat).natAbs + 1
      ∧ ps.Nodup ∧ ps.head? = some first ∧ ps.getLast? = some last
      ∧ (∀ k p q, ps[k]? = some p → ps[k + 1]? = some q →
          (q.1 - p.1).natAbs ≤ 1 ∧ (q.2 - p.2).natAbs ≤ 1
            ∧ (((y1.toNat : Int) - y0.toNat).natAbs ≤ ((x1.toNat : Int) - x0.toNat).natAbs → (q.1 - p.1).natAbs = 1)
            ∧ (((x1.toNat : Int) - x0.toNat).natAbs ≤ ((y1.toNat : Int) - y0.toNat).natAbs → (q.2 - p.2).natAbs = 1))
      ∧ ∀ (k : Nat) (p : Point), ps[k]? = some p →
          let i : Int := p.1 - first.1
          let j : Int := (p.2 - first.2).natAbs
          0 ≤ i ∧ 0 ≤ (p.2 - first.2) * (last.2 - first.2)
            ∧ (ady ≤ dx → 0 < dx → i = k ∧ -dx < 2 * (j * dx - k * ady) ∧ 2 * (j * dx - k * ady) ≤ dx)
            ∧ (dx ≤ ady → 0 < ady → j = k ∧ -ady < 2 * (i * ady - k * dx) ∧ 2 * (i * ady - k * dx) ≤ ady)

/-- Line symmetry (rule R144): the two directions give the same sequence of `Plot` calls, and the same operation. -/
def Obligations.LineIsTheSameInBothDirections : Prop :=
  ∀ x0 y0 x1 y1 : U16,
    linePoints x0 y0 x1 y1 = linePoints x1 y1 x0 y0
      ∧ ∀ (color : Color) (u l : U32) (s : State),
          exec (.drawLine x0 y0 x1 y1 color u l) s = exec (.drawLine x1 y1 x0 y0 color u l) s

/-- `DRAW_HLINE` and `DRAW_VLINE` are lines (rule R147), for a length of at least 1 whose end is encodable; with length 0
they draw nothing. -/
def Obligations.AxisLinesEqualDrawLine : Prop :=
  ∀ (x y n : U16) (color : Color) (u l : U32) (s : State),
    (1 ≤ n.toNat → x.toNat + n.toNat - 1 ≤ 65535 →
        exec (.drawHline x y n color u l) s = exec (.drawLine x y (x + n - 1) y color u l) s)
      ∧ (1 ≤ n.toNat → y.toNat + n.toNat - 1 ≤ 65535 →
        exec (.drawVline x y n color u l) s = exec (.drawLine x y x (y + n - 1) color u l) s)
      ∧ (s.op = none → l.toNat = canvasBytes s.cfg → u.toNat + l.toNat ≤ s.cfg.memsz →
        exec (.drawHline x y 0 color u l) s = .next (finished s)
          ∧ exec (.drawVline x y 0 color u l) s = .next (finished s))

/-- `DRAW_CIRCLE` (rule R166) draws exactly the points of its walk. -/
def Obligations.DrawCircleDrawsItsWalk : Prop :=
  ∀ (cx cy r : U16) (color : Color) (u l : U32) (s : State),
    DrawsExactly (.drawCircle cx cy r color u l) color u l (fun _ X Y => (X, Y) ∈ circlePoints cx cy r) s

/-- Properties (a) and (d) of the circle's pixel set (rule R167): it is invariant under rotation by 90 degrees about the
centre, it lies in the square of side `2r + 1`, and it holds the four axis points. -/
def Obligations.CircleIsSymmetricAndBounded : Prop :=
  ∀ cx cy r : U16,
    (∀ a b : Int, ((cx.toNat : Int) + a, (cy.toNat : Int) + b) ∈ circlePoints cx cy r ↔
        ((cx.toNat : Int) - b, (cy.toNat : Int) + a) ∈ circlePoints cx cy r)
      ∧ (∀ a b : Int, ((cx.toNat : Int) + a, (cy.toNat : Int) + b) ∈ circlePoints cx cy r →
        a.natAbs ≤ r.toNat ∧ b.natAbs ≤ r.toNat)
      ∧ ((cx.toNat : Int) + r.toNat, (cy.toNat : Int)) ∈ circlePoints cx cy r
      ∧ ((cx.toNat : Int) - r.toNat, (cy.toNat : Int)) ∈ circlePoints cx cy r
      ∧ ((cx.toNat : Int), (cy.toNat : Int) + r.toNat) ∈ circlePoints cx cy r
      ∧ ((cx.toNat : Int), (cy.toNat : Int) - r.toNat) ∈ circlePoints cx cy r

/-- The octant of the circle (rules R166, R167 (b)): it starts at `(0, r)`; each next offset is one column on, on the same
row when the midpoint `(x + 1, y - 1/2)` lies inside the circle, `(x + 1)^2 + y^2 - y < r^2`, and one row down otherwise,
which is the sign of `d`; every offset has `0 <= x <= y`, and the one that would follow the last has `x > y`, so that the
octant ends at the diagonal with `x = y` or `x + 1 = y`. The points of the circle are the eight reflections of the
octant's offsets and nothing else. -/
def Obligations.CircleOctantReachesTheDiagonal : Prop :=
  ∀ r : U16,
    let nextRow (p : Int × Int) : Int :=
      if (p.1 + 1) ^ 2 + p.2 ^ 2 - p.2 < (r.toNat : Int) ^ 2 then p.2 else p.2 - 1
    (octant r.toNat).head? = some (0, (r.toNat : Int))
      ∧ (∀ k p q, (octant r.toNat)[k]? = some p → (octant r.toNat)[k + 1]? = some q →
          q.1 = p.1 + 1 ∧ q.2 = nextRow p)
      ∧ (∀ p ∈ octant r.toNat, 0 ≤ p.1 ∧ p.1 ≤ p.2)
      ∧ (∀ p, (octant r.toNat).getLast? = some p → nextRow p < p.1 + 1 ∧ p.2 ≤ p.1 + 1)
      ∧ ∀ (cx cy : U16) (X Y : Int), (X, Y) ∈ circlePoints cx cy r ↔
          ∃ o ∈ octant r.toNat,
            (((X - cx.toNat).natAbs : Int) = o.1 ∧ ((Y - cy.toNat).natAbs : Int) = o.2)
              ∨ (((X - cx.toNat).natAbs : Int) = o.2 ∧ ((Y - cy.toNat).natAbs : Int) = o.1)

/-- `DRAW_FCIRCLE` (rule R168): a pixel is drawn exactly when it lies, on its row, between two points of the circle's
outline (the leftmost and the rightmost among them). -/
def Obligations.DrawFcircleFillsTheOutlineRowByRow : Prop :=
  ∀ (cx cy r : U16) (color : Color) (u l : U32) (s : State),
    DrawsExactly (.drawFcircle cx cy r color u l) color u l
      (fun _ X Y => ∃ X1 X2 : Int, (X1, Y) ∈ circlePoints cx cy r ∧ (X2, Y) ∈ circlePoints cx cy r
        ∧ X1 ≤ X ∧ X ≤ X2) s

/-- `DRAW_STRING` (rules R180 to R183): the 1-bits of the cells of the text's characters, left to right, `FW` pixels apart,
and nothing else; a character's cell is the packed rows of its glyph, or the fallback's when no glyph has its code; the
text is the one in memory before the operation. No code has two glyphs. A text that does not lie inside `MEM` takes
`MemRange`. -/
def Obligations.DrawStringDrawsItsCells : Prop :=
  ∀ (x0 y0 : U16) (color : Color) (u l ta : U32) (tl : U16) (s : State),
    ((s.cfg.glyphs.map Glyph.code).Nodup → ta.toNat + tl.toNat ≤ s.cfg.memsz →
        DrawsExactly (.drawString x0 y0 color u l ta tl) color u l
          (fun s X Y => ∃ i r c : Nat, i < tl.toNat ∧ r < s.cfg.fh ∧ c < s.cfg.fw
            ∧ CellHas s.cfg (s.mem.read (ta.toNat + i)) r c
            ∧ X = x0.toNat + i * s.cfg.fw + c ∧ Y = y0.toNat + r) s)
      ∧ (s.cfg.memsz < ta.toNat + tl.toNat → s.op = none → l.toNat = canvasBytes s.cfg →
          u.toNat + l.toNat ≤ s.cfg.memsz →
            exec (.drawString x0 y0 color u l ta tl) s = .next (preCheckFault s .memRange))

/-! The protocol sequencer at `Issue` (spec/44_protocol_primitives.md rules R199, R203). -/

/-- The mode gate (rule R203): `RESET` and `INIT` are accepted in every mode, and set `MODE <- Uninitialized`, `LUTSEL <-
None` on entry; every other protocol operation takes `NotActive` unless the mode is `Active`, whatever its operands. -/
def Obligations.ModeGate : Prop :=
  ∀ (i : Instr) (s : State), s.op = none → isProtocol i = true →
    (i = .reset ∨ i = .init → exec i s = .next { s with
        mode := .uninitialized, lutsel := .none, op := some i, ustep := 0, inWait := false })
      ∧ (i ≠ .reset → i ≠ .init → s.mode ≠ .active → exec i s = .next (preCheckFault s .notActive))

/-- The five operations without operand checks, in `Active`: the operation is in progress at its first micro-operation,
and nothing else is changed. -/
def Obligations.ActiveProtocolOperationStarts : Prop :=
  ∀ (s : State) (color : Color), s.op = none → s.mode = .active →
    exec .displayFrame s = .next { s with op := some .displayFrame, ustep := 0, inWait := false }
      ∧ exec .displayFrameQuick s = .next { s with op := some .displayFrameQuick, ustep := 0, inWait := false }
      ∧ exec (.clearFrame color) s = .next { s with op := some (.clearFrame color), ustep := 0, inWait := false }
      ∧ exec .sleep s = .next { s with op := some .sleep, ustep := 0, inWait := false }
      ∧ exec .waitUntilIdle s = .next { s with op := some .waitUntilIdle, ustep := 0, inWait := false }

/-- `DISPLAY_AND_TRANSFER_FRAME` in `Active` (rules R199, R212): the length, then the range, then it is in progress. -/
def Obligations.TransferFrameChecksInOrder : Prop :=
  ∀ (color : Color) (u l : U32) (s : State), s.op = none → s.mode = .active →
    (l.toNat ≠ planeBytes s.cfg →
        exec (.displayAndTransferFrame color u l) s = .next (preCheckFault s .bufferSizeMismatch))
      ∧ (l.toNat = planeBytes s.cfg → s.cfg.memsz < u.toNat + l.toNat →
        exec (.displayAndTransferFrame color u l) s = .next (preCheckFault s .memRange))
      ∧ (l.toNat = planeBytes s.cfg → u.toNat + l.toNat ≤ s.cfg.memsz →
        exec (.displayAndTransferFrame color u l) s
          = .next { s with op := some (.displayAndTransferFrame color u l), ustep := 0, inWait := false })

/-- `SET_PARTIAL_WINDOW` (rules R214, R238): the mode, then the window, then the length, then the range, then it is in
progress. -/
def Obligations.PartialWindowChecksInOrder : Prop :=
  ∀ (x y w n : U16) (plane : Plane) (u l : U32) (s : State), s.op = none →
    let bad : Prop := w.toNat = 0 ∨ n.toNat = 0 ∨ s.cfg.width.toNat < x.toNat - x.toNat % 8 + w.toNat
      ∨ s.cfg.height.toNat < y.toNat + n.toNat
    (s.mode ≠ .active → exec (.setPartialWindow x y w n plane u l) s = .next (preCheckFault s .notActive))
      ∧ (s.mode = .active → bad →
        exec (.setPartialWindow x y w n plane u l) s = .next (preCheckFault s .windowError))
      ∧ (s.mode = .active → ¬ bad → l.toNat ≠ ceilDiv w.toNat 8 * n.toNat →
        exec (.setPartialWindow x y w n plane u l) s = .next (preCheckFault s .bufferSizeMismatch))
      ∧ (s.mode = .active → ¬ bad → l.toNat = ceilDiv w.toNat 8 * n.toNat → s.cfg.memsz < u.toNat + l.toNat →
        exec (.setPartialWindow x y w n plane u l) s = .next (preCheckFault s .memRange))
      ∧ (s.mode = .active → ¬ bad → l.toNat = ceilDiv w.toNat 8 * n.toNat → u.toNat + l.toNat ≤ s.cfg.memsz →
        exec (.setPartialWindow x y w n plane u l) s
          = .next { s with op := some (.setPartialWindow x y w n plane u l), ustep := 0, inWait := false })

/-- The window arithmetic (rule R215). -/
def Obligations.WindowArithmetic : Prop :=
  ∀ (cfg : Cfg) (x y w n : U16), 0 < w.toNat → 0 < n.toNat →
    windowXs x = x.toNat - x.toNat % 8
      ∧ windowXe x w = (windowXs x + w.toNat - 1) ||| 7
      ∧ windowXe x w = windowXs x + 8 * ceilDiv w.toNat 8 - 1
      ∧ (windowXe x w - windowXs x + 1) / 8 = ceilDiv w.toNat 8
      ∧ windowYs y = y.toNat ∧ windowYe y n = y.toNat + n.toNat - 1
      ∧ (cfg.width.toNat % 8 = 0 → windowXs x + w.toNat ≤ cfg.width.toNat → y.toNat + n.toNat ≤ cfg.height.toNat →
          windowXe x w ≤ cfg.width.toNat - 1 ∧ windowYe y n ≤ cfg.height.toNat - 1
            ∧ windowXe x w < 2 ^ 16 ∧ windowYe y n < 2 ^ 16)

/-! The micro-operations (spec/44_protocol_primitives.md section 1). -/

/-- `P(pin, lvl)` and `T(ms)` (rules R190, R195): the event, and for a pin its level; they cannot fault. A `yield` of
the host that the step takes is the model's choice (log entry 6). -/
def Obligations.PinAndDelayMicroOperations : Prop :=
  ∀ (s : State) (i : Instr) (m : MicroStep), AtMicro s i m →
    (∀ p lvl, m.op = .prim (.pin p lvl) →
        step s = .next (microDone
          { s with host := s.host.tail, trace := s.trace ++ [.pin p lvl], pins := s.pins.drive p lvl } i m.loads))
      ∧ ∀ ms, m.op = .prim (.delay ms) →
        step s = .next (microDone { s with host := s.host.tail, trace := s.trace ++ [.delay ms] } i m.loads)

/-- The 21 command frames (rules R191, R192): at the micro-operation `C(name)`, `exec` of the name's instruction gives the
next state in which the four events of its frame are
in the trace, chip-select is high, data/command is low and the answer is used up. On `Ok` the sequencer is at its next
micro-operation or the operation has ended, and nothing else is changed; on `Err(e)` the operation stops with
`TransferError(e)`. -/
def Obligations.CommandFrameCompletes : Prop :=
  ∀ (n : CmdName) (s : State) (i : Instr) (m : MicroStep) (rest : List XferResult),
    s.op = some i → (microSeq s.cfg i)[s.ustep]? = some m → m.op = .cmd n →
      let sent (r : XferResult) : State :=
        { s with
          trace := s.trace ++ [.pin .cs .low, .pin .dc .low, .xfer [s.cfg.cmd.byte n] r, .pin .cs .high]
          pins := ⟨.high, .low, s.pins.rst⟩
          xferIn := rest }
      (s.xferIn = .ok :: rest → exec (Instr.ofCmd n) s = .next (microDone (sent .ok) i m.loads))
        ∧ ∀ e, s.xferIn = .err e :: rest →
          exec (Instr.ofCmd n) s = .next (runTimeFault (sent (.err e)) .transferError (.err e))

/-- A data frame (rules R191, R193, R194), of a given byte or of the byte of `MEM` at its address: as a command frame, with
data/command high. A `yield` of the host that the step takes is the model's choice (log entry 6). -/
def Obligations.DataFrameCompletes : Prop :=
  ∀ (s : State) (i : Instr) (m : MicroStep) (b : Byte) (rest : List XferResult),
    AtMicro s i m → m.op = .prim (.data b) ∨ (∃ a, m.op = .prim (.dataMem a) ∧ a < s.cfg.memsz ∧ s.mem.read a = b) →
      let sent (r : XferResult) : State :=
        { s with
          host := s.host.tail
          trace := s.trace ++ [.pin .cs .low, .pin .dc .high, .xfer [b] r, .pin .cs .high]
          pins := ⟨.high, .high, s.pins.rst⟩
          xferIn := rest }
      (s.xferIn = .ok :: rest → step s = .next (microDone (sent .ok) i m.loads))
        ∧ ∀ e, s.xferIn = .err e :: rest → step s = .next (runTimeFault (sent (.err e)) .transferError (.err e))

/-- A transfer error (rules R28, R191, R233, R236): the frame's four events are in the trace, chip-select is released, the
sequence stops, the session is `Uninitialized` with no LUT loaded, and the error value is in `ERRINFO`. A
`yield` of the host that the step takes is the model's choice (log entry 6). -/
def Obligations.TransferErrorAbortsTheSequence : Prop :=
  ∀ (s : State) (i : Instr) (m : MicroStep) (dc : Level) (b : Byte) (e : XferErr) (rest : List XferResult),
    AtMicro s i m → s.xferIn = .err e :: rest →
      (dc = .low ∧ ∃ n, m.op = .cmd n ∧ s.cfg.cmd.byte n = b)
        ∨ (dc = .high ∧ (m.op = .prim (.data b)
          ∨ ∃ a, m.op = .prim (.dataMem a) ∧ a < s.cfg.memsz ∧ s.mem.read a = b)) →
        step s = .next (runTimeFault
          { s with
            host := s.host.tail
            trace := s.trace ++ [.pin .cs .low, .pin .dc dc, .xfer [b] (.err e), .pin .cs .high]
            pins := ⟨.high, dc.driven, s.pins.rst⟩
            xferIn := rest } .transferError (.err e))

/-- The busy-wait ends at the first idle read (rule R196): after `busy` busy readings, fewer than the bound, a `High`
completes it; each busy reading is followed by the poll delay, `ReadErr` counts as busy, and `POLLN` is 0 again. That a
poll is a step of its own, so that the count of steps is that of the reads, is the model's reading of rule R196 (log
entry 7). -/
def Obligations.WaitEndsAtTheFirstIdleRead : Prop :=
  ∀ (s : State) (i : Instr) (m : MicroStep) (busy rest : List BusyLevel),
    AtMicro s i m → s.host = [] → m.op = .prim .wait → s.inWait = false → s.busyIn = busy ++ .high :: rest →
      (∀ b ∈ busy, b ≠ .high) → (∀ limit, s.cfg.pollLimit = some limit → busy.length < limit) →
        runSteps (busy.length + 1) s = .next (microDone
          { s with
            trace := s.trace ++ (busy.flatMap fun b => [.busyRead b, .delay s.cfg.tPoll]) ++ [.busyRead .high]
            polln := 0
            busyIn := rest } i m.loads)

/-- The bound of the busy-wait (rules R196, R234): the `L`-th busy reading raises `DeviceNotResponding` with no delay after
it; `POLLN` keeps `L`, the session is `Uninitialized` with no LUT loaded. That a poll is a step of its own, so that the
fault comes with step `L`, is the model's reading of rule R196 (log entry 7). -/
def Obligations.BoundedWaitTakesDeviceNotResponding : Prop :=
  ∀ (s : State) (i : Instr) (m : MicroStep) (busy rest : List BusyLevel) (last : BusyLevel),
    AtMicro s i m → s.host = [] → m.op = .prim .wait → s.inWait = false → s.busyIn = busy ++ last :: rest →
      (∀ b ∈ busy, b ≠ .high) → last ≠ .high → s.cfg.pollLimit = some (busy.length + 1) →
        runSteps (busy.length + 1) s = .next (runTimeFault
          { s with
            trace := s.trace ++ (busy.flatMap fun b => [.busyRead b, .delay s.cfg.tPoll]) ++ [.busyRead last]
            polln := busy.length + 1
            busyIn := rest } .deviceNotResponding .zero)

/-- With no bound the wait hangs for as long as the pin reads busy (rules R196, R271): after any number of busy readings it
is still in progress, `POLLN` counts them, and besides these only the trace and the answers used have changed. That a
poll is a step of its own, and `inWait`, are the model's reading of rule R196 (log entry 7). -/
def Obligations.UnboundedWaitGoesOn : Prop :=
  ∀ (s : State) (i : Instr) (m : MicroStep) (busy rest : List BusyLevel),
    AtMicro s i m → s.host = [] → m.op = .prim .wait → s.inWait = false → s.busyIn = busy ++ rest → busy ≠ [] →
      (∀ b ∈ busy, b ≠ .high) → s.cfg.pollLimit = none →
        runSteps busy.length s = .next
          { s with
            trace := s.trace ++ (busy.flatMap fun b => [.busyRead b, .delay s.cfg.tPoll])
            polln := busy.length
            busyIn := rest
            inWait := true }

/-! The protocol operations (spec/45_protocol_operations.md). -/

/-- Every protocol operation runs its transcript (rules R197 to R220): issued to an idle block that accepts it, with every
transfer answered `Ok` and the busy pin `High`, it takes one step for `Issue` and one for each micro-operation, appends
exactly the transcript the spec writes for it, finishes `Ok`, and leaves `MODE` and `LUTSEL` as rule R245 says, memory
and the rest of the state as they were. The step for `Issue`, and the end in the step of the last micro-operation, are the
model's reading (log entry 11). -/
def Obligations.ProtocolOperationRunsItsTranscript : Prop :=
  ∀ (i : Instr) (s : State) (xs : List XferResult) (bs : List BusyLevel),
    isProtocol i = true → s.op = none → s.host = [.issue (encode i)] → Accepts s i →
      s.xferIn = List.replicate (busBytes (transcript s.cfg s.mem i)).length .ok ++ xs →
        s.busyIn = List.replicate (busyReadCount (transcript s.cfg s.mem i)) .high ++ bs →
          runSteps (1 + (microSeq s.cfg i).length) s = .next (finished
            { s with
              host := []
              mode := (modeLutAfter s.mode s.lutsel i).1
              lutsel := (modeLutAfter s.mode s.lutsel i).2
              pins := pinsAfter s.pins (transcript s.cfg s.mem i)
              polln := if busyReadCount (transcript s.cfg s.mem i) = 0 then s.polln else 0
              trace := s.trace ++ transcript s.cfg s.mem i
              xferIn := xs
              busyIn := bs })

/-- `RESET` (rules R197, R200, R262): from any mode, five steps pulse the reset pin with its two delays and leave the session
`Uninitialized` with no LUT loaded. `CS`, `DC`, `POLLN`, `FAULTED`, memory and the answers of the environment are as
before. The step for `Issue` beside the four micro-operations, and the end in the step of the last of them, are the
model's reading (log entry 11). -/
def Obligations.ResetPulsesTheResetPin : Prop :=
  ∀ s : State, s.op = none → s.host = [.issue (encode .reset)] →
    runSteps 5 s = .next (finished
      { s with
        host := []
        mode := .uninitialized
        lutsel := .none
        pins := ⟨s.pins.cs, s.pins.dc, .high⟩
        trace := s.trace ++ [.pin .rst .low, .delay s.cfg.tRstLow, .pin .rst .high, .delay s.cfg.tRstHigh] })

/-- The `INIT` transcript (rule R211): the bytes on the bus are the five command blocks in order, data/command low on
exactly the five command bytes, and the session is `Active`. -/
def Obligations.InitSendsTheFiveCommandBlocks : Prop :=
  ∀ (s : State) (xs : List XferResult) (bs : List BusyLevel),
    s.op = none → s.host = [.issue (encode .init)] →
      s.xferIn = List.replicate (5 + s.cfg.pwrData.length + s.cfg.btstData.length + s.cfg.psrData.length
        + s.cfg.pllData.length) .ok ++ xs →
        s.busyIn = .high :: bs →
          ∃ (k : Nat) (t : State) (evs : List Event), runSteps k s = .next t ∧ t.op = none ∧ t.mode = .active
            ∧ t.result = .ok ∧ t.trace = s.trace ++ evs
            ∧ framedBytes none evs =
              [(some .low, s.cfg.cmd.powerSetting)] ++ s.cfg.pwrData.map (fun b => (some .high, b))
                ++ [(some .low, s.cfg.cmd.boosterSoftStart)] ++ s.cfg.btstData.map (fun b => (some .high, b))
                ++ [(some .low, s.cfg.cmd.powerOn)]
                ++ [(some .low, s.cfg.cmd.panelSetting)] ++ s.cfg.psrData.map (fun b => (some .high, b))
                ++ [(some .low, s.cfg.cmd.pllControl)] ++ s.cfg.pllData.map (fun b => (some .high, b))

/-- How many micro-operations the operations have (rules R197, R201, R210, R212, R214, R216, R217, R218, R220), where
`lutLen` is the sum of the five table lengths of a set. -/
def Obligations.MicroSequenceLengths : Prop :=
  ∀ (cfg : Cfg) (color : Color) (x y w n : U16) (plane : Plane) (u l : U32),
    let lutLen (t : LutTable) : Nat :=
      t.vcom.length + t.ww.length + t.bw.length + t.wb.length + t.bb.length
    (microSeq cfg .reset).length = 4
      ∧ (microSeq cfg .init).length
        = 10 + cfg.pwrData.length + cfg.btstData.length + cfg.psrData.length + cfg.pllData.length
      ∧ (l.toNat = planeBytes cfg → (microSeq cfg (.displayAndTransferFrame color u l)).length
        = 2 * planeBytes cfg + cfg.cdiData.length + lutLen cfg.lutFull + 18)
      ∧ (microSeq cfg (.setPartialWindow x y w n plane u l)).length = l.toNat + 13
      ∧ (microSeq cfg .displayFrame).length = lutLen cfg.lutFull + 8
      ∧ (microSeq cfg .displayFrameQuick).length = lutLen cfg.lutQuick + 8
      ∧ (microSeq cfg (.clearFrame color)).length = 2 * planeBytes cfg + 9
      ∧ (microSeq cfg .sleep).length
        = 14 + cfg.sleepCdiData.length + cfg.sleepVcmData.length + cfg.sleepPsrData.length
      ∧ (microSeq cfg .waitUntilIdle).length = 1

/-! The whole machine. -/

/-- Power-on (rule R41), for every configuration and every launch content of `MEM`: the registers' values, and with nothing
issued a step changes nothing. -/
def Obligations.PowerOnValues : Prop :=
  ∀ (cfg : Cfg) (mem : Memory) (h : List HostAction) (x : List XferResult) (b : List BusyLevel)
    (xr : Option XferResult) (br : Option BusyLevel),
    let s := State.powerOn cfg mem h x b xr br
    s.mode = .uninitialized ∧ s.lutsel = .none ∧ s.result.code = 0 ∧ s.errinfo = .zero ∧ s.faulted = false
      ∧ s.pins = ⟨.unknown, .unknown, .unknown⟩ ∧ s.opi = 0 ∧ s.ustep = 0 ∧ s.polln = 0 ∧ s.trace = []
      ∧ s.op = none ∧ s.mem = mem ∧ s.cfg = cfg ∧ (h = [] → step s = .next s)

/-- The invariant holds at power-on, for every launch content in canonical form inside `MEM`. So it holds at the reset
state, which is a power-on: its configuration and its empty memory are the model's choice (log entries 1, 8). -/
def Obligations.PowerOnSatisfiesTheInvariant : Prop :=
  (∀ (cfg : Cfg) (mem : Memory) (h : List HostAction) (x : List XferResult) (b : List BusyLevel)
    (xr : Option XferResult) (br : Option BusyLevel),
    mem.wf = true → mem.inside cfg.memsz = true → MachineInv (State.powerOn cfg mem h x b xr br))
    ∧ (∃ cfg mem h x b xr br, State.reset = State.powerOn cfg mem h x b xr br) ∧ MachineInv State.reset

/-- Every step keeps the invariant. -/
def Obligations.StepKeepsTheInvariant : Prop :=
  ∀ s t : State, MachineInv s → step s = .next t → MachineInv t

/-- From a state with the invariant the machine stops only where the host asks for what it cannot have: bytes that are no
descriptor, an address outside `MEM`, or the buffer of the operation in progress. The block itself always goes on. -/
def Obligations.StepStopsOnlyAtTheHostsRequest : Prop :=
  ∀ s : State, MachineInv s →
    (∀ bytes rest, s.host = .issue bytes :: rest → bytes.length = 24) →
      (∀ a rest, (s.host = .readMem a :: rest ∨ ∃ v, s.host = .writeMem a v :: rest) →
        a < s.cfg.memsz ∧ ∀ u l, ownedRange s.op = some (u, l) → a < u ∨ u + l ≤ a) →
        ∃ t, step s = .next t

/-- With a bound on the busy-wait every operation ends (rule R271), whatever the environment answers: from any point of it,
with no action of the host pending, it finishes within `L + 1` steps for each of its micro-operations. That a poll is a step of its own is the model's
reading of rule R196 (log entry 7). -/
def Obligations.EveryOperationEndsUnderABound : Prop :=
  ∀ (s : State) (i : Instr) (limit : Nat), MachineInv s → s.op = some i → s.host = [] → s.cfg.pollLimit = some limit →
    ∃ (k : Nat) (t : State), k ≤ (microSeq s.cfg i).length * (limit + 1) ∧ runSteps k s = .next t ∧ t.op = none
      ∧ t.opi = s.opi + 1

/-- The trace is append-only, and the four events of a frame are contiguous (rules R33, R76): a step appends nothing, one
level of the reset pin, one whole frame, one delay, or one poll; the pins mirror the trace (rule R32). That one step
appends the four events of a frame, or a busy read with the delay after it, is the model's reading (log entry 14), and so
is the step for each poll (log entry 7). -/
def Obligations.StepAppendsWholeEvents : Prop :=
  ∀ s t : State, step s = .next t →
    ∃ evs : List Event, t.trace = s.trace ++ evs ∧ t.pins = pinsAfter s.pins evs
      ∧ (evs = [] ∨ (∃ lvl, evs = [.pin .rst lvl]) ∨ (∃ dc b r, evs = frameTrace dc b r) ∨ (∃ ms, evs = [.delay ms])
        ∨ (∃ b, evs = [.busyRead b]) ∨ (∃ b ms, b ≠ .high ∧ evs = [.busyRead b, .delay ms]))

/-- `FAULTED` (rule R31): set whenever an operation finishes with a result other than `Ok`, set by nothing else, never
cleared by a step; 0 at power-on. -/
def Obligations.FaultedIsSticky : Prop :=
  (∀ s t : State, step s = .next t →
    (s.faulted = true → t.faulted = true)
      ∧ (t.opi ≠ s.opi → t.result ≠ .ok → t.faulted = true)
      ∧ (t.faulted ≠ s.faulted → t.opi = s.opi + 1 ∧ t.result ≠ .ok))
    ∧ ∀ cfg mem h x b xr br, (State.powerOn cfg mem h x b xr br).faulted = false

/-- The configuration never changes (rule R6), `OPI` counts finished operations one by one, and `USTEP` advances by one
within an operation and is 0 after it (rule R23). -/
def Obligations.PositionAdvancesByOne : Prop :=
  ∀ s t : State, step s = .next t →
    t.cfg = s.cfg
      ∧ ((t.opi = s.opi ∧ t.op = s.op ∧ (t.ustep = s.ustep ∨ t.ustep = s.ustep + 1))
        ∨ (t.opi = s.opi ∧ s.op = none ∧ t.op ≠ none ∧ t.ustep = 0)
        ∨ (t.opi = s.opi + 1 ∧ t.op = none ∧ t.ustep = 0))

/-- The mode changes only as rule R245 says: to `Uninitialized` where an idle block accepts `RESET` or `INIT`, or where the
operation in progress ends with a run-time fault; to `Active` by an `INIT` that ends, from `Uninitialized`; to `Sleeping`
by a `SLEEP` that ends, from `Active`. So there is no direct step from `Sleeping` to `Active`. -/
def Obligations.ModeChangesOnlyByTheTable : Prop :=
  ∀ s t : State, MachineInv s → step s = .next t → t.mode ≠ s.mode →
    (t.mode = .uninitialized
        ∧ ((s.op = none ∧ (t.op = some .reset ∨ t.op = some .init))
          ∨ (s.op ≠ none ∧ t.op = none ∧ t.opi = s.opi + 1
            ∧ (t.result = .transferError ∨ t.result = .deviceNotResponding))))
      ∨ (t.mode = .active ∧ s.mode = .uninitialized ∧ s.op = some .init ∧ t.op = none ∧ t.result = .ok)
      ∨ (t.mode = .sleeping ∧ s.mode = .active ∧ s.op = some .sleep ∧ t.op = none ∧ t.result = .ok)

/-- The protocol sequencer never writes `MEM` (rule R22): while an operation is in progress only a write of the host
changes memory; and issuing a protocol operation does not. -/
def Obligations.ProtocolNeverWritesMemory : Prop :=
  (∀ s t : State, s.op ≠ none → (∀ a v rest, s.host ≠ .writeMem a v :: rest) → step s = .next t → t.mem = s.mem)
    ∧ ∀ (i : Instr) (s t : State), rasterRanges i = none → exec i s = .next t → t.mem = s.mem

/-- The host reads a byte of `MEM` (rules R40, R75): outside the buffer of the operation in progress it observes the byte
and changes nothing else; inside it the model has no such step, and outside `MEM` there is no such address. -/
def Obligations.HostReadsOutsideTheOwnedBufferOnly : Prop :=
  ∀ (s : State) (a : Nat) (rest : List HostAction), s.host = .readMem a :: rest →
    (s.cfg.memsz ≤ a → step s = .fault (.noSuchAddress a))
      ∧ (a < s.cfg.memsz → (∃ i u l, s.op = some i ∧ ownedRange (some i) = some (u, l) ∧ u ≤ a ∧ a < u + l) →
          step s = .refused (.rangeOwnedByOperation a))
      ∧ (a < s.cfg.memsz → (∀ i u l, s.op = some i → ownedRange (some i) = some (u, l) → a < u ∨ u + l ≤ a) →
          step s = .next { s with host := rest, obs := s.obs ++ [.byte a (s.mem.read a)] })

/-- `LUTSEL` changes only as rules R29 and R245 say: to `None` where an idle block accepts `RESET` or `INIT`, where the
operation in progress ends with a run-time fault, or where `SLEEP` ends; to `Full` in `DISPLAY_FRAME` or
`DISPLAY_AND_TRANSFER_FRAME`, and to `Quick` in `DISPLAY_FRAME_QUICK`, by the last micro-operation of `LoadLut` and no
other: the last byte of the BB table was sent `Ok` (rule R198). The third part says the converse: where that frame was
sent `Ok`, `LUTSEL` is the set. That the command of an empty BB table stands for its last byte, and that the record is
made in the step of that frame, are the model's reading (log entry 11). -/
def Obligations.LutselChangesOnlyByTheTable : Prop :=
  ∀ s t : State, step s = .next t →
    (t.lutsel ≠ s.lutsel → t.lutsel = .none →
        (s.op = none ∧ (t.op = some .reset ∨ t.op = some .init))
          ∨ (s.op ≠ none ∧ t.op = none ∧ t.opi = s.opi + 1
            ∧ (t.result = .transferError ∨ t.result = .deviceNotResponding))
          ∨ (s.op = some .sleep ∧ t.op = none ∧ t.result = .ok))
      ∧ (t.lutsel ≠ s.lutsel → t.lutsel ≠ .none →
          ∃ (i : Instr) (e : LutEnd), s.op = some i ∧ lutEnd s.cfg i = some e ∧ s.ustep = e.pos ∧ t.lutsel = e.sel
            ∧ t.trace = s.trace ++ e.frame ∧ t.op = s.op ∧ t.ustep = s.ustep + 1)
      ∧ ∀ (i : Instr) (e : LutEnd), s.op = some i → lutEnd s.cfg i = some e → s.ustep = e.pos →
          t.trace = s.trace ++ e.frame → t.lutsel = e.sel ∧ t.op = s.op ∧ t.ustep = s.ustep + 1

/-- The hang (rules R271, R280 (c)): with no bound, a wait whose reads never give `High` is in progress for ever, whatever
the host still wants to issue; `POLLN` grows with every step and no register but it changes. So a `WAIT_UNTIL_IDLE`
issued to an idle block in `Active` hangs the run of any program it begins. That a poll is a step of its own is the
model's reading of rule R196 (log entry 7). -/
def Obligations.UnboundedWaitHangs : Prop :=
  (∀ (s : State) (i : Instr) (m : MicroStep) (b : BusyLevel),
    (∀ a ∈ s.host, ∃ bytes, a = .issue bytes) → s.op = some i → (microSeq s.cfg i)[s.ustep]? = some m →
      m.op = .prim .wait → (∀ lvl ∈ s.busyIn, lvl ≠ .high) → s.busyRest = some b → b ≠ .high →
        s.cfg.pollLimit = none →
          Hangs s ∧ ∀ n, ∃ t, runSteps (n + 1) s = .next t
            ∧ t.endState = { s.endState with
                polln := (if s.inWait then s.polln else 0) + (n + 1), trace := t.trace }
            ∧ t.op = s.op ∧ t.host = s.host)
    ∧ ∀ (s : State) (b : BusyLevel) (program : List (List Byte)),
        s.op = none → s.mode = .active → (∀ lvl ∈ s.busyIn, lvl ≠ .high) → s.busyRest = some b → b ≠ .high →
          s.cfg.pollLimit = none → Hangs (s.launch (encode .waitUntilIdle :: program))

/-- The outcomes of a run (rule R280, log entry 26): the run of any program of descriptors from an idle block has exactly one of the
three, whatever `RESULT` and `FAULTED` hold at its start. One that completed has finished every descriptor, the last with
`Ok`, and set no sticky flag; one that stopped has finished at least one descriptor and its end state holds the fault. -/
def Obligations.RunHasExactlyOneOutcome : Prop :=
  ∀ (s : State) (program : List (List Byte)),
    MachineInv s → s.op = none → (∀ bytes ∈ program, bytes.length = 24) →
      let r := s.launch program
      ((Completes r ∧ ¬ StopsAtFault r ∧ ¬ Hangs r) ∨ (¬ Completes r ∧ StopsAtFault r ∧ ¬ Hangs r)
          ∨ (¬ Completes r ∧ ¬ StopsAtFault r ∧ Hangs r))
        ∧ (∀ n e, runStatus n r = .completed e → e.opi = s.opi + program.length ∧ e.faulted = s.faulted
            ∧ (program ≠ [] → e.result = .ok))
        ∧ ∀ n e, runStatus n r = .stoppedAtFault e → e.result ≠ .ok ∧ e.faulted = true ∧ s.opi < e.opi
            ∧ e.opi ≤ s.opi + program.length
end

