-- ==== Sys2Proof/Laws/Memory.lean ====
section
/-! SUPPORT. The laws of the memory operations: a read after a write, the canonical form is kept, equal contents are
equal data. -/

namespace Sys2Proof.Machine

@[simp] theorem Memory.read_nil (a : Nat) : Memory.read [] a = Memory.unlisted := rfl

theorem Memory.read_cons (k : Nat) (v : Byte) (m : Memory) (a : Nat) :
    Memory.read ((k, v) :: m) a = if k = a then v else m.read a := rfl

theorem Memory.wf_cons (k : Nat) (v : Byte) (m : Memory) :
    Memory.wf ((k, v) :: m) = true ↔ v ≠ Memory.unlisted ∧ (∀ e ∈ m, k < e.1) ∧ m.wf = true := by
  simp [Memory.wf, and_assoc]

/-- An address below every listed one is unlisted. -/
theorem Memory.read_of_forall_lt (m : Memory) (a : Nat) (h : ∀ e ∈ m, a < e.1) : m.read a = Memory.unlisted := by
  induction m with
  | nil => rfl
  | cons e m ih =>
    have ha : a < e.1 := h e (by simp)
    rw [show e = (e.1, e.2) from rfl, Memory.read_cons, if_neg (by omega)]
    exact ih fun e' he' => h e' (by simp [he'])

theorem Memory.mem_write (m : Memory) (a : Nat) (v : Byte) (e : Host.Cell) (h : e ∈ m.write a v) :
    e = (a, v) ∨ e ∈ m := by
  induction m with
  | nil =>
    unfold Memory.write at h
    split at h <;> simp_all
  | cons e' m ih =>
    obtain ⟨k, w⟩ := e'
    unfold Memory.write at h
    split at h
    · split at h <;> simp_all
    · split at h
      · split at h
        · exact .inr (List.mem_cons_of_mem _ h)
        · rcases List.mem_cons.1 h with h | h
          · exact .inl h
          · exact .inr (List.mem_cons_of_mem _ h)
      · simp only [List.mem_cons] at h ⊢
        rcases h with h | h
        · exact .inr (.inl h)
        · rcases ih h with h | h
          · exact .inl h
          · exact .inr (.inr h)

/-- A write leaves every other address alone. -/
theorem Memory.read_write_other (m : Memory) (a b : Nat) (v : Byte) (h : b ≠ a) :
    (m.write a v).read b = m.read b := by
  induction m with
  | nil =>
    unfold Memory.write
    split
    · rfl
    · rw [Memory.read_cons, if_neg (by omega)]
  | cons e m ih =>
    obtain ⟨k, w⟩ := e
    unfold Memory.write
    split
    · split
      · rfl
      · rw [Memory.read_cons, if_neg (by omega)]
    · split
      · rename_i hk
        subst hk
        split
        · rw [Memory.read_cons, if_neg (by omega)]
        · rw [Memory.read_cons, Memory.read_cons, if_neg (by omega), if_neg (by omega)]
      · rw [Memory.read_cons, Memory.read_cons, ih]

/-- A read after a write to the same address gives the value written. -/
theorem Memory.read_write_same (m : Memory) (a : Nat) (v : Byte) (hm : m.wf = true) : (m.write a v).read a = v := by
  induction m with
  | nil =>
    unfold Memory.write
    split
    · simp [*]
    · rw [Memory.read_cons, if_pos rfl]
  | cons e m ih =>
    obtain ⟨k, w⟩ := e
    obtain ⟨-, hlt, hm'⟩ := (Memory.wf_cons k w m).1 hm
    unfold Memory.write
    split
    · rename_i hak
      split
      · rename_i hv
        rw [Memory.read_of_forall_lt _ a (by
          intro e he
          rcases List.mem_cons.1 he with rfl | he
          · exact hak
          · exact lt_trans hak (hlt e he)), hv]
      · rw [Memory.read_cons, if_pos rfl]
    · split
      · rename_i hk
        subst hk
        split
        · rename_i hv
          rw [Memory.read_of_forall_lt m a hlt, hv]
        · rw [Memory.read_cons, if_pos rfl]
      · rename_i hk
        rw [Memory.read_cons, if_neg (by omega)]
        exact ih hm'

/-- A write keeps the canonical form. -/
theorem Memory.wf_write (m : Memory) (a : Nat) (v : Byte) (hm : m.wf = true) : (m.write a v).wf = true := by
  induction m with
  | nil =>
    unfold Memory.write
    split <;> simp_all [Memory.wf]
  | cons e m ih =>
    obtain ⟨k, w⟩ := e
    obtain ⟨hw, hlt, hm'⟩ := (Memory.wf_cons k w m).1 hm
    unfold Memory.write
    split
    · rename_i hak
      split
      · exact hm
      · rename_i hv
        refine (Memory.wf_cons _ _ _).2 ⟨hv, ?_, hm⟩
        intro e he
        rcases List.mem_cons.1 he with rfl | he
        · exact hak
        · exact lt_trans hak (hlt e he)
    · split
      · rename_i hk
        subst hk
        split
        · exact hm'
        · rename_i hv
          exact (Memory.wf_cons _ _ _).2 ⟨hv, hlt, hm'⟩
      · refine (Memory.wf_cons _ _ _).2 ⟨hw, ?_, ih hm'⟩
        intro e he
        rcases Memory.mem_write m a v e he with rfl | he
        · simp only; omega
        · exact hlt e he

/-- A write at an address of `MEM` keeps the listed addresses inside `MEM`. -/
theorem Memory.inside_write (n : Nat) (m : Memory) (a : Nat) (v : Byte) (hm : m.inside n = true) (ha : a < n) :
    (m.write a v).inside n = true := by
  simp only [Memory.inside, List.all_eq_true, decide_eq_true_eq] at hm ⊢
  intro e he
  rcases Memory.mem_write m a v e he with rfl | he
  · exact ha
  · exact hm e he

/-- In canonical form equal contents are equal data. -/
theorem Memory.eq_of_read_eq (m m' : Memory) (hm : m.wf = true) (hm' : m'.wf = true)
    (h : ∀ a, m.read a = m'.read a) : m = m' := by
  induction m generalizing m' with
  | nil =>
    cases m' with
    | nil => rfl
    | cons e m' =>
      obtain ⟨k, w⟩ := e
      obtain ⟨hw, -, -⟩ := (Memory.wf_cons k w m').1 hm'
      have := h k
      rw [Memory.read_cons, if_pos rfl] at this
      exact absurd this.symm hw
  | cons e m ih =>
    obtain ⟨k, w⟩ := e
    obtain ⟨hw, hlt, hmt⟩ := (Memory.wf_cons k w m).1 hm
    cases m' with
    | nil =>
      have := h k
      rw [Memory.read_cons, if_pos rfl] at this
      exact absurd this hw
    | cons e' m' =>
      obtain ⟨k', w'⟩ := e'
      obtain ⟨hw', hlt', hmt'⟩ := (Memory.wf_cons k' w' m').1 hm'
      have hk : k = k' := by
        by_contra hne
        rcases Nat.lt_or_gt_of_ne hne with hl | hl
        · have hk := h k
          rw [Memory.read_cons, if_pos rfl, Memory.read_cons, if_neg (by omega),
            Memory.read_of_forall_lt m' k fun e he => lt_trans hl (hlt' e he)] at hk
          exact hw hk
        · have hk := h k'
          rw [Memory.read_cons, if_neg (by omega), Memory.read_cons, if_pos rfl,
            Memory.read_of_forall_lt m k' fun e he => lt_trans hl (hlt e he)] at hk
          exact hw' hk.symm
      subst hk
      have hv := h k
      rw [Memory.read_cons, if_pos rfl, Memory.read_cons, if_pos rfl] at hv
      subst hv
      rw [ih m' hmt hmt' fun a => ?_]
      by_cases ha : k = a
      · subst ha
        rw [Memory.read_of_forall_lt m k hlt, Memory.read_of_forall_lt m' k hlt']
      · have := h a
        rwa [Memory.read_cons, if_neg ha, Memory.read_cons, if_neg ha] at this

@[simp] theorem Memory.readRange_length (m : Memory) (a n : Nat) : (m.readRange a n).length = n := by
  simp [Memory.readRange]

theorem Memory.fill_zero (m : Memory) (a : Nat) (v : Byte) : m.fill a 0 v = m := rfl

theorem Memory.fill_succ (m : Memory) (a n : Nat) (v : Byte) :
    m.fill a (n + 1) v = (m.fill a n v).write (a + n) v := by
  simp [Memory.fill, List.range_succ]

theorem Memory.wf_fill (m : Memory) (a n : Nat) (v : Byte) (hm : m.wf = true) : (m.fill a n v).wf = true := by
  induction n with
  | zero => exact hm
  | succ n ih => rw [Memory.fill_succ]; exact Memory.wf_write _ _ _ ih

theorem Memory.inside_fill (sz : Nat) (m : Memory) (a n : Nat) (v : Byte) (hm : m.inside sz = true)
    (h : a + n ≤ sz) : (m.fill a n v).inside sz = true := by
  induction n with
  | zero => exact hm
  | succ n ih => rw [Memory.fill_succ]; exact Memory.inside_write _ _ _ _ (ih (by omega)) (by omega)

/-- A filled byte. -/
theorem Memory.read_fill_in (m : Memory) (a n : Nat) (v : Byte) (hm : m.wf = true) (i : Nat) (hi : i < n) :
    (m.fill a n v).read (a + i) = v := by
  induction n with
  | zero => omega
  | succ n ih =>
    rw [Memory.fill_succ]
    by_cases h : i = n
    · subst h; exact Memory.read_write_same _ _ _ (Memory.wf_fill m a i v hm)
    · rw [Memory.read_write_other _ _ _ _ (by omega)]; exact ih (by omega)

/-- A byte outside the filled range. -/
theorem Memory.read_fill_out (m : Memory) (a n : Nat) (v : Byte) (b : Nat) (hb : b < a ∨ a + n ≤ b) :
    (m.fill a n v).read b = m.read b := by
  induction n with
  | zero => rfl
  | succ n ih =>
    rw [Memory.fill_succ, Memory.read_write_other _ _ _ _ (by omega)]
    exact ih (by omega)

end Sys2Proof.Machine
end

