-- ==== Sys2Proof/Laws/Raster.lean ====
section
/-! SUPPORT. The laws of drawing: what one `Plot` does to a pixel and to memory, what a list of `Plot` calls does, and
which points the spans hold. -/

namespace Sys2Proof.Machine

theorem ceilDiv_eight (n : Nat) : ceilDiv n 8 = (n + 7) / 8 := rfl

theorem inCanvas_iff (cfg : Cfg) (p : Point) :
    inCanvas cfg p = true ↔ 0 ≤ p.1 ∧ p.1 < cfg.cw.toNat ∧ 0 ≤ p.2 ∧ p.2 < cfg.ch.toNat := by
  simp [inCanvas]

/-- The byte of a column of the row is one of the row's bytes. -/
theorem div_lt_stride (cfg : Cfg) (x : Nat) (hx : x < 8 * stride cfg) : x / 8 < stride cfg := by omega

theorem lt_stride_of_lt_width (cfg : Cfg) (x : Nat) (hx : x < cfg.cw.toNat) : x < 8 * stride cfg := by
  unfold stride; rw [ceilDiv_eight]; omega

/-- The byte of a pixel lies in the canvas buffer. -/
theorem byteIndex_lt (cfg : Cfg) (x y : Nat) (hx : x < 8 * stride cfg) (hy : y < cfg.ch.toNat) :
    byteIndex cfg x y < canvasBytes cfg := by
  have h := div_lt_stride cfg x hx
  have h2 : (y + 1) * stride cfg ≤ cfg.ch.toNat * stride cfg := Nat.mul_le_mul_right _ hy
  have h3 : (y + 1) * stride cfg = y * stride cfg + stride cfg := by ring
  unfold byteIndex canvasBytes
  rw [Nat.mul_comm (stride cfg)]
  omega

/-- Two pixels in one byte lie in one row and in one group of eight columns. -/
theorem byteIndex_inj (cfg : Cfg) (x y x' y' : Nat) (hx : x < 8 * stride cfg) (hx' : x' < 8 * stride cfg)
    (h : byteIndex cfg x y = byteIndex cfg x' y') : x / 8 = x' / 8 ∧ y = y' := by
  have h1 := div_lt_stride cfg x hx
  have h2 := div_lt_stride cfg x' hx'
  unfold byteIndex at h
  have hy : y = y' := by
    rcases Nat.lt_trichotomy y y' with hl | he | hl
    · have h3 : (y + 1) * stride cfg ≤ y' * stride cfg := Nat.mul_le_mul_right _ hl
      have h4 : (y + 1) * stride cfg = y * stride cfg + stride cfg := by ring
      omega
    · exact he
    · have h3 : (y' + 1) * stride cfg ≤ y * stride cfg := Nat.mul_le_mul_right _ hl
      have h4 : (y' + 1) * stride cfg = y' * stride cfg + stride cfg := by ring
      omega
  subst hy
  exact ⟨by omega, rfl⟩

/-- The bits of a pixel's mask: bit `7 - x mod 8` alone. -/
theorem bitMask_getLsbD (x x' : Nat) : (bitMask x).getLsbD (7 - x' % 8) = decide (x % 8 = x' % 8) := by
  have h : ∀ i j : Fin 8, ((0x80#8) >>> i.val).getLsbD (7 - j.val) = decide (i.val = j.val) := by decide
  exact h ⟨x % 8, by omega⟩ ⟨x' % 8, by omega⟩

theorem bitMask_inv_getLsbD (x x' : Nat) : ((0xFF : Byte) - bitMask x).getLsbD (7 - x' % 8) = !decide (x % 8 = x' % 8) := by
  have h : ∀ i j : Fin 8, (0xFF#8 - (0x80#8) >>> i.val).getLsbD (7 - j.val) = !decide (i.val = j.val) := by decide
  exact h ⟨x % 8, by omega⟩ ⟨x' % 8, by omega⟩

theorem plot_out (cfg : Cfg) (bufa : Nat) (c : Color) (m : Memory) (p : Point) (h : inCanvas cfg p = false) :
    plot cfg bufa c m p = m := by
  simp [plot, h]

theorem wf_plot (cfg : Cfg) (bufa : Nat) (c : Color) (m : Memory) (p : Point) (hm : m.wf = true) :
    (plot cfg bufa c m p).wf = true := by
  unfold plot
  split
  · exact Memory.wf_write _ _ _ hm
  · exact hm

theorem inside_plot (cfg : Cfg) (bufa : Nat) (c : Color) (m : Memory) (p : Point) (hm : m.inside cfg.memsz = true)
    (h : bufa + canvasBytes cfg ≤ cfg.memsz) : (plot cfg bufa c m p).inside cfg.memsz = true := by
  unfold plot
  split
  · rename_i hp
    obtain ⟨h1, h2, h3, h4⟩ := (inCanvas_iff cfg p).1 hp
    have := byteIndex_lt cfg p.1.toNat p.2.toNat (lt_stride_of_lt_width cfg _ (by omega)) (by omega)
    exact Memory.inside_write _ _ _ _ hm (by omega)
  · exact hm

/-- `Plot` changes no byte but that of its point. -/
theorem read_plot_other (cfg : Cfg) (bufa : Nat) (c : Color) (m : Memory) (p : Point) (a : Nat)
    (h : inCanvas cfg p = true → a ≠ bufa + byteIndex cfg p.1.toNat p.2.toNat) :
    (plot cfg bufa c m p).read a = m.read a := by
  unfold plot
  split
  · rename_i hp; exact Memory.read_write_other _ _ _ _ (h hp)
  · rfl

/-- What one `Plot` does to a pixel of a row, pad bits among them. -/
theorem getPixel_plot (cfg : Cfg) (bufa : Nat) (c : Color) (m : Memory) (p : Point) (hm : m.wf = true) (x y : Nat)
    (hx : x < 8 * stride cfg) :
    getPixel cfg (plot cfg bufa c m p) bufa x y =
      if inCanvas cfg p = true ∧ p = ((x : Int), (y : Int)) then colorBit cfg c else getPixel cfg m bufa x y := by
  by_cases hp : inCanvas cfg p = true
  swap
  · rw [plot_out _ _ _ _ _ (by simpa using hp), if_neg (by tauto)]
  obtain ⟨h1, h2, h3, h4⟩ := (inCanvas_iff cfg p).1 hp
  by_cases ha : byteIndex cfg x y = byteIndex cfg p.1.toNat p.2.toNat
  · obtain ⟨hx8, hy⟩ :=
      byteIndex_inj cfg x y p.1.toNat p.2.toNat hx (lt_stride_of_lt_width cfg _ (by omega)) ha
    have hiff : p = ((x : Int), (y : Int)) ↔ p.1.toNat % 8 = x % 8 := by
      constructor
      · rintro rfl; simp
      · intro h
        have : p.1.toNat = x := by omega
        ext <;> simp <;> omega
    simp only [plot, hp, if_true, getPixel, ha, true_and]
    rw [Memory.read_write_same _ _ _ hm]
    by_cases hc : colorBit cfg c = true
    · rw [if_pos hc, BitVec.getLsbD_or, bitMask_getLsbD]
      by_cases hpx : p = ((x : Int), (y : Int))
      · rw [if_pos hpx, hc]; simp [hiff.1 hpx]
      · have hne : ¬ p.1.toNat % 8 = x % 8 := fun h => hpx (hiff.2 h)
        rw [if_neg hpx]; simp [hne]
    · rw [if_neg hc, BitVec.getLsbD_and, bitMask_inv_getLsbD]
      by_cases hpx : p = ((x : Int), (y : Int))
      · rw [if_pos hpx, Bool.eq_false_iff.2 hc]; simp [hiff.1 hpx]
      · have hne : ¬ p.1.toNat % 8 = x % 8 := fun h => hpx (hiff.2 h)
        rw [if_neg hpx]; simp [hne]
  · rw [if_neg, getPixel, getPixel, read_plot_other _ _ _ _ _ _ fun _ => by omega]
    rintro ⟨-, rfl⟩
    simp at ha

theorem wf_plotAll (cfg : Cfg) (bufa : Nat) (c : Color) (m : Memory) (ps : List Point) (hm : m.wf = true) :
    (plotAll cfg bufa c m ps).wf = true := by
  induction ps generalizing m with
  | nil => exact hm
  | cons p ps ih => exact ih _ (wf_plot _ _ _ _ _ hm)

theorem inside_plotAll (cfg : Cfg) (bufa : Nat) (c : Color) (m : Memory) (ps : List Point)
    (hm : m.inside cfg.memsz = true) (h : bufa + canvasBytes cfg ≤ cfg.memsz) :
    (plotAll cfg bufa c m ps).inside cfg.memsz = true := by
  induction ps generalizing m with
  | nil => exact hm
  | cons p ps ih => exact ih _ (inside_plot _ _ _ _ _ hm h)

/-- A list of `Plot` calls changes no byte but those of its points in the canvas. -/
theorem read_plotAll_other (cfg : Cfg) (bufa : Nat) (c : Color) (m : Memory) (ps : List Point) (a : Nat)
    (h : ∀ p ∈ ps, inCanvas cfg p = true → a ≠ bufa + byteIndex cfg p.1.toNat p.2.toNat) :
    (plotAll cfg bufa c m ps).read a = m.read a := by
  induction ps generalizing m with
  | nil => rfl
  | cons p ps ih =>
    rw [plotAll, List.foldl_cons]
    exact (ih _ fun q hq => h q (by simp [hq])).trans (read_plot_other _ _ _ _ _ _ (h p (by simp)))

/-- What a list of `Plot` calls does to a pixel of a row, pad bits among them: the order of the calls does not
matter. -/
theorem getPixel_plotAll (cfg : Cfg) (bufa : Nat) (c : Color) (m : Memory) (ps : List Point) (hm : m.wf = true)
    (x y : Nat) (hx : x < 8 * stride cfg) :
    getPixel cfg (plotAll cfg bufa c m ps) bufa x y =
      if inCanvas cfg ((x : Int), (y : Int)) = true ∧ ((x : Int), (y : Int)) ∈ ps then colorBit cfg c
      else getPixel cfg m bufa x y := by
  induction ps generalizing m with
  | nil => simp [plotAll]
  | cons p ps ih =>
    rw [plotAll, List.foldl_cons]
    refine (ih _ (wf_plot _ _ _ _ _ hm)).trans ?_
    rw [getPixel_plot _ _ _ _ _ hm _ _ hx]
    by_cases hp : p = ((x : Int), (y : Int))
    · subst hp; by_cases h : inCanvas cfg ((x : Int), (y : Int)) = true <;> simp [h]
    · simp [hp, Ne.symm hp]

theorem mem_rowPoints (xa xb y : Int) (p : Point) : p ∈ rowPoints xa xb y ↔ xa ≤ p.1 ∧ p.1 ≤ xb ∧ p.2 = y := by
  obtain ⟨px, py⟩ := p
  simp only [rowPoints, List.mem_map, List.mem_range, Prod.mk.injEq]
  constructor
  · rintro ⟨i, hi, rfl, rfl⟩; refine ⟨?_, ?_, rfl⟩ <;> omega
  · rintro ⟨h1, h2, rfl⟩; exact ⟨(px - xa).toNat, by omega, by omega, rfl⟩

theorem mem_columnPoints (x ya yb : Int) (p : Point) :
    p ∈ columnPoints x ya yb ↔ p.1 = x ∧ ya ≤ p.2 ∧ p.2 ≤ yb := by
  obtain ⟨px, py⟩ := p
  simp only [columnPoints, List.mem_map, List.mem_range, Prod.mk.injEq]
  constructor
  · rintro ⟨i, hi, rfl, rfl⟩; refine ⟨rfl, ?_, ?_⟩ <;> omega
  · rintro ⟨rfl, h1, h2⟩; exact ⟨(py - ya).toNat, by omega, rfl, by omega⟩

end Sys2Proof.Machine
end

