-- ==== Sys2Proof/Laws/State.lean ====
section
/-! SUPPORT. One lemma for each field of each update of the state. -/

namespace Sys2Proof.Machine

/-! `State.log`. -/

@[simp] theorem State.log_cfg (s : State) (evs : List Event) : (s.log evs).cfg = s.cfg := rfl
@[simp] theorem State.log_mem (s : State) (evs : List Event) : (s.log evs).mem = s.mem := rfl
@[simp] theorem State.log_mode (s : State) (evs : List Event) : (s.log evs).mode = s.mode := rfl
@[simp] theorem State.log_lutsel (s : State) (evs : List Event) : (s.log evs).lutsel = s.lutsel := rfl
@[simp] theorem State.log_result (s : State) (evs : List Event) : (s.log evs).result = s.result := rfl
@[simp] theorem State.log_errinfo (s : State) (evs : List Event) : (s.log evs).errinfo = s.errinfo := rfl
@[simp] theorem State.log_faulted (s : State) (evs : List Event) : (s.log evs).faulted = s.faulted := rfl
@[simp] theorem State.log_pins (s : State) (evs : List Event) : (s.log evs).pins = s.pins := rfl
@[simp] theorem State.log_opi (s : State) (evs : List Event) : (s.log evs).opi = s.opi := rfl
@[simp] theorem State.log_ustep (s : State) (evs : List Event) : (s.log evs).ustep = s.ustep := rfl
@[simp] theorem State.log_polln (s : State) (evs : List Event) : (s.log evs).polln = s.polln := rfl
@[simp] theorem State.log_trace (s : State) (evs : List Event) : (s.log evs).trace = s.trace ++ evs := rfl
@[simp] theorem State.log_op (s : State) (evs : List Event) : (s.log evs).op = s.op := rfl
@[simp] theorem State.log_inWait (s : State) (evs : List Event) : (s.log evs).inWait = s.inWait := rfl
@[simp] theorem State.log_host (s : State) (evs : List Event) : (s.log evs).host = s.host := rfl
@[simp] theorem State.log_obs (s : State) (evs : List Event) : (s.log evs).obs = s.obs := rfl
@[simp] theorem State.log_xferIn (s : State) (evs : List Event) : (s.log evs).xferIn = s.xferIn := rfl
@[simp] theorem State.log_busyIn (s : State) (evs : List Event) : (s.log evs).busyIn = s.busyIn := rfl
@[simp] theorem State.log_xferRest (s : State) (evs : List Event) : (s.log evs).xferRest = s.xferRest := rfl
@[simp] theorem State.log_busyRest (s : State) (evs : List Event) : (s.log evs).busyRest = s.busyRest := rfl
@[simp] theorem State.log_xferDraws (s : State) (evs : List Event) : (s.log evs).xferDraws = s.xferDraws := rfl
@[simp] theorem State.log_busyDraws (s : State) (evs : List Event) : (s.log evs).busyDraws = s.busyDraws := rfl

/-! `State.drivePin`. -/

@[simp] theorem State.drivePin_cfg (s : State) (p : PinName) (lvl : Level) : (s.drivePin p lvl).cfg = s.cfg := rfl
@[simp] theorem State.drivePin_mem (s : State) (p : PinName) (lvl : Level) : (s.drivePin p lvl).mem = s.mem := rfl
@[simp] theorem State.drivePin_mode (s : State) (p : PinName) (lvl : Level) : (s.drivePin p lvl).mode = s.mode := rfl
@[simp] theorem State.drivePin_lutsel (s : State) (p : PinName) (lvl : Level) : (s.drivePin p lvl).lutsel = s.lutsel := rfl
@[simp] theorem State.drivePin_result (s : State) (p : PinName) (lvl : Level) : (s.drivePin p lvl).result = s.result := rfl
@[simp] theorem State.drivePin_errinfo (s : State) (p : PinName) (lvl : Level) : (s.drivePin p lvl).errinfo = s.errinfo := rfl
@[simp] theorem State.drivePin_faulted (s : State) (p : PinName) (lvl : Level) : (s.drivePin p lvl).faulted = s.faulted := rfl
@[simp] theorem State.drivePin_pins (s : State) (p : PinName) (lvl : Level) : (s.drivePin p lvl).pins = s.pins.drive p lvl := rfl
@[simp] theorem State.drivePin_opi (s : State) (p : PinName) (lvl : Level) : (s.drivePin p lvl).opi = s.opi := rfl
@[simp] theorem State.drivePin_ustep (s : State) (p : PinName) (lvl : Level) : (s.drivePin p lvl).ustep = s.ustep := rfl
@[simp] theorem State.drivePin_polln (s : State) (p : PinName) (lvl : Level) : (s.drivePin p lvl).polln = s.polln := rfl
@[simp] theorem State.drivePin_trace (s : State) (p : PinName) (lvl : Level) : (s.drivePin p lvl).trace = s.trace ++ [.pin p lvl] := rfl
@[simp] theorem State.drivePin_op (s : State) (p : PinName) (lvl : Level) : (s.drivePin p lvl).op = s.op := rfl
@[simp] theorem State.drivePin_inWait (s : State) (p : PinName) (lvl : Level) : (s.drivePin p lvl).inWait = s.inWait := rfl
@[simp] theorem State.drivePin_host (s : State) (p : PinName) (lvl : Level) : (s.drivePin p lvl).host = s.host := rfl
@[simp] theorem State.drivePin_obs (s : State) (p : PinName) (lvl : Level) : (s.drivePin p lvl).obs = s.obs := rfl
@[simp] theorem State.drivePin_xferIn (s : State) (p : PinName) (lvl : Level) : (s.drivePin p lvl).xferIn = s.xferIn := rfl
@[simp] theorem State.drivePin_busyIn (s : State) (p : PinName) (lvl : Level) : (s.drivePin p lvl).busyIn = s.busyIn := rfl
@[simp] theorem State.drivePin_xferRest (s : State) (p : PinName) (lvl : Level) : (s.drivePin p lvl).xferRest = s.xferRest := rfl
@[simp] theorem State.drivePin_busyRest (s : State) (p : PinName) (lvl : Level) : (s.drivePin p lvl).busyRest = s.busyRest := rfl
@[simp] theorem State.drivePin_xferDraws (s : State) (p : PinName) (lvl : Level) : (s.drivePin p lvl).xferDraws = s.xferDraws := rfl
@[simp] theorem State.drivePin_busyDraws (s : State) (p : PinName) (lvl : Level) : (s.drivePin p lvl).busyDraws = s.busyDraws := rfl

/-! `State.raise`. -/

@[simp] theorem State.raise_cfg (s : State) (f : OpFault) : (s.raise f).cfg = s.cfg := rfl
@[simp] theorem State.raise_mem (s : State) (f : OpFault) : (s.raise f).mem = s.mem := rfl
@[simp] theorem State.raise_mode (s : State) (f : OpFault) : (s.raise f).mode = if f.isRunTime then .uninitialized else s.mode := rfl
@[simp] theorem State.raise_lutsel (s : State) (f : OpFault) : (s.raise f).lutsel = if f.isRunTime then .none else s.lutsel := rfl
@[simp] theorem State.raise_result (s : State) (f : OpFault) : (s.raise f).result = f.result := rfl
@[simp] theorem State.raise_errinfo (s : State) (f : OpFault) : (s.raise f).errinfo = f.info := rfl
@[simp] theorem State.raise_faulted (s : State) (f : OpFault) : (s.raise f).faulted = true := rfl
@[simp] theorem State.raise_pins (s : State) (f : OpFault) : (s.raise f).pins = s.pins := rfl
@[simp] theorem State.raise_opi (s : State) (f : OpFault) : (s.raise f).opi = s.opi + 1 := rfl
@[simp] theorem State.raise_ustep (s : State) (f : OpFault) : (s.raise f).ustep = 0 := rfl
@[simp] theorem State.raise_polln (s : State) (f : OpFault) : (s.raise f).polln = s.polln := rfl
@[simp] theorem State.raise_trace (s : State) (f : OpFault) : (s.raise f).trace = s.trace := rfl
@[simp] theorem State.raise_op (s : State) (f : OpFault) : (s.raise f).op = none := rfl
@[simp] theorem State.raise_inWait (s : State) (f : OpFault) : (s.raise f).inWait = false := rfl
@[simp] theorem State.raise_host (s : State) (f : OpFault) : (s.raise f).host = s.host := rfl
@[simp] theorem State.raise_obs (s : State) (f : OpFault) : (s.raise f).obs = s.obs := rfl
@[simp] theorem State.raise_xferIn (s : State) (f : OpFault) : (s.raise f).xferIn = s.xferIn := rfl
@[simp] theorem State.raise_busyIn (s : State) (f : OpFault) : (s.raise f).busyIn = s.busyIn := rfl
@[simp] theorem State.raise_xferRest (s : State) (f : OpFault) : (s.raise f).xferRest = s.xferRest := rfl
@[simp] theorem State.raise_busyRest (s : State) (f : OpFault) : (s.raise f).busyRest = s.busyRest := rfl
@[simp] theorem State.raise_xferDraws (s : State) (f : OpFault) : (s.raise f).xferDraws = s.xferDraws := rfl
@[simp] theorem State.raise_busyDraws (s : State) (f : OpFault) : (s.raise f).busyDraws = s.busyDraws := rfl

/-! `State.finishOk`. -/

@[simp] theorem State.finishOk_cfg (s : State) : (s.finishOk).cfg = s.cfg := rfl
@[simp] theorem State.finishOk_mem (s : State) : (s.finishOk).mem = s.mem := rfl
@[simp] theorem State.finishOk_mode (s : State) : (s.finishOk).mode = s.mode := rfl
@[simp] theorem State.finishOk_lutsel (s : State) : (s.finishOk).lutsel = s.lutsel := rfl
@[simp] theorem State.finishOk_result (s : State) : (s.finishOk).result = .ok := rfl
@[simp] theorem State.finishOk_errinfo (s : State) : (s.finishOk).errinfo = .zero := rfl
@[simp] theorem State.finishOk_faulted (s : State) : (s.finishOk).faulted = s.faulted := rfl
@[simp] theorem State.finishOk_pins (s : State) : (s.finishOk).pins = s.pins := rfl
@[simp] theorem State.finishOk_opi (s : State) : (s.finishOk).opi = s.opi + 1 := rfl
@[simp] theorem State.finishOk_ustep (s : State) : (s.finishOk).ustep = 0 := rfl
@[simp] theorem State.finishOk_polln (s : State) : (s.finishOk).polln = s.polln := rfl
@[simp] theorem State.finishOk_trace (s : State) : (s.finishOk).trace = s.trace := rfl
@[simp] theorem State.finishOk_op (s : State) : (s.finishOk).op = none := rfl
@[simp] theorem State.finishOk_inWait (s : State) : (s.finishOk).inWait = false := rfl
@[simp] theorem State.finishOk_host (s : State) : (s.finishOk).host = s.host := rfl
@[simp] theorem State.finishOk_obs (s : State) : (s.finishOk).obs = s.obs := rfl
@[simp] theorem State.finishOk_xferIn (s : State) : (s.finishOk).xferIn = s.xferIn := rfl
@[simp] theorem State.finishOk_busyIn (s : State) : (s.finishOk).busyIn = s.busyIn := rfl
@[simp] theorem State.finishOk_xferRest (s : State) : (s.finishOk).xferRest = s.xferRest := rfl
@[simp] theorem State.finishOk_busyRest (s : State) : (s.finishOk).busyRest = s.busyRest := rfl
@[simp] theorem State.finishOk_xferDraws (s : State) : (s.finishOk).xferDraws = s.xferDraws := rfl
@[simp] theorem State.finishOk_busyDraws (s : State) : (s.finishOk).busyDraws = s.busyDraws := rfl

/-! `State.entryReset`. -/

@[simp] theorem State.entryReset_cfg (s : State) : (s.entryReset).cfg = s.cfg := rfl
@[simp] theorem State.entryReset_mem (s : State) : (s.entryReset).mem = s.mem := rfl
@[simp] theorem State.entryReset_mode (s : State) : (s.entryReset).mode = .uninitialized := rfl
@[simp] theorem State.entryReset_lutsel (s : State) : (s.entryReset).lutsel = .none := rfl
@[simp] theorem State.entryReset_result (s : State) : (s.entryReset).result = s.result := rfl
@[simp] theorem State.entryReset_errinfo (s : State) : (s.entryReset).errinfo = s.errinfo := rfl
@[simp] theorem State.entryReset_faulted (s : State) : (s.entryReset).faulted = s.faulted := rfl
@[simp] theorem State.entryReset_pins (s : State) : (s.entryReset).pins = s.pins := rfl
@[simp] theorem State.entryReset_opi (s : State) : (s.entryReset).opi = s.opi := rfl
@[simp] theorem State.entryReset_ustep (s : State) : (s.entryReset).ustep = s.ustep := rfl
@[simp] theorem State.entryReset_polln (s : State) : (s.entryReset).polln = s.polln := rfl
@[simp] theorem State.entryReset_trace (s : State) : (s.entryReset).trace = s.trace := rfl
@[simp] theorem State.entryReset_op (s : State) : (s.entryReset).op = s.op := rfl
@[simp] theorem State.entryReset_inWait (s : State) : (s.entryReset).inWait = s.inWait := rfl
@[simp] theorem State.entryReset_host (s : State) : (s.entryReset).host = s.host := rfl
@[simp] theorem State.entryReset_obs (s : State) : (s.entryReset).obs = s.obs := rfl
@[simp] theorem State.entryReset_xferIn (s : State) : (s.entryReset).xferIn = s.xferIn := rfl
@[simp] theorem State.entryReset_busyIn (s : State) : (s.entryReset).busyIn = s.busyIn := rfl
@[simp] theorem State.entryReset_xferRest (s : State) : (s.entryReset).xferRest = s.xferRest := rfl
@[simp] theorem State.entryReset_busyRest (s : State) : (s.entryReset).busyRest = s.busyRest := rfl
@[simp] theorem State.entryReset_xferDraws (s : State) : (s.entryReset).xferDraws = s.xferDraws := rfl
@[simp] theorem State.entryReset_busyDraws (s : State) : (s.entryReset).busyDraws = s.busyDraws := rfl

/-! `State.begin`. -/

@[simp] theorem State.begin_cfg (s : State) (i : Instr) : (s.begin i).cfg = s.cfg := rfl
@[simp] theorem State.begin_mem (s : State) (i : Instr) : (s.begin i).mem = s.mem := rfl
@[simp] theorem State.begin_mode (s : State) (i : Instr) : (s.begin i).mode = s.mode := rfl
@[simp] theorem State.begin_lutsel (s : State) (i : Instr) : (s.begin i).lutsel = s.lutsel := rfl
@[simp] theorem State.begin_result (s : State) (i : Instr) : (s.begin i).result = s.result := rfl
@[simp] theorem State.begin_errinfo (s : State) (i : Instr) : (s.begin i).errinfo = s.errinfo := rfl
@[simp] theorem State.begin_faulted (s : State) (i : Instr) : (s.begin i).faulted = s.faulted := rfl
@[simp] theorem State.begin_pins (s : State) (i : Instr) : (s.begin i).pins = s.pins := rfl
@[simp] theorem State.begin_opi (s : State) (i : Instr) : (s.begin i).opi = s.opi := rfl
@[simp] theorem State.begin_ustep (s : State) (i : Instr) : (s.begin i).ustep = 0 := rfl
@[simp] theorem State.begin_polln (s : State) (i : Instr) : (s.begin i).polln = s.polln := rfl
@[simp] theorem State.begin_trace (s : State) (i : Instr) : (s.begin i).trace = s.trace := rfl
@[simp] theorem State.begin_op (s : State) (i : Instr) : (s.begin i).op = some i := rfl
@[simp] theorem State.begin_inWait (s : State) (i : Instr) : (s.begin i).inWait = false := rfl
@[simp] theorem State.begin_host (s : State) (i : Instr) : (s.begin i).host = s.host := rfl
@[simp] theorem State.begin_obs (s : State) (i : Instr) : (s.begin i).obs = s.obs := rfl
@[simp] theorem State.begin_xferIn (s : State) (i : Instr) : (s.begin i).xferIn = s.xferIn := rfl
@[simp] theorem State.begin_busyIn (s : State) (i : Instr) : (s.begin i).busyIn = s.busyIn := rfl
@[simp] theorem State.begin_xferRest (s : State) (i : Instr) : (s.begin i).xferRest = s.xferRest := rfl
@[simp] theorem State.begin_busyRest (s : State) (i : Instr) : (s.begin i).busyRest = s.busyRest := rfl
@[simp] theorem State.begin_xferDraws (s : State) (i : Instr) : (s.begin i).xferDraws = s.xferDraws := rfl
@[simp] theorem State.begin_busyDraws (s : State) (i : Instr) : (s.begin i).busyDraws = s.busyDraws := rfl

/-! `State.popHost`. -/

@[simp] theorem State.popHost_cfg (s : State) : (s.popHost).cfg = s.cfg := rfl
@[simp] theorem State.popHost_mem (s : State) : (s.popHost).mem = s.mem := rfl
@[simp] theorem State.popHost_mode (s : State) : (s.popHost).mode = s.mode := rfl
@[simp] theorem State.popHost_lutsel (s : State) : (s.popHost).lutsel = s.lutsel := rfl
@[simp] theorem State.popHost_result (s : State) : (s.popHost).result = s.result := rfl
@[simp] theorem State.popHost_errinfo (s : State) : (s.popHost).errinfo = s.errinfo := rfl
@[simp] theorem State.popHost_faulted (s : State) : (s.popHost).faulted = s.faulted := rfl
@[simp] theorem State.popHost_pins (s : State) : (s.popHost).pins = s.pins := rfl
@[simp] theorem State.popHost_opi (s : State) : (s.popHost).opi = s.opi := rfl
@[simp] theorem State.popHost_ustep (s : State) : (s.popHost).ustep = s.ustep := rfl
@[simp] theorem State.popHost_polln (s : State) : (s.popHost).polln = s.polln := rfl
@[simp] theorem State.popHost_trace (s : State) : (s.popHost).trace = s.trace := rfl
@[simp] theorem State.popHost_op (s : State) : (s.popHost).op = s.op := rfl
@[simp] theorem State.popHost_inWait (s : State) : (s.popHost).inWait = s.inWait := rfl
@[simp] theorem State.popHost_host (s : State) : (s.popHost).host = s.host.tail := rfl
@[simp] theorem State.popHost_obs (s : State) : (s.popHost).obs = s.obs := rfl
@[simp] theorem State.popHost_xferIn (s : State) : (s.popHost).xferIn = s.xferIn := rfl
@[simp] theorem State.popHost_busyIn (s : State) : (s.popHost).busyIn = s.busyIn := rfl
@[simp] theorem State.popHost_xferRest (s : State) : (s.popHost).xferRest = s.xferRest := rfl
@[simp] theorem State.popHost_busyRest (s : State) : (s.popHost).busyRest = s.busyRest := rfl
@[simp] theorem State.popHost_xferDraws (s : State) : (s.popHost).xferDraws = s.xferDraws := rfl
@[simp] theorem State.popHost_busyDraws (s : State) : (s.popHost).busyDraws = s.busyDraws := rfl

/-! `State.observe`. -/

@[simp] theorem State.observe_cfg (s : State) (o : HostObs) : (s.observe o).cfg = s.cfg := rfl
@[simp] theorem State.observe_mem (s : State) (o : HostObs) : (s.observe o).mem = s.mem := rfl
@[simp] theorem State.observe_mode (s : State) (o : HostObs) : (s.observe o).mode = s.mode := rfl
@[simp] theorem State.observe_lutsel (s : State) (o : HostObs) : (s.observe o).lutsel = s.lutsel := rfl
@[simp] theorem State.observe_result (s : State) (o : HostObs) : (s.observe o).result = s.result := rfl
@[simp] theorem State.observe_errinfo (s : State) (o : HostObs) : (s.observe o).errinfo = s.errinfo := rfl
@[simp] theorem State.observe_faulted (s : State) (o : HostObs) : (s.observe o).faulted = s.faulted := rfl
@[simp] theorem State.observe_pins (s : State) (o : HostObs) : (s.observe o).pins = s.pins := rfl
@[simp] theorem State.observe_opi (s : State) (o : HostObs) : (s.observe o).opi = s.opi := rfl
@[simp] theorem State.observe_ustep (s : State) (o : HostObs) : (s.observe o).ustep = s.ustep := rfl
@[simp] theorem State.observe_polln (s : State) (o : HostObs) : (s.observe o).polln = s.polln := rfl
@[simp] theorem State.observe_trace (s : State) (o : HostObs) : (s.observe o).trace = s.trace := rfl
@[simp] theorem State.observe_op (s : State) (o : HostObs) : (s.observe o).op = s.op := rfl
@[simp] theorem State.observe_inWait (s : State) (o : HostObs) : (s.observe o).inWait = s.inWait := rfl
@[simp] theorem State.observe_host (s : State) (o : HostObs) : (s.observe o).host = s.host := rfl
@[simp] theorem State.observe_obs (s : State) (o : HostObs) : (s.observe o).obs = s.obs ++ [o] := rfl
@[simp] theorem State.observe_xferIn (s : State) (o : HostObs) : (s.observe o).xferIn = s.xferIn := rfl
@[simp] theorem State.observe_busyIn (s : State) (o : HostObs) : (s.observe o).busyIn = s.busyIn := rfl
@[simp] theorem State.observe_xferRest (s : State) (o : HostObs) : (s.observe o).xferRest = s.xferRest := rfl
@[simp] theorem State.observe_busyRest (s : State) (o : HostObs) : (s.observe o).busyRest = s.busyRest := rfl
@[simp] theorem State.observe_xferDraws (s : State) (o : HostObs) : (s.observe o).xferDraws = s.xferDraws := rfl
@[simp] theorem State.observe_busyDraws (s : State) (o : HostObs) : (s.observe o).busyDraws = s.busyDraws := rfl

/-! `State.drawXfer`: it changes nothing but the environment's answers. -/

@[simp] theorem State.drawXfer_cfg (s : State) : s.drawXfer.cfg = s.cfg := by
  unfold State.drawXfer; split <;> simp [*]
@[simp] theorem State.drawXfer_mem (s : State) : s.drawXfer.mem = s.mem := by
  unfold State.drawXfer; split <;> simp [*]
@[simp] theorem State.drawXfer_mode (s : State) : s.drawXfer.mode = s.mode := by
  unfold State.drawXfer; split <;> simp [*]
@[simp] theorem State.drawXfer_lutsel (s : State) : s.drawXfer.lutsel = s.lutsel := by
  unfold State.drawXfer; split <;> simp [*]
@[simp] theorem State.drawXfer_result (s : State) : s.drawXfer.result = s.result := by
  unfold State.drawXfer; split <;> simp [*]
@[simp] theorem State.drawXfer_errinfo (s : State) : s.drawXfer.errinfo = s.errinfo := by
  unfold State.drawXfer; split <;> simp [*]
@[simp] theorem State.drawXfer_faulted (s : State) : s.drawXfer.faulted = s.faulted := by
  unfold State.drawXfer; split <;> simp [*]
@[simp] theorem State.drawXfer_pins (s : State) : s.drawXfer.pins = s.pins := by
  unfold State.drawXfer; split <;> simp [*]
@[simp] theorem State.drawXfer_opi (s : State) : s.drawXfer.opi = s.opi := by
  unfold State.drawXfer; split <;> simp [*]
@[simp] theorem State.drawXfer_ustep (s : State) : s.drawXfer.ustep = s.ustep := by
  unfold State.drawXfer; split <;> simp [*]
@[simp] theorem State.drawXfer_polln (s : State) : s.drawXfer.polln = s.polln := by
  unfold State.drawXfer; split <;> simp [*]
@[simp] theorem State.drawXfer_trace (s : State) : s.drawXfer.trace = s.trace := by
  unfold State.drawXfer; split <;> simp [*]
@[simp] theorem State.drawXfer_op (s : State) : s.drawXfer.op = s.op := by
  unfold State.drawXfer; split <;> simp [*]
@[simp] theorem State.drawXfer_inWait (s : State) : s.drawXfer.inWait = s.inWait := by
  unfold State.drawXfer; split <;> simp [*]
@[simp] theorem State.drawXfer_host (s : State) : s.drawXfer.host = s.host := by
  unfold State.drawXfer; split <;> simp [*]
@[simp] theorem State.drawXfer_obs (s : State) : s.drawXfer.obs = s.obs := by
  unfold State.drawXfer; split <;> simp [*]
@[simp] theorem State.drawXfer_xferIn (s : State) : s.drawXfer.xferIn = s.xferIn.tail := by
  unfold State.drawXfer; split <;> simp [*]
@[simp] theorem State.drawXfer_busyIn (s : State) : s.drawXfer.busyIn = s.busyIn := by
  unfold State.drawXfer; split <;> simp [*]
@[simp] theorem State.drawXfer_xferRest (s : State) : s.drawXfer.xferRest = s.xferRest := by
  unfold State.drawXfer; split <;> simp [*]
@[simp] theorem State.drawXfer_busyRest (s : State) : s.drawXfer.busyRest = s.busyRest := by
  unfold State.drawXfer; split <;> simp [*]
@[simp] theorem State.drawXfer_busyDraws (s : State) : s.drawXfer.busyDraws = s.busyDraws := by
  unfold State.drawXfer; split <;> simp [*]

/-! `State.drawBusy`: it changes nothing but the environment's answers. -/

@[simp] theorem State.drawBusy_cfg (s : State) : s.drawBusy.cfg = s.cfg := by
  unfold State.drawBusy; split <;> simp [*]
@[simp] theorem State.drawBusy_mem (s : State) : s.drawBusy.mem = s.mem := by
  unfold State.drawBusy; split <;> simp [*]
@[simp] theorem State.drawBusy_mode (s : State) : s.drawBusy.mode = s.mode := by
  unfold State.drawBusy; split <;> simp [*]
@[simp] theorem State.drawBusy_lutsel (s : State) : s.drawBusy.lutsel = s.lutsel := by
  unfold State.drawBusy; split <;> simp [*]
@[simp] theorem State.drawBusy_result (s : State) : s.drawBusy.result = s.result := by
  unfold State.drawBusy; split <;> simp [*]
@[simp] theorem State.drawBusy_errinfo (s : State) : s.drawBusy.errinfo = s.errinfo := by
  unfold State.drawBusy; split <;> simp [*]
@[simp] theorem State.drawBusy_faulted (s : State) : s.drawBusy.faulted = s.faulted := by
  unfold State.drawBusy; split <;> simp [*]
@[simp] theorem State.drawBusy_pins (s : State) : s.drawBusy.pins = s.pins := by
  unfold State.drawBusy; split <;> simp [*]
@[simp] theorem State.drawBusy_opi (s : State) : s.drawBusy.opi = s.opi := by
  unfold State.drawBusy; split <;> simp [*]
@[simp] theorem State.drawBusy_ustep (s : State) : s.drawBusy.ustep = s.ustep := by
  unfold State.drawBusy; split <;> simp [*]
@[simp] theorem State.drawBusy_polln (s : State) : s.drawBusy.polln = s.polln := by
  unfold State.drawBusy; split <;> simp [*]
@[simp] theorem State.drawBusy_trace (s : State) : s.drawBusy.trace = s.trace := by
  unfold State.drawBusy; split <;> simp [*]
@[simp] theorem State.drawBusy_op (s : State) : s.drawBusy.op = s.op := by
  unfold State.drawBusy; split <;> simp [*]
@[simp] theorem State.drawBusy_inWait (s : State) : s.drawBusy.inWait = s.inWait := by
  unfold State.drawBusy; split <;> simp [*]
@[simp] theorem State.drawBusy_host (s : State) : s.drawBusy.host = s.host := by
  unfold State.drawBusy; split <;> simp [*]
@[simp] theorem State.drawBusy_obs (s : State) : s.drawBusy.obs = s.obs := by
  unfold State.drawBusy; split <;> simp [*]
@[simp] theorem State.drawBusy_xferIn (s : State) : s.drawBusy.xferIn = s.xferIn := by
  unfold State.drawBusy; split <;> simp [*]
@[simp] theorem State.drawBusy_busyIn (s : State) : s.drawBusy.busyIn = s.busyIn.tail := by
  unfold State.drawBusy; split <;> simp [*]
@[simp] theorem State.drawBusy_xferRest (s : State) : s.drawBusy.xferRest = s.xferRest := by
  unfold State.drawBusy; split <;> simp [*]
@[simp] theorem State.drawBusy_busyRest (s : State) : s.drawBusy.busyRest = s.busyRest := by
  unfold State.drawBusy; split <;> simp [*]
@[simp] theorem State.drawBusy_xferDraws (s : State) : s.drawBusy.xferDraws = s.xferDraws := by
  unfold State.drawBusy; split <;> simp [*]

/-! `State.frameEvents`. -/

@[simp] theorem State.frameEvents_cfg (s : State) (dc : Level) (b : Byte) :
    (s.frameEvents dc b).cfg = s.cfg := by
  simp [State.frameEvents]
@[simp] theorem State.frameEvents_mem (s : State) (dc : Level) (b : Byte) :
    (s.frameEvents dc b).mem = s.mem := by
  simp [State.frameEvents]
@[simp] theorem State.frameEvents_mode (s : State) (dc : Level) (b : Byte) :
    (s.frameEvents dc b).mode = s.mode := by
  simp [State.frameEvents]
@[simp] theorem State.frameEvents_lutsel (s : State) (dc : Level) (b : Byte) :
    (s.frameEvents dc b).lutsel = s.lutsel := by
  simp [State.frameEvents]
@[simp] theorem State.frameEvents_result (s : State) (dc : Level) (b : Byte) :
    (s.frameEvents dc b).result = s.result := by
  simp [State.frameEvents]
@[simp] theorem State.frameEvents_errinfo (s : State) (dc : Level) (b : Byte) :
    (s.frameEvents dc b).errinfo = s.errinfo := by
  simp [State.frameEvents]
@[simp] theorem State.frameEvents_faulted (s : State) (dc : Level) (b : Byte) :
    (s.frameEvents dc b).faulted = s.faulted := by
  simp [State.frameEvents]
@[simp] theorem State.frameEvents_pins (s : State) (dc : Level) (b : Byte) :
    (s.frameEvents dc b).pins = ((s.pins.drive .cs .low).drive .dc dc).drive .cs .high := by
  simp [State.frameEvents]
@[simp] theorem State.frameEvents_opi (s : State) (dc : Level) (b : Byte) :
    (s.frameEvents dc b).opi = s.opi := by
  simp [State.frameEvents]
@[simp] theorem State.frameEvents_ustep (s : State) (dc : Level) (b : Byte) :
    (s.frameEvents dc b).ustep = s.ustep := by
  simp [State.frameEvents]
@[simp] theorem State.frameEvents_polln (s : State) (dc : Level) (b : Byte) :
    (s.frameEvents dc b).polln = s.polln := by
  simp [State.frameEvents]
@[simp] theorem State.frameEvents_trace (s : State) (dc : Level) (b : Byte) :
    (s.frameEvents dc b).trace = s.trace ++ [.pin .cs .low, .pin .dc dc, .xfer [b] s.nextXfer, .pin .cs .high] := by
  simp [State.frameEvents]
@[simp] theorem State.frameEvents_op (s : State) (dc : Level) (b : Byte) :
    (s.frameEvents dc b).op = s.op := by
  simp [State.frameEvents]
@[simp] theorem State.frameEvents_inWait (s : State) (dc : Level) (b : Byte) :
    (s.frameEvents dc b).inWait = s.inWait := by
  simp [State.frameEvents]
@[simp] theorem State.frameEvents_host (s : State) (dc : Level) (b : Byte) :
    (s.frameEvents dc b).host = s.host := by
  simp [State.frameEvents]
@[simp] theorem State.frameEvents_obs (s : State) (dc : Level) (b : Byte) :
    (s.frameEvents dc b).obs = s.obs := by
  simp [State.frameEvents]
@[simp] theorem State.frameEvents_xferIn (s : State) (dc : Level) (b : Byte) :
    (s.frameEvents dc b).xferIn = s.xferIn.tail := by
  simp [State.frameEvents]
@[simp] theorem State.frameEvents_busyIn (s : State) (dc : Level) (b : Byte) :
    (s.frameEvents dc b).busyIn = s.busyIn := by
  simp [State.frameEvents]
@[simp] theorem State.frameEvents_xferRest (s : State) (dc : Level) (b : Byte) :
    (s.frameEvents dc b).xferRest = s.xferRest := by
  simp [State.frameEvents]
@[simp] theorem State.frameEvents_busyRest (s : State) (dc : Level) (b : Byte) :
    (s.frameEvents dc b).busyRest = s.busyRest := by
  simp [State.frameEvents]
@[simp] theorem State.frameEvents_busyDraws (s : State) (dc : Level) (b : Byte) :
    (s.frameEvents dc b).busyDraws = s.busyDraws := by
  simp [State.frameEvents]

/-! `State.completionEffects`. -/

@[simp] theorem State.completionEffects_cfg (s : State) (i : Instr) : (s.completionEffects i).cfg = s.cfg := by
  cases i <;> rfl
@[simp] theorem State.completionEffects_mem (s : State) (i : Instr) : (s.completionEffects i).mem = s.mem := by
  cases i <;> rfl
@[simp] theorem State.completionEffects_result (s : State) (i : Instr) : (s.completionEffects i).result = s.result := by
  cases i <;> rfl
@[simp] theorem State.completionEffects_errinfo (s : State) (i : Instr) : (s.completionEffects i).errinfo = s.errinfo := by
  cases i <;> rfl
@[simp] theorem State.completionEffects_faulted (s : State) (i : Instr) : (s.completionEffects i).faulted = s.faulted := by
  cases i <;> rfl
@[simp] theorem State.completionEffects_pins (s : State) (i : Instr) : (s.completionEffects i).pins = s.pins := by
  cases i <;> rfl
@[simp] theorem State.completionEffects_opi (s : State) (i : Instr) : (s.completionEffects i).opi = s.opi := by
  cases i <;> rfl
@[simp] theorem State.completionEffects_ustep (s : State) (i : Instr) : (s.completionEffects i).ustep = s.ustep := by
  cases i <;> rfl
@[simp] theorem State.completionEffects_polln (s : State) (i : Instr) : (s.completionEffects i).polln = s.polln := by
  cases i <;> rfl
@[simp] theorem State.completionEffects_trace (s : State) (i : Instr) : (s.completionEffects i).trace = s.trace := by
  cases i <;> rfl
@[simp] theorem State.completionEffects_op (s : State) (i : Instr) : (s.completionEffects i).op = s.op := by
  cases i <;> rfl
@[simp] theorem State.completionEffects_inWait (s : State) (i : Instr) : (s.completionEffects i).inWait = s.inWait := by
  cases i <;> rfl
@[simp] theorem State.completionEffects_host (s : State) (i : Instr) : (s.completionEffects i).host = s.host := by
  cases i <;> rfl
@[simp] theorem State.completionEffects_obs (s : State) (i : Instr) : (s.completionEffects i).obs = s.obs := by
  cases i <;> rfl
@[simp] theorem State.completionEffects_xferIn (s : State) (i : Instr) : (s.completionEffects i).xferIn = s.xferIn := by
  cases i <;> rfl
@[simp] theorem State.completionEffects_busyIn (s : State) (i : Instr) : (s.completionEffects i).busyIn = s.busyIn := by
  cases i <;> rfl
@[simp] theorem State.completionEffects_xferRest (s : State) (i : Instr) : (s.completionEffects i).xferRest = s.xferRest := by
  cases i <;> rfl
@[simp] theorem State.completionEffects_busyRest (s : State) (i : Instr) : (s.completionEffects i).busyRest = s.busyRest := by
  cases i <;> rfl
@[simp] theorem State.completionEffects_xferDraws (s : State) (i : Instr) : (s.completionEffects i).xferDraws = s.xferDraws := by
  cases i <;> rfl
@[simp] theorem State.completionEffects_busyDraws (s : State) (i : Instr) : (s.completionEffects i).busyDraws = s.busyDraws := by
  cases i <;> rfl

end Sys2Proof.Machine
end

