-- ==== Sys2Proof/Laws/Ops.lean ====
section
/-! SUPPORT. What the shared operations can do, said once: the checks, the common frames, the micro-operations, and the
cases of one step. Later proofs cite these and unfold none of them. -/

namespace Sys2Proof.Machine

/-! Checks. -/

@[simp] theorem firstFault_nil : firstFault [] = none := rfl

@[simp] theorem firstFault_some (f : OpFault) (cs : List (Option OpFault)) : firstFault (some f :: cs) = some f := rfl

@[simp] theorem firstFault_none (cs : List (Option OpFault)) : firstFault (none :: cs) = firstFault cs := rfl

/-- A reported fault is one of the checks' faults. -/
theorem firstFault_mem (cs : List (Option OpFault)) (f : OpFault) (h : firstFault cs = some f) : some f ∈ cs := by
  induction cs with
  | nil => simp at h
  | cons c cs ih =>
    cases c with
    | none => exact List.mem_cons_of_mem _ (ih h)
    | some g => simp only [firstFault_some, Option.some.injEq] at h; simp [h]

/-- No fault is reported exactly when no check finds one. -/
theorem firstFault_eq_none (cs : List (Option OpFault)) : firstFault cs = none ↔ ∀ c ∈ cs, c = none := by
  induction cs with
  | nil => simp
  | cons c cs ih => cases c <;> simp [ih]

theorem sizeFault_eq_none (bufl : U32) (n : Nat) : sizeFault bufl n = none ↔ bufl.toNat = n := by
  simp [sizeFault]

theorem rangeFault_eq_none (cfg : Cfg) (a n : Nat) : rangeFault cfg a n = none ↔ a + n ≤ cfg.memsz := by
  simp [rangeFault]

theorem modeFault_eq_none (s : State) : modeFault s = none ↔ s.mode = .active := by
  simp [modeFault]

theorem windowFault_eq_none (cfg : Cfg) (x y w l : U16) :
    windowFault cfg x y w l = none ↔
      w ≠ 0 ∧ l ≠ 0 ∧ windowXs x + w.toNat ≤ cfg.width.toNat ∧ y.toNat + l.toNat ≤ cfg.height.toNat := by
  simp [windowFault, not_or]

/-- A check of an operation raises no run-time fault. -/
theorem sizeFault_not_runTime (bufl : U32) (n : Nat) (f : OpFault) (h : sizeFault bufl n = some f) :
    f = .bufferSizeMismatch := by
  unfold sizeFault at h; split at h <;> simp_all

theorem rangeFault_not_runTime (cfg : Cfg) (a n : Nat) (f : OpFault) (h : rangeFault cfg a n = some f) :
    f = .memRange := by
  unfold rangeFault at h; split at h <;> simp_all

theorem modeFault_not_runTime (s : State) (f : OpFault) (h : modeFault s = some f) : f = .notActive := by
  unfold modeFault at h; split at h <;> simp_all

theorem windowFault_not_runTime (cfg : Cfg) (x y w l : U16) (f : OpFault) (h : windowFault cfg x y w l = some f) :
    f = .windowError := by
  unfold windowFault at h; split at h <;> simp_all

/-! The common frames. -/

/-- Everything a rasterizer operation can answer. -/
theorem rasterOp_next (u l : U32) (text : Option (Nat × Nat)) (draw : Cfg → Nat → Memory → Memory) (s t : State)
    (h : rasterOp u l text draw s = .next t) :
    s.op = none ∧
      ((∃ f, (f = .bufferSizeMismatch ∨ f = .memRange) ∧ t = s.raise f)
        ∨ (l.toNat = canvasBytes s.cfg ∧ u.toNat + l.toNat ≤ s.cfg.memsz
            ∧ (∀ r, text = some r → r.1 + r.2 ≤ s.cfg.memsz)
            ∧ t = State.finishOk { s with mem := draw s.cfg u.toNat s.mem })) := by
  unfold rasterOp at h
  split at h
  · simp at h
  rename_i hop
  refine ⟨by simpa using hop, ?_⟩
  split at h
  · rename_i f hf
    left
    refine ⟨f, ?_, by simpa using h.symm⟩
    have hm := firstFault_mem _ _ hf
    simp only [List.mem_cons, List.not_mem_nil, or_false] at hm
    rcases hm with hm | hm | hm
    · exact .inl (sizeFault_not_runTime _ _ _ hm.symm)
    · exact .inr (rangeFault_not_runTime _ _ _ _ hm.symm)
    · cases text with
      | none => simp at hm
      | some r => exact .inr (rangeFault_not_runTime _ _ _ _ hm.symm)
  · rename_i hf
    right
    rw [firstFault_eq_none] at hf
    refine ⟨(sizeFault_eq_none _ _).1 (hf _ (by simp)), (rangeFault_eq_none _ _ _).1 (hf _ (by simp)), ?_,
      by simpa using h.symm⟩
    rintro r rfl
    exact (rangeFault_eq_none _ _ _).1 (hf _ (by simp))

/-- A rasterizer operation past its checks. -/
theorem rasterOp_ok (u l : U32) (text : Option (Nat × Nat)) (draw : Cfg → Nat → Memory → Memory) (s : State)
    (hop : s.op = none) (hl : l.toNat = canvasBytes s.cfg) (hr : u.toNat + l.toNat ≤ s.cfg.memsz)
    (ht : ∀ r, text = some r → r.1 + r.2 ≤ s.cfg.memsz) :
    rasterOp u l text draw s = .next (State.finishOk { s with mem := draw s.cfg u.toNat s.mem }) := by
  have htext : (text.bind fun t => rangeFault s.cfg t.1 t.2) = none := by
    cases text with
    | none => rfl
    | some r => exact (rangeFault_eq_none _ _ _).2 (ht r rfl)
  simp [rasterOp, hop, (sizeFault_eq_none l _).2 hl, (rangeFault_eq_none s.cfg _ _).2 hr, htext]

/-- A rasterizer operation with a buffer of the wrong length. -/
theorem rasterOp_size (u l : U32) (text : Option (Nat × Nat)) (draw : Cfg → Nat → Memory → Memory) (s : State)
    (hop : s.op = none) (hl : l.toNat ≠ canvasBytes s.cfg) :
    rasterOp u l text draw s = .next (s.raise .bufferSizeMismatch) := by
  simp [rasterOp, hop, sizeFault, hl]

/-- A rasterizer operation with a buffer that does not lie inside `MEM`. -/
theorem rasterOp_range (u l : U32) (text : Option (Nat × Nat)) (draw : Cfg → Nat → Memory → Memory) (s : State)
    (hop : s.op = none) (hl : l.toNat = canvasBytes s.cfg) (hr : s.cfg.memsz < u.toNat + l.toNat) :
    rasterOp u l text draw s = .next (s.raise .memRange) := by
  have h1 : sizeFault l (canvasBytes s.cfg) = none := (sizeFault_eq_none _ _).2 hl
  have h2 : rangeFault s.cfg u.toNat l.toNat = some .memRange := by unfold rangeFault; rw [if_neg (by omega)]
  simp [rasterOp, hop, h1, h2]

/-- A rasterizer operation with a text that does not lie inside `MEM`. -/
theorem rasterOp_text (u l : U32) (a n : Nat) (draw : Cfg → Nat → Memory → Memory) (s : State)
    (hop : s.op = none) (hl : l.toNat = canvasBytes s.cfg) (hr : u.toNat + l.toNat ≤ s.cfg.memsz)
    (ht : s.cfg.memsz < a + n) : rasterOp u l (some (a, n)) draw s = .next (s.raise .memRange) := by
  have h1 : sizeFault l (canvasBytes s.cfg) = none := (sizeFault_eq_none _ _).2 hl
  have h2 : rangeFault s.cfg u.toNat l.toNat = none := (rangeFault_eq_none _ _ _).2 hr
  have h3 : rangeFault s.cfg a n = some .memRange := by unfold rangeFault; rw [if_neg (by omega)]
  simp [rasterOp, hop, h1, h2, h3]

/-- Everything a protocol operation can answer at `Issue`. -/
theorem protocolOp_next (i : Instr) (cs : List (Option OpFault)) (entry : State → State) (s t : State)
    (h : protocolOp i cs entry s = .next t) :
    s.op = none ∧ ((∃ f, firstFault cs = some f ∧ t = s.raise f)
      ∨ (firstFault cs = none ∧ t = (entry s).begin i)) := by
  unfold protocolOp at h
  split at h
  · simp at h
  rename_i hop
  refine ⟨by simpa using hop, ?_⟩
  split at h
  · rename_i f hf; exact .inl ⟨f, hf, by simpa using h.symm⟩
  · rename_i hf; exact .inr ⟨hf, by simpa using h.symm⟩

/-- The meaning of a command's instruction is its command frame. -/
theorem exec_ofCmd (n : CmdName) (s : State) : exec (Instr.ofCmd n) s = wireCommand n s := by cases n <;> rfl

/-- The meaning of a command's instruction always answers a next state. -/
theorem exec_ofCmd_next (n : CmdName) (s : State) :
    exec (Instr.ofCmd n) s = .next (s.sendFrame .low (s.cfg.cmd.byte n)) := exec_ofCmd n s

/-! The four frames' events and the answers. -/

/-- The state after the four events of a frame, in one record. -/
theorem frameEvents_eq (s : State) (dc : Level) (b : Byte) :
    s.frameEvents dc b = { s.drawXfer with
      trace := s.trace ++ [.pin .cs .low, .pin .dc dc, .xfer [b] s.nextXfer, .pin .cs .high]
      pins := ⟨.high, dc.driven, s.pins.rst⟩ } := by
  cases s with
  | mk cfg mem mode lutsel result errinfo faulted pins opi ustep polln trace op inWait host obs xferIn busyIn xferRest =>
    cases xferIn <;> cases xferRest <;>
      simp [State.frameEvents, State.drawXfer, State.drivePin, State.log, Pins.drive, State.nextXfer, Level.driven]

theorem sendFrame_ok (s : State) (dc : Level) (b : Byte) (h : s.nextXfer = .ok) :
    s.sendFrame dc b = (s.frameEvents dc b).advance := by simp [State.sendFrame, h]

theorem sendFrame_err (s : State) (dc : Level) (b : Byte) (e : XferErr) (h : s.nextXfer = .err e) :
    s.sendFrame dc b = (s.frameEvents dc b).raise (.transferError e) := by simp [State.sendFrame, h]

theorem sendFrame_cases (s : State) (dc : Level) (b : Byte) :
    s.sendFrame dc b = (s.frameEvents dc b).advance
      ∨ ∃ e, s.sendFrame dc b = (s.frameEvents dc b).raise (.transferError e) := by
  cases h : s.nextXfer with
  | ok => exact .inl (sendFrame_ok _ _ _ h)
  | err e => exact .inr ⟨e, sendFrame_err _ _ _ e h⟩

/-! The end of a micro-operation. -/

theorem advance_none (s : State) (h : s.op = none) : s.advance = s := by simp [State.advance, h]

/-- A micro-operation that is not the last. -/
theorem advance_more (s : State) (i : Instr) (h : s.op = some i) (hlt : s.ustep + 1 < (microSeq s.cfg i).length) :
    s.advance = { s with lutsel := s.lutselAfter, ustep := s.ustep + 1, inWait := false } := by
  simp [State.advance, h, hlt]

/-- The last micro-operation of an operation. -/
theorem advance_last (s : State) (i : Instr) (h : s.op = some i)
    (hlt : ¬ s.ustep + 1 < (microSeq s.cfg i).length) :
    s.advance = (State.completionEffects { s with lutsel := s.lutselAfter } i).finishOk := by
  simp [State.advance, h, hlt]

/-- What `advance` never changes. -/
theorem advance_frame (s : State) :
    s.advance.cfg = s.cfg ∧ s.advance.mem = s.mem ∧ s.advance.trace = s.trace ∧ s.advance.pins = s.pins
      ∧ s.advance.host = s.host ∧ s.advance.obs = s.obs ∧ s.advance.polln = s.polln
      ∧ s.advance.faulted = s.faulted := by
  cases h : s.op with
  | none => simp [advance_none s h]
  | some i =>
    by_cases hlt : s.ustep + 1 < (microSeq s.cfg i).length
    · simp [advance_more s i h hlt]
    · rw [advance_last s i h hlt]; cases i <;> simp [State.completionEffects, State.finishOk]

/-! One step. -/

/-- The block's own step: idle, or the micro-operation at `USTEP`. -/
theorem blockStep_next (s t : State) (h : blockStep s = .next t) :
    (s.op = none ∧ t = s)
      ∨ ∃ i m, s.op = some i ∧ (microSeq s.cfg i)[s.ustep]? = some m
        ∧ ((∃ n, m.op = .cmd n ∧ t = s.sendFrame .low (s.cfg.cmd.byte n))
          ∨ (∃ p lvl, m.op = .prim (.pin p lvl) ∧ t = (s.drivePin p lvl).advance)
          ∨ (∃ b, m.op = .prim (.data b) ∧ t = s.sendFrame .high b)
          ∨ (∃ a, m.op = .prim (.dataMem a) ∧ a < s.cfg.memsz ∧ t = s.sendFrame .high (s.mem.read a))
          ∨ (∃ ms, m.op = .prim (.delay ms) ∧ t = (s.log [.delay ms]).advance)
          ∨ (m.op = .prim .wait ∧ t = s.pollOnce)) := by
  unfold blockStep at h
  split at h
  · rename_i hop; exact .inl ⟨hop, by simpa using h.symm⟩
  rename_i i hop
  right
  split at h
  · simp at h
  rename_i m hm
  have hm' : (microSeq s.cfg i)[s.ustep]? = some m := by simpa [State.currentMicro, hop] using hm
  refine ⟨i, m, hop, hm', ?_⟩
  split at h
  · rename_i n hn
    rw [exec_ofCmd_next] at h
    exact .inl ⟨n, hn, by simpa using h.symm⟩
  rename_i p hp
  cases p with
  | pin p lvl => exact .inr (.inl ⟨p, lvl, hp, by simpa [runPrim] using h.symm⟩)
  | data b => exact .inr (.inr (.inl ⟨b, hp, by simpa [runPrim] using h.symm⟩))
  | dataMem a =>
    simp only [runPrim] at h
    split at h
    · rename_i ha; exact .inr (.inr (.inr (.inl ⟨a, hp, ha, by simpa using h.symm⟩)))
    · simp at h
  | delay ms => exact .inr (.inr (.inr (.inr (.inl ⟨ms, hp, by simpa [runPrim] using h.symm⟩))))
  | wait => exact .inr (.inr (.inr (.inr (.inr ⟨hp, by simpa [runPrim] using h.symm⟩))))

/-- The block's step where the sequencer is at the micro-operation `m`. -/
theorem blockStep_micro (s : State) (i : Instr) (m : MicroStep) (hop : s.op = some i)
    (hm : (microSeq s.cfg i)[s.ustep]? = some m) :
    blockStep s = match m.op with
      | .cmd n => .next (s.sendFrame .low (s.cfg.cmd.byte n))
      | .prim p => runPrim p s := by
  have hc : s.currentMicro = some m := by simp [State.currentMicro, hop, hm]
  simp only [blockStep, hop, hc]
  cases m.op with
  | cmd n => exact exec_ofCmd_next n s
  | prim p => rfl

theorem hostAccess_next (a : Nat) (u s t : State) (h : hostAccess a u s = .next t) :
    a < s.cfg.memsz ∧ s.ownsAddr a = false ∧ t = u := by
  unfold hostAccess at h
  split at h
  · simp at h
  · split at h
    · simp at h
    · rename_i h1 h2; exact ⟨by omega, by simpa using h2, by simpa using h.symm⟩

/-- The cases of one step: the block's own step (with the host's `yield` taken or not), an `Issue` at an idle block, an
observation of the host, or its write of a byte. -/
theorem step_next (s t : State) (h : step s = .next t) :
    ((s.host = [] ∨ ∃ bytes rest, s.host = .issue bytes :: rest ∧ s.op.isSome) ∧ blockStep s = .next t)
      ∨ ((∃ rest, s.host = .yield :: rest) ∧ blockStep s.popHost = .next t)
      ∨ (∃ bytes rest, s.host = .issue bytes :: rest ∧ s.op = none ∧ issueBytes bytes s.popHost = .next t)
      ∨ (∃ o, t = s.popHost.observe o)
      ∨ (∃ a v rest, s.host = .writeMem a v :: rest ∧ a < s.cfg.memsz ∧ s.ownsAddr a = false
          ∧ t = { s.popHost with mem := s.mem.write a v }) := by
  unfold step machineStep at h
  split at h
  · rename_i hh; exact .inl ⟨.inl hh, h⟩
  · rename_i rest hh; exact .inr (.inl ⟨⟨rest, hh⟩, h⟩)
  · rename_i bytes rest hh
    split at h
    · rename_i hop; exact .inl ⟨.inr ⟨bytes, rest, hh, hop⟩, h⟩
    · rename_i hop; exact .inr (.inr (.inl ⟨bytes, rest, hh, by simpa using hop, h⟩))
  · exact .inr (.inr (.inr (.inl ⟨_, by simpa using h.symm⟩)))
  · exact .inr (.inr (.inr (.inl ⟨_, (hostAccess_next _ _ _ _ h).2.2⟩)))
  · rename_i a v rest hh
    obtain ⟨h1, h2, h3⟩ := hostAccess_next _ _ _ _ h
    exact .inr (.inr (.inr (.inr ⟨a, v, rest, hh, h1, h2, h3⟩)))

/-- An `Issue` at an idle block that answers a next state: the fault `IllegalOp`, or the meaning of the operation. -/
theorem issueBytes_next (bytes : List Byte) (s t : State) (h : issueBytes bytes s = .next t) :
    bytes.length = 24 ∧
      (t = s.raise .illegalOp ∨ ∃ i rest, decode .desc bytes = .ok (i, rest) ∧ exec i s = .next t) := by
  unfold issueBytes at h
  split at h
  · simp at h
  rename_i hl
  refine ⟨by omega, ?_⟩
  split at h
  · rename_i i rest hd; exact .inr ⟨i, rest, hd, h⟩
  · exact .inl (by simpa using h.symm)

/-! What `exec` does with the operations. -/

/-- A rasterizer operation is `rasterOp` of a drawing that keeps memory well-formed and inside `MEM` and writes no byte
outside the buffer. -/
theorem exec_raster (i : Instr) (u l : Nat) (text : Option (Nat × Nat)) (h : rasterRanges i = some (u, l, text)) :
    ∃ (bufa bufl : U32) (draw : Cfg → Nat → Memory → Memory), bufa.toNat = u ∧ bufl.toNat = l
      ∧ (∀ s, exec i s = rasterOp bufa bufl text draw s)
      ∧ ∀ cfg m, l = canvasBytes cfg →
        (m.wf = true → (draw cfg u m).wf = true)
          ∧ (m.inside cfg.memsz = true → u + l ≤ cfg.memsz → (draw cfg u m).inside cfg.memsz = true)
          ∧ ∀ a, a < u ∨ u + l ≤ a → (draw cfg u m).read a = m.read a := by
  have key : ∀ (bufa bufl : U32) (c : Color) (pts : Cfg → Memory → List Point),
      (∀ cfg m, bufl.toNat = canvasBytes cfg →
        (m.wf = true → (plotAll cfg bufa.toNat c m (pts cfg m)).wf = true)
          ∧ (m.inside cfg.memsz = true → bufa.toNat + bufl.toNat ≤ cfg.memsz →
              (plotAll cfg bufa.toNat c m (pts cfg m)).inside cfg.memsz = true)
          ∧ ∀ a, a < bufa.toNat ∨ bufa.toNat + bufl.toNat ≤ a →
              (plotAll cfg bufa.toNat c m (pts cfg m)).read a = m.read a) := by
    intro bufa bufl c pts cfg m hl
    refine ⟨fun hm => wf_plotAll _ _ _ _ _ hm, fun hm hr => inside_plotAll _ _ _ _ _ hm (by omega), ?_⟩
    intro a ha
    refine read_plotAll_other _ _ _ _ _ _ fun p _ hp => ?_
    obtain ⟨h1, h2, h3, h4⟩ := (inCanvas_iff cfg p).1 hp
    have := byteIndex_lt cfg p.1.toNat p.2.toNat (lt_stride_of_lt_width cfg _ (by omega)) (by omega)
    omega
  cases i <;> simp only [rasterRanges, Option.some.injEq, Prod.mk.injEq, reduceCtorEq] at h <;>
    obtain ⟨rfl, rfl, rfl⟩ := h
  case clear color bufa bufl =>
    exact ⟨bufa, bufl, fun cfg a m => m.fill a bufl.toNat (colorByte cfg color), rfl, rfl, fun _ => rfl, fun cfg m _ =>
      ⟨fun hm => Memory.wf_fill _ _ _ _ hm, fun hm hr => Memory.inside_fill _ _ _ _ _ hm hr,
        fun a ha => Memory.read_fill_out _ _ _ _ _ ha⟩⟩
  case drawPixel x y c bufa bufl =>
    exact ⟨bufa, bufl, fun cfg a m => plotAll cfg a c m ([((x.toNat : Int), (y.toNat : Int))]), rfl, rfl, fun _ => rfl,
      key bufa bufl c fun _ _ => _⟩
  case drawLine x0 y0 x1 y1 c bufa bufl =>
    exact ⟨bufa, bufl, fun cfg a m => plotAll cfg a c m (linePoints x0 y0 x1 y1), rfl, rfl, fun _ => rfl,
      key bufa bufl c fun _ _ => _⟩
  case drawHline x y w c bufa bufl =>
    exact ⟨bufa, bufl, fun cfg a m => plotAll cfg a c m (hlinePoints x y w), rfl, rfl, fun _ => rfl,
      key bufa bufl c fun _ _ => _⟩
  case drawVline x y w c bufa bufl =>
    exact ⟨bufa, bufl, fun cfg a m => plotAll cfg a c m (vlinePoints x y w), rfl, rfl, fun _ => rfl,
      key bufa bufl c fun _ _ => _⟩
  case drawRect x0 y0 x1 y1 c bufa bufl =>
    exact ⟨bufa, bufl, fun cfg a m => plotAll cfg a c m (rectPoints x0 y0 x1 y1), rfl, rfl, fun _ => rfl,
      key bufa bufl c fun _ _ => _⟩
  case drawFrect x0 y0 x1 y1 c bufa bufl =>
    exact ⟨bufa, bufl, fun cfg a m => plotAll cfg a c m (frectPoints x0 y0 x1 y1), rfl, rfl, fun _ => rfl,
      key bufa bufl c fun _ _ => _⟩
  case drawCircle x y r c bufa bufl =>
    exact ⟨bufa, bufl, fun cfg a m => plotAll cfg a c m (circlePoints x y r), rfl, rfl, fun _ => rfl,
      key bufa bufl c fun _ _ => _⟩
  case drawFcircle x y r c bufa bufl =>
    exact ⟨bufa, bufl, fun cfg a m => plotAll cfg a c m (fcirclePoints x y r), rfl, rfl, fun _ => rfl,
      key bufa bufl c fun _ _ => _⟩
  case drawString x y c bufa bufl ta tl =>
    exact ⟨bufa, bufl, fun cfg a m => plotAll cfg a c m (textPoints cfg x y (m.readRange ta.toNat tl.toNat)), rfl, rfl,
      fun _ => rfl, key bufa bufl c fun cfg m => textPoints cfg x y (m.readRange ta.toNat tl.toNat)⟩

/-- What the protocol operations do on entry, and their checks, in one form. -/
theorem exec_protocol (i : Instr) (h : isProtocol i = true) :
    ∃ (cs : State → List (Option OpFault)) (entry : State → State), (∀ s, exec i s = protocolOp i (cs s) entry s)
      ∧ (∀ s f, firstFault (cs s) = some f → f.isRunTime = false ∧ f.info = .zero)
      ∧ (∀ s, firstFault (cs s) = none ↔ Accepts s i)
      ∧ ((anyMode i = true ∧ entry = State.entryReset) ∨ (anyMode i = false ∧ entry = id)) := by
  have hw : ∀ (x : U16), windowXs x = x.toNat / 8 * 8 := fun x => by unfold windowXs; omega
  have ne0 : ∀ (w : U16), w ≠ 0 ↔ 0 < w.toNat := fun w => by
    constructor
    · intro h; rcases Nat.eq_zero_or_pos w.toNat with h0 | h0
      · exact absurd (BitVec.eq_of_toNat_eq (by simpa using h0)) h
      · exact h0
    · rintro h rfl; simp at h
  have kinds : ∀ (s : State) (cs : List (Option OpFault)),
      (∀ c ∈ cs, c = modeFault s ∨ (∃ b n, c = sizeFault b n) ∨ (∃ a n, c = rangeFault s.cfg a n)
        ∨ (∃ x y w l, c = windowFault s.cfg x y w l)) →
        ∀ f, firstFault cs = some f → f.isRunTime = false ∧ f.info = .zero := by
    intro s cs hcs f hf
    rcases hcs _ (firstFault_mem _ _ hf) with h | ⟨_, _, h⟩ | ⟨_, _, h⟩ | ⟨_, _, _, _, h⟩
    · rw [modeFault_not_runTime _ _ h.symm]; exact ⟨rfl, rfl⟩
    · rw [sizeFault_not_runTime _ _ _ h.symm]; exact ⟨rfl, rfl⟩
    · rw [rangeFault_not_runTime _ _ _ _ h.symm]; exact ⟨rfl, rfl⟩
    · rw [windowFault_not_runTime _ _ _ _ _ _ h.symm]; exact ⟨rfl, rfl⟩
  cases i <;> simp only [isProtocol, Bool.false_eq_true] at h
  case reset =>
    exact ⟨fun _ => [], State.entryReset, fun _ => rfl, fun _ _ h => by simp at h, fun _ => by simp [Accepts],
      .inl ⟨rfl, rfl⟩⟩
  case init =>
    exact ⟨fun _ => [], State.entryReset, fun _ => rfl, fun _ _ h => by simp at h, fun _ => by simp [Accepts],
      .inl ⟨rfl, rfl⟩⟩
  case displayAndTransferFrame c u l =>
    refine ⟨_, id, fun _ => rfl, fun s f hf => kinds s _ ?_ f hf, fun s => ?_, .inr ⟨rfl, rfl⟩⟩
    · simp
    · simp [firstFault_eq_none, modeFault_eq_none, sizeFault_eq_none, rangeFault_eq_none, Accepts]
  case setPartialWindow x y w n p u l =>
    refine ⟨_, id, fun _ => rfl, fun s f hf => kinds s _ ?_ f hf, fun s => ?_, .inr ⟨rfl, rfl⟩⟩
    · simp only [List.mem_cons, List.not_mem_nil, or_false]
      rintro c (rfl | rfl | rfl | rfl)
      · exact .inl rfl
      · exact .inr (.inr (.inr ⟨_, _, _, _, rfl⟩))
      · exact .inr (.inl ⟨_, _, rfl⟩)
      · exact .inr (.inr (.inl ⟨_, _, rfl⟩))
    · simp [firstFault_eq_none, modeFault_eq_none, sizeFault_eq_none, rangeFault_eq_none, windowFault_eq_none, Accepts,
        windowOk, windowBytes, hw, ← ne0]
  all_goals
    refine ⟨_, id, fun _ => rfl, fun s f hf => kinds s _ ?_ f hf, fun s => ?_, .inr ⟨rfl, rfl⟩⟩
    · simp
    · simp [firstFault_eq_none, modeFault_eq_none, Accepts]

/-- An instruction is a rasterizer operation, a protocol operation or a command frame. -/
theorem instr_cases (i : Instr) :
    (∃ u l text, rasterRanges i = some (u, l, text)) ∨ isProtocol i = true ∨ ∃ n, i = Instr.ofCmd n := by
  cases i <;> first
    | exact .inl ⟨_, _, _, rfl⟩
    | exact .inr (.inl rfl)
    | exact .inr (.inr ⟨.panelSetting, rfl⟩)
    | exact .inr (.inr ⟨.powerSetting, rfl⟩)
    | exact .inr (.inr ⟨.powerOff, rfl⟩)
    | exact .inr (.inr ⟨.powerOn, rfl⟩)
    | exact .inr (.inr ⟨.boosterSoftStart, rfl⟩)
    | exact .inr (.inr ⟨.deepSleep, rfl⟩)
    | exact .inr (.inr ⟨.dataStartTransmission1, rfl⟩)
    | exact .inr (.inr ⟨.displayRefresh, rfl⟩)
    | exact .inr (.inr ⟨.dataStartTransmission2, rfl⟩)
    | exact .inr (.inr ⟨.lutForVcom, rfl⟩)
    | exact .inr (.inr ⟨.lutWhiteToWhite, rfl⟩)
    | exact .inr (.inr ⟨.lutBlackToWhite, rfl⟩)
    | exact .inr (.inr ⟨.lutWhiteToBlack, rfl⟩)
    | exact .inr (.inr ⟨.lutBlackToBlack, rfl⟩)
    | exact .inr (.inr ⟨.pllControl, rfl⟩)
    | exact .inr (.inr ⟨.vcomAndDataIntervalSetting, rfl⟩)
    | exact .inr (.inr ⟨.resolutionSetting, rfl⟩)
    | exact .inr (.inr ⟨.vcmDcSetting, rfl⟩)
    | exact .inr (.inr ⟨.partialWindow, rfl⟩)
    | exact .inr (.inr ⟨.partialIn, rfl⟩)
    | exact .inr (.inr ⟨.partialOut, rfl⟩)

end Sys2Proof.Machine
end

