-- ==== Sys2Proof/Laws/Drawing.lean ====
section
/-! SUPPORT. What drawing a list of points does, in the terms of Safety.lean, and which points the rectangles have. -/

namespace Sys2Proof.Machine

theorem finishOk_eq (s : State) : s.finishOk = finished s := rfl

/-- A fault of a check is not a run-time fault and has no info. -/
theorem raise_preCheck (s : State) (f : OpFault) (h : f.isRunTime = false) (hi : f.info = .zero) :
    s.raise f = preCheckFault s f.result := by
  simp [State.raise, preCheckFault, h, hi]

/-- Black is `BLACK_BIT`, White the other bit (rule R10). -/
theorem colorBit_eq (cfg : Cfg) (c : Color) : colorBit cfg c = if c = .black then cfg.blackBit else !cfg.blackBit := by
  cases c <;> rfl

/-- Plotting a list of points draws exactly the set of its points. -/
theorem drewExactly_plotAll (cfg : Cfg) (a : Nat) (c : Color) (m : Memory) (ps : List Point) (pix : Int → Int → Prop)
    (hm : m.wf = true) (h : ∀ X Y : Int, (X, Y) ∈ ps ↔ pix X Y) :
    DrewExactly cfg a c pix m (plotAll cfg a c m ps) := by
  refine ⟨fun x y hx hy => ?_, fun x y hx hx2 hy => ?_, fun b hb => ?_⟩
  · rw [getPixel_plotAll cfg a c m ps hm x y (lt_stride_of_lt_width cfg x hx)]
    have hin : inCanvas cfg ((x : Int), (y : Int)) = true := by
      rw [inCanvas_iff]
      exact ⟨by simp, by simpa using hx, by simp, by simpa using hy⟩
    exact ⟨fun hp => (if_pos ⟨hin, (h _ _).2 hp⟩).trans (colorBit_eq cfg c), fun hp => if_neg fun e => hp ((h _ _).1 e.2)⟩
  · rw [getPixel_plotAll cfg a c m ps hm x y hx2, if_neg]
    rintro ⟨hin, -⟩
    rw [inCanvas_iff] at hin
    simp at hin
    omega
  · refine read_plotAll_other _ _ _ _ _ _ fun p hp hin => ?_
    rw [inCanvas_iff] at hin
    intro e
    apply hb
    refine ⟨p.1.toNat, p.2.toNat, by omega, by omega, ?_, e⟩
    rw [← h, show (((p.1.toNat : Int)), ((p.2.toNat : Int))) = p by ext <;> simp <;> omega]
    exact hp

theorem mem_rectPoints (x0 y0 x1 y1 : U16) (p : Point) :
    p ∈ rectPoints x0 y0 x1 y1 ↔
      ((x0.toNat : Int) ≤ p.1 ∧ p.1 ≤ x1.toNat ∧ (y0.toNat : Int) ≤ p.2 ∧ p.2 ≤ y1.toNat
        ∧ (p.1 = x0.toNat ∨ p.1 = x1.toNat ∨ p.2 = y0.toNat ∨ p.2 = y1.toNat)) := by
  unfold rectPoints
  split
  · simp only [List.mem_append, mem_rowPoints, mem_columnPoints]; omega
  · simp; omega

theorem mem_frectPoints (x0 y0 x1 y1 : U16) (p : Point) :
    p ∈ frectPoints x0 y0 x1 y1 ↔
      ((x0.toNat : Int) ≤ p.1 ∧ p.1 ≤ x1.toNat ∧ (y0.toNat : Int) ≤ p.2 ∧ p.2 ≤ y1.toNat) := by
  simp only [frectPoints, List.mem_flatMap, List.mem_range, mem_rowPoints]
  constructor
  · rintro ⟨j, hj, h⟩; omega
  · intro h; exact ⟨(p.2 - y0.toNat).toNat, by omega, by omega⟩

end Sys2Proof.Machine
end

