-- ==== Sys2Proof/Laws/Encoding.lean ====
section
/-! SUPPORT. The byte order of the descriptor's fields, and the decoder on the bytes of a descriptor given by its
fields. -/

namespace Sys2Proof

/-- The two bytes of a 16-bit field, read back (rule R69). -/
@[simp] theorem be16_bytes (v : U16) : be16 (v.extractLsb' 8 8) (v.extractLsb' 0 8) = v := by
  apply BitVec.eq_of_toNat_eq
  have h := v.isLt
  simp only [be16, BitVec.toNat_append, BitVec.extractLsb'_toNat, Nat.shiftRight_eq_div_pow]
  rw [← Nat.shiftLeft_add_eq_or_of_lt (by omega), Nat.shiftLeft_eq]
  omega

/-- The four bytes of a 32-bit field, read back (rule R90). -/
@[simp] theorem be32_bytes (v : U32) :
    be32 (v.extractLsb' 24 8) (v.extractLsb' 16 8) (v.extractLsb' 8 8) (v.extractLsb' 0 8) = v := by
  apply BitVec.eq_of_toNat_eq
  have h := v.isLt
  simp only [be32, BitVec.toNat_append, BitVec.extractLsb'_toNat, Nat.shiftRight_eq_div_pow]
  rw [← Nat.shiftLeft_add_eq_or_of_lt (by omega), ← Nat.shiftLeft_add_eq_or_of_lt (by omega),
    ← Nat.shiftLeft_add_eq_or_of_lt (by omega), Nat.shiftLeft_eq, Nat.shiftLeft_eq, Nat.shiftLeft_eq]
  omega

/-- The decoder reads every field of a descriptor back, and leaves what follows it. -/
theorem decode_descBytes (opc flg : Byte) (a b c d : U16) (u l t : U32) (n : U16) (rest : List Byte) :
    decode .desc (descBytes opc flg a b c d u l t n ++ rest) =
      match decodeFields opc flg a b c d u l t n with
      | .ok i => .ok (i, rest)
      | .error e => .error e := by
  cases h : decodeFields opc flg a b c d u l t n <;>
    simp [decode, descBytes, bytes16, bytes32, decodeDesc, h]

theorem length_descBytes (opc flg : Byte) (a b c d : U16) (u l t : U32) (n : U16) :
    (descBytes opc flg a b c d u l t n).length = 24 := by
  simp [descBytes, bytes16, bytes32]

end Sys2Proof
end

