-- ==== Sys2Proof/Laws/Sequencer.lean ====
section
/-! SUPPORT. What the micro-sequences hold, and which operations the decoder gives for a descriptor. -/

namespace Sys2Proof.Machine

/-- An entry of a marked run is an entry of the run, but for the mark on the last. -/
theorem mem_markLast (set : LutSet) (ms : List MicroStep) (m : MicroStep) (h : m ∈ markLast set ms) :
    m ∈ ms ∨ ∃ m' ∈ ms, m = { m' with loads := some set } := by
  induction ms with
  | nil => simp [markLast] at h
  | cons a ms ih =>
    cases ms with
    | nil => simp only [markLast, List.mem_singleton] at h; exact .inr ⟨a, by simp, h⟩
    | cons b ms =>
      simp only [markLast, List.mem_cons] at h
      rcases h with h | h
      · exact .inl (by simp [h])
      · rcases ih (by simpa [markLast] using h) with h | ⟨m', hm', h⟩
        · exact .inl (List.mem_cons_of_mem _ h)
        · exact .inr ⟨m', List.mem_cons_of_mem _ hm', h⟩

@[simp] theorem length_markLast (set : LutSet) (ms : List MicroStep) : (markLast set ms).length = ms.length := by
  induction ms with
  | nil => rfl
  | cons a ms ih => cases ms with
    | nil => rfl
    | cons b ms => simpa [markLast] using ih

@[simp] theorem length_microDl (bs : List Byte) : (microDl bs).length = bs.length := by simp [microDl]

@[simp] theorem length_microDn (k : Nat) (b : Byte) : (microDn k b).length = k := by simp [microDn]

@[simp] theorem length_microDbuf (a n : Nat) : (microDbuf a n).length = n := by simp [microDbuf]

@[simp] theorem length_microD16 (v : Nat) : (microD16 v).length = 2 := by simp [microD16, wire16]

@[simp] theorem length_commandBlock (n : CmdName) (bs : List Byte) : (commandBlock n bs).length = bs.length + 1 := by
  simp [commandBlock]

@[simp] theorem length_loadLut (cfg : Cfg) (set : LutSet) :
    (loadLut cfg set).length = 5 + ((lutTable cfg set).vcom.length + (lutTable cfg set).ww.length
      + (lutTable cfg set).bw.length + (lutTable cfg set).wb.length + (lutTable cfg set).bb.length) := by
  simp only [loadLut, length_markLast, lutOrder, List.flatMap_cons, List.flatMap_nil, List.length_append,
    length_commandBlock, lutBytes, List.length_nil]
  omega

@[simp] theorem length_sendResolution (cfg : Cfg) : (sendResolution cfg).length = 5 := by simp [sendResolution]

/-- A protocol operation has at least one micro-operation. -/
theorem microSeq_pos (cfg : Cfg) (i : Instr) (h : isProtocol i = true) : 0 < (microSeq cfg i).length := by
  cases i <;> simp_all [isProtocol, microSeq, resetSeq, initSeq, transferFrameSeq, partialWindowSeq, refreshSeq,
    clearFrameSeq, sleepSeq]

/-- Only a protocol operation has micro-operations. -/
theorem microSeq_of_not_protocol (cfg : Cfg) (i : Instr) (h : isProtocol i = false) : microSeq cfg i = [] := by
  cases i <;> simp_all [isProtocol, microSeq]

theorem loads_of_mem_loadLut (cfg : Cfg) (set : LutSet) (m : MicroStep) (h : m ∈ loadLut cfg set) :
    (∃ n, m.op = .cmd n) ∨ ∃ b, m.op = .prim (.data b) := by
  have key : ∀ m ∈ lutOrder.flatMap fun k => commandBlock (lutCmd k) (lutBytes (lutTable cfg set) k),
      (∃ n, m.op = .cmd n) ∨ ∃ b, m.op = .prim (.data b) := by
    intro m hm
    simp only [List.mem_flatMap, commandBlock, microDl, List.mem_cons, List.mem_map] at hm
    obtain ⟨k, _, rfl | ⟨b, _, rfl⟩⟩ := hm
    · exact .inl ⟨_, rfl⟩
    · exact .inr ⟨_, rfl⟩
  rcases mem_markLast _ _ _ h with h | ⟨m', h', rfl⟩
  · exact key m h
  · exact key m' h'

/-- The memory a micro-operation reads is in the buffer its operation owns. -/
theorem dataMem_owned (cfg : Cfg) (i : Instr) (m : MicroStep) (a : Nat) (hm : m ∈ microSeq cfg i)
    (ha : m.op = .prim (.dataMem a)) : ∃ r, ownedRange (some i) = some r ∧ r.1 ≤ a ∧ a < r.1 + r.2 := by
  have hl : ∀ set, m ∉ loadLut cfg set := fun set h => by
    rcases loads_of_mem_loadLut _ _ _ h with ⟨n, h⟩ | ⟨b, h⟩ <;> simp [h] at ha
  have hdn : ∀ k b, m ∉ microDn k b := fun k b h => by
    simp only [microDn, List.mem_replicate] at h; simp [h.2, microD] at ha
  have hdl : ∀ bs, m ∉ microDl bs := fun bs h => by
    simp only [microDl, List.mem_map] at h; obtain ⟨b, _, rfl⟩ := h; simp [microD] at ha
  have hcb : ∀ n bs, m ∉ commandBlock n bs := fun n bs h => by
    simp only [commandBlock, List.mem_cons] at h
    rcases h with rfl | h
    · simp [microC] at ha
    · exact hdl _ h
  have h16 : ∀ v, m ∉ microD16 v := fun v h => hdl _ h
  have hres : m ∉ sendResolution cfg := fun h => by
    simp only [sendResolution, List.mem_cons, List.mem_append] at h
    rcases h with rfl | h | h
    · simp [microC] at ha
    · exact h16 _ h
    · exact h16 _ h
  have hC : ∀ n, m ≠ microC n := fun n h => by simp [h, microC] at ha
  have hD : ∀ b, m ≠ microD b := fun b h => by simp [h, microD] at ha
  have hT : ∀ n, m ≠ microT n := fun n h => by simp [h, microT] at ha
  have hW : m ≠ microW := fun h => by simp [h, microW] at ha
  have hP : ∀ p l, m ≠ microP p l := fun p l h => by simp [h, microP] at ha
  have hbuf : ∀ u l, m ∈ microDbuf u l → u ≤ a ∧ a < u + l := fun u l h => by
    simp only [microDbuf, List.mem_map, List.mem_range] at h
    obtain ⟨k, hk, rfl⟩ := h
    simp only [MicroOp.prim.injEq, PrimOp.dataMem.injEq] at ha
    omega
  cases i <;> simp only [microSeq, resetSeq, initSeq, transferFrameSeq, partialWindowSeq, refreshSeq, clearFrameSeq,
    sleepSeq, List.mem_append, List.mem_cons, List.not_mem_nil, or_false, hl, hdn, hcb, h16, hres, hC, hD, hT, hW,
    hP, false_or, or_self] at hm
  case displayAndTransferFrame c u l => exact ⟨_, rfl, hbuf _ _ hm⟩
  case setPartialWindow x y w n p u l => exact ⟨_, rfl, hbuf _ _ hm⟩

/-- The only pin a micro-operation of its own drives is the reset pin (rule R197); the other two move in frames. -/
theorem pin_is_rst (cfg : Cfg) (i : Instr) (m : MicroStep) (p : PinName) (lvl : Level) (hm : m ∈ microSeq cfg i)
    (ha : m.op = .prim (.pin p lvl)) : p = .rst := by
  have hl : ∀ set, m ∉ loadLut cfg set := fun set h => by
    rcases loads_of_mem_loadLut _ _ _ h with ⟨n, h⟩ | ⟨b, h⟩ <;> simp [h] at ha
  have hdn : ∀ k b, m ∉ microDn k b := fun k b h => by
    simp only [microDn, List.mem_replicate] at h; simp [h.2, microD] at ha
  have hdl : ∀ bs, m ∉ microDl bs := fun bs h => by
    simp only [microDl, List.mem_map] at h; obtain ⟨b, _, rfl⟩ := h; simp [microD] at ha
  have hC : ∀ n, m ≠ microC n := fun n h => by simp [h, microC] at ha
  have hD : ∀ b, m ≠ microD b := fun b h => by simp [h, microD] at ha
  have hT : ∀ n, m ≠ microT n := fun n h => by simp [h, microT] at ha
  have hW : m ≠ microW := fun h => by simp [h, microW] at ha
  have hcb : ∀ n bs, m ∉ commandBlock n bs := fun n bs h => by
    simp only [commandBlock, List.mem_cons, hC, hdl, or_self] at h
  have h16 : ∀ v, m ∉ microD16 v := fun v h => hdl _ h
  have hres : m ∉ sendResolution cfg := fun h => by
    simp only [sendResolution, List.mem_cons, List.mem_append, hC, h16, or_self] at h
  have hbuf : ∀ u l, m ∉ microDbuf u l := fun u l h => by
    simp only [microDbuf, List.mem_map, List.mem_range] at h
    obtain ⟨k, hk, rfl⟩ := h
    simp at ha
  have hP : ∀ q l, m = microP q l → p = q := fun q l h => by
    simp only [h, microP, MicroOp.prim.injEq, PrimOp.pin.injEq] at ha
    exact ha.1.symm
  have hrst : m ∈ resetSeq cfg → p = .rst := fun h => by
    simp only [resetSeq, List.mem_cons, List.not_mem_nil, or_false, hT, or_false, false_or] at h
    rcases h with h | h <;> exact hP _ _ h
  cases i <;> simp only [microSeq, initSeq, transferFrameSeq, partialWindowSeq, refreshSeq, clearFrameSeq,
    sleepSeq, List.mem_append, List.mem_cons, List.not_mem_nil, or_false, hl, hdn, hcb, h16, hres, hC, hD, hT, hW,
    hbuf, or_self] at hm
  case reset => exact hrst hm
  case init => exact hrst hm

/-- Only the last micro-operation of a `LoadLut` is marked, and only three operations load a LUT set. -/
theorem loads_cases (cfg : Cfg) (i : Instr) (m : MicroStep) (set : LutSet) (hm : m ∈ microSeq cfg i)
    (h : m.loads = some set) :
    ((∃ c u l, i = .displayAndTransferFrame c u l) ∧ set = .full) ∨ (i = .displayFrame ∧ set = .full)
      ∨ (i = .displayFrameQuick ∧ set = .quick) := by
  have hl : ∀ set', m ∈ loadLut cfg set' → set = set' := fun set' h' => by
    rcases mem_markLast _ _ _ h' with h' | ⟨m', h', rfl⟩
    · simp only [List.mem_flatMap, commandBlock, microDl, List.mem_cons, List.mem_map] at h'
      obtain ⟨k, _, rfl | ⟨b, _, rfl⟩⟩ := h'
      · simp [microC] at h
      · simp [microD] at h
    · simpa using h.symm
  have hdn : ∀ k b, m ∉ microDn k b := fun k b h' => by
    simp only [microDn, List.mem_replicate] at h'; simp [h'.2, microD] at h
  have hdl : ∀ bs, m ∉ microDl bs := fun bs h' => by
    simp only [microDl, List.mem_map] at h'; obtain ⟨b, _, rfl⟩ := h'; simp [microD] at h
  have hcb : ∀ n bs, m ∉ commandBlock n bs := fun n bs h' => by
    simp only [commandBlock, List.mem_cons] at h'
    rcases h' with rfl | h'
    · simp [microC] at h
    · exact hdl _ h'
  have h16 : ∀ v, m ∉ microD16 v := fun v h' => hdl _ h'
  have hC : ∀ n, m ≠ microC n := fun n h' => by simp [h', microC] at h
  have hD : ∀ b, m ≠ microD b := fun b h' => by simp [h', microD] at h
  have hT : ∀ n, m ≠ microT n := fun n h' => by simp [h', microT] at h
  have hW : m ≠ microW := fun h' => by simp [h', microW] at h
  have hP : ∀ p l, m ≠ microP p l := fun p l h' => by simp [h', microP] at h
  have hres : m ∉ sendResolution cfg := fun h' => by
    simp only [sendResolution, List.mem_cons, List.mem_append, hC, h16, or_self] at h'
  have hbuf : ∀ u l, m ∉ microDbuf u l := fun u l h' => by
    simp only [microDbuf, List.mem_map, List.mem_range] at h'
    obtain ⟨k, hk, rfl⟩ := h'
    simp at h
  cases i <;> simp only [microSeq, resetSeq, initSeq, transferFrameSeq, partialWindowSeq, refreshSeq, clearFrameSeq,
    sleepSeq, List.mem_append, List.mem_cons, List.not_mem_nil, or_false, hdn, hcb, h16, hres, hC, hD, hT, hW,
    hP, hbuf, false_or, or_self] at hm
  case displayAndTransferFrame c u l => exact .inl ⟨⟨_, _, _, rfl⟩, hl _ hm⟩
  case displayFrame => exact .inr (.inl ⟨rfl, hl _ hm⟩)
  case displayFrameQuick => exact .inr (.inr ⟨rfl, hl _ hm⟩)

/-- A descriptor decodes to an operation, never to a command frame. -/
theorem decodeFields_desc (opc flg : Byte) (a b c d : U16) (u l t : U32) (n : U16) (i : Instr)
    (h : decodeFields opc flg a b c d u l t n = .ok i) :
    (∃ r, rasterRanges i = some r) ∨ isProtocol i = true := by
  unfold decodeFields at h
  obtain ⟨_, h⟩ | ⟨_, h⟩ := ite_eq_iff.1 h
  · cases h
  iterate 19
    obtain ⟨_, h⟩ | ⟨_, h⟩ := ite_eq_iff.1 h
    · cases h; first | exact .inl ⟨_, rfl⟩ | exact .inr rfl
  cases h

theorem decode_desc (bytes : List Byte) (i : Instr) (rest : List Byte) (h : decode .desc bytes = .ok (i, rest)) :
    (∃ r, rasterRanges i = some r) ∨ isProtocol i = true := by
  simp only [decode, decodeDesc] at h
  split at h
  · split at h
    · rename_i hd
      simp only [Except.ok.injEq, Prod.mk.injEq] at h
      obtain ⟨rfl, -⟩ := h
      exact decodeFields_desc _ _ _ _ _ _ _ _ _ _ _ hd
    · simp at h
  · simp at h

end Sys2Proof.Machine
end

