-- ==== Sys2Proof/Laws/Step.lean ====
section
/-! SUPPORT. What one micro-operation and one step do, said once in the terms of Safety.lean. -/

namespace Sys2Proof.Machine

/-- With nothing pending at the host's side the step is the block's own. -/
theorem step_of_no_host (s : State) (h : s.host = []) : step s = blockStep s := by simp [step, machineStep, h]

/-- At a micro-operation the step performs it, with the host's action taken that lets the block go first. -/
theorem step_of_atMicro (s : State) (i : Instr) (m : MicroStep) (h : AtMicro s i m) :
    step s = match m.op with
      | .cmd n => .next (State.sendFrame { s with host := s.host.tail } .low (s.cfg.cmd.byte n))
      | .prim p => runPrim p { s with host := s.host.tail } := by
  have hs : step s = blockStep { s with host := s.host.tail } := by
    rcases h.1 with hh | ⟨rest, hh⟩
    · cases s; cases hh; rfl
    · simp [step, machineStep, State.popHost, hh]
  exact hs.trans (blockStep_micro { s with host := s.host.tail } i m h.2.1 h.2.2)

/-- The end of a micro-operation, in one form. -/
theorem advance_eq_microDone (s : State) (i : Instr) (m : MicroStep) (h : s.op = some i)
    (hm : (microSeq s.cfg i)[s.ustep]? = some m) : s.advance = microDone s i m.loads := by
  have hsel : s.lutselAfter = selAfter s.lutsel m.loads := by
    simp only [State.lutselAfter, State.currentMicro, h, hm]
    rcases m.loads with _ | (_ | _) <;> rfl
  unfold microDone
  rw [← hsel]
  by_cases hlt : s.ustep + 1 < (microSeq s.cfg i).length
  · rw [advance_more s i h hlt]; simp only [hlt, if_true]
  · rw [advance_last s i h hlt]; simp only [hlt, if_false]
    cases i <;> rfl

/-- The state after a frame's events when the environment's next answer is listed. -/
theorem frameEvents_listed (s : State) (dc : Level) (b : Byte) (r : XferResult) (rest : List XferResult)
    (hx : s.xferIn = r :: rest) :
    s.nextXfer = r ∧ s.frameEvents dc b = { s with
      trace := s.trace ++ [.pin .cs .low, .pin .dc dc, .xfer [b] r, .pin .cs .high]
      pins := ⟨.high, dc.driven, s.pins.rst⟩
      xferIn := rest } := by
  have h1 : s.nextXfer = r := by simp [State.nextXfer, hx]
  exact ⟨h1, by rw [frameEvents_eq, h1]; simp [State.drawXfer, hx]⟩

/-- A poll that reads idle. -/
theorem pollOnce_high (s : State) (rest : List BusyLevel) (hb : s.busyIn = .high :: rest) :
    s.pollOnce = State.advance { s with trace := s.trace ++ [.busyRead .high], polln := 0, busyIn := rest } := by
  have e1 : s.nextBusy = .high := by simp [State.nextBusy, hb]
  have e2 : s.drawBusy = { s with busyIn := rest } := by simp [State.drawBusy, hb]
  unfold State.pollOnce
  simp only [e1, e2, if_true]
  rfl

/-- A poll that reads busy under the bound, whoever answers it. -/
theorem pollOnce_again (s : State) (hne : s.nextBusy ≠ .high)
    (hl : pollLimitReached s.cfg.pollLimit (s.pollStart + 1) = false) :
    s.pollOnce = { s.drawBusy with
      trace := s.trace ++ [.busyRead s.nextBusy, .delay s.cfg.tPoll]
      polln := s.pollStart + 1
      inWait := true } := by
  simp [State.pollOnce, hne, hl, State.log]

/-- A poll that reads busy under the bound, answered by the list. -/
theorem pollOnce_busy (s : State) (b : BusyLevel) (rest : List BusyLevel) (hb : s.busyIn = b :: rest) (hne : b ≠ .high)
    (hl : pollLimitReached s.cfg.pollLimit (s.pollStart + 1) = false) :
    s.pollOnce = { s with
      trace := s.trace ++ [.busyRead b, .delay s.cfg.tPoll]
      polln := s.pollStart + 1
      inWait := true
      busyIn := rest } := by
  have e1 : s.nextBusy = b := by simp [State.nextBusy, hb]
  have e2 : s.drawBusy = { s with busyIn := rest } := by simp [State.drawBusy, hb]
  rw [pollOnce_again s (e1 ▸ hne) hl, e1, e2]

/-- A poll that reads busy at the bound. -/
theorem pollOnce_limit (s : State) (b : BusyLevel) (rest : List BusyLevel) (hb : s.busyIn = b :: rest) (hne : b ≠ .high)
    (hl : pollLimitReached s.cfg.pollLimit (s.pollStart + 1) = true) :
    s.pollOnce = State.raise
      { s with
        trace := s.trace ++ [.busyRead b]
        polln := s.pollStart + 1
        inWait := true
        busyIn := rest } .deviceNotResponding := by
  have e1 : s.nextBusy = b := by simp [State.nextBusy, hb]
  have e2 : s.drawBusy = { s with busyIn := rest } := by simp [State.drawBusy, hb]
  unfold State.pollOnce
  simp [e1, hne, hl, e2, State.log]

/-- What one micro-operation appends to the trace (rules R33, R76). -/
def WholeEvents (evs : List Event) : Prop :=
  evs = [] ∨ (∃ lvl, evs = [.pin .rst lvl]) ∨ (∃ dc b r, evs = frameTrace dc b r) ∨ (∃ ms, evs = [.delay ms])
    ∨ (∃ b, evs = [.busyRead b]) ∨ (∃ b ms, b ≠ .high ∧ evs = [.busyRead b, .delay ms])

/-- The fields a micro-operation leaves alone until it ends. -/
def SamePlace (u s : State) : Prop :=
  u.cfg = s.cfg ∧ u.mem = s.mem ∧ u.mode = s.mode ∧ u.lutsel = s.lutsel ∧ u.result = s.result ∧ u.errinfo = s.errinfo
    ∧ u.faulted = s.faulted ∧ u.opi = s.opi ∧ u.ustep = s.ustep ∧ u.op = s.op ∧ u.host = s.host ∧ u.obs = s.obs

theorem SamePlace.refl (s : State) : SamePlace s s := ⟨rfl, rfl, rfl, rfl, rfl, rfl, rfl, rfl, rfl, rfl, rfl, rfl⟩

theorem samePlace_frameEvents (s : State) (dc : Level) (b : Byte) : SamePlace (s.frameEvents dc b) s := by
  simp [SamePlace]

/-- A micro-operation: it appends whole events, the pins mirror them, and then it ends, faults, or is a wait that goes
on. -/
theorem blockStep_effect (s t : State) (h : blockStep s = .next t) :
    (s.op = none ∧ t = s)
      ∨ ∃ i m evs u, s.op = some i ∧ (microSeq s.cfg i)[s.ustep]? = some m ∧ SamePlace u s
        ∧ u.trace = s.trace ++ evs ∧ u.pins = pinsAfter s.pins evs ∧ WholeEvents evs
        ∧ (t = microDone u i m.loads ∨ (∃ f, f.isRunTime = true ∧ t = u.raise f)
          ∨ (t = u ∧ m.op = .prim .wait ∧ u.inWait = true)) := by
  rcases blockStep_next s t h with h | ⟨i, m, hop, hm, hc⟩
  · exact .inl h
  refine .inr ⟨i, m, ?_⟩
  have done : ∀ u, SamePlace u s → u.advance = microDone u i m.loads := fun u hu => by
    obtain ⟨hcfg, -, -, -, -, -, -, -, hus, huo, -, -⟩ := hu
    exact advance_eq_microDone u i m (huo.trans hop) (by rw [hcfg, hus]; exact hm)
  have frame : ∀ dc b, t = s.sendFrame dc b → ∃ evs u, s.op = some i ∧ (microSeq s.cfg i)[s.ustep]? = some m
      ∧ SamePlace u s ∧ u.trace = s.trace ++ evs ∧ u.pins = pinsAfter s.pins evs ∧ WholeEvents evs
      ∧ (t = microDone u i m.loads ∨ (∃ f, f.isRunTime = true ∧ t = u.raise f)
          ∨ (t = u ∧ m.op = .prim .wait ∧ u.inWait = true)) := by
    intro dc b ht
    have hs := samePlace_frameEvents s dc b
    refine ⟨frameTrace dc b s.nextXfer, s.frameEvents dc b, hop, hm, hs, ?_, ?_, .inr (.inr (.inl ⟨_, _, _, rfl⟩)), ?_⟩
    · rw [frameEvents_eq]; rfl
    · rw [frameEvents_eq]; simp [frameTrace, pinsAfter, Pins.drive, Level.driven]
    · rcases sendFrame_cases s dc b with h | ⟨e, h⟩
      · exact .inl (by rw [ht, h, done _ hs])
      · exact .inr (.inl ⟨_, rfl, ht.trans h⟩)
  rcases hc with ⟨n, -, ht⟩ | ⟨p, l, hn, rfl⟩ | ⟨b, -, ht⟩ | ⟨a, -, -, ht⟩ | ⟨ms, -, rfl⟩ | ⟨hn, rfl⟩
  · exact frame _ _ ht
  · obtain rfl := pin_is_rst _ _ _ _ _ (List.mem_of_getElem? hm) hn
    have hs : SamePlace (s.drivePin .rst l) s := SamePlace.refl s
    exact ⟨[.pin .rst l], _, hop, hm, hs, rfl, rfl, .inr (.inl ⟨_, rfl⟩), .inl (done _ hs)⟩
  · exact frame _ _ ht
  · exact frame _ _ ht
  · have hs : SamePlace (s.log [.delay ms]) s := SamePlace.refl s
    exact ⟨[.delay ms], _, hop, hm, hs, rfl, rfl, .inr (.inr (.inr (.inl ⟨_, rfl⟩))), .inl (done _ hs)⟩
  · unfold State.pollOnce
    by_cases hl : s.nextBusy = .high
    · simp only [hl, if_true]
      exact ⟨[.busyRead .high], _, hop, hm, by simp [SamePlace], by simp, by simp [pinsAfter],
        .inr (.inr (.inr (.inr (.inl ⟨_, rfl⟩)))), .inl (done _ (by simp [SamePlace]))⟩
    · simp only [hl, if_false]
      split
      · exact ⟨[.busyRead s.nextBusy], _, hop, hm, by simp [SamePlace], by simp, by simp [pinsAfter],
          .inr (.inr (.inr (.inr (.inl ⟨_, rfl⟩)))), .inr (.inl ⟨_, rfl, rfl⟩)⟩
      · exact ⟨[.busyRead s.nextBusy, .delay s.cfg.tPoll], _, hop, hm, by simp [SamePlace], by simp, by simp [pinsAfter],
          .inr (.inr (.inr (.inr (.inr ⟨_, _, hl, rfl⟩)))), .inr (.inr ⟨rfl, hn, rfl⟩)⟩

/-- The fields a step leaves alone when it neither starts nor ends anything: the position and the status registers but
`PINS` and `POLLN`. -/
def SameRegs (u s : State) : Prop :=
  u.cfg = s.cfg ∧ u.mode = s.mode ∧ u.lutsel = s.lutsel ∧ u.result = s.result ∧ u.errinfo = s.errinfo
    ∧ u.faulted = s.faulted ∧ u.opi = s.opi ∧ u.ustep = s.ustep ∧ u.op = s.op

theorem SameRegs.refl (s : State) : SameRegs s s := ⟨rfl, rfl, rfl, rfl, rfl, rfl, rfl, rfl, rfl⟩

theorem SamePlace.sameRegs {u s : State} (h : SamePlace u s) : SameRegs u s := by
  obtain ⟨h1, -, h2, h3, h4, h5, h6, h7, h8, h9, -, -⟩ := h
  exact ⟨h1, h2, h3, h4, h5, h6, h7, h8, h9⟩

/-- Everything one step can do to the position and the status registers: nothing; take a fault, at run time exactly when
an operation is in progress; finish a rasterizer operation; start a protocol operation; or complete a
micro-operation. -/
theorem step_cases (s t : State) (h : step s = .next t) :
    SameRegs t s
      ∨ (∃ u f, t = u.raise f ∧ SameRegs u s ∧ (f.isRunTime = true ↔ s.op ≠ none))
      ∨ (∃ u, t = u.finishOk ∧ SameRegs u s ∧ s.op = none)
      ∨ (∃ i u, t = u.begin i ∧ s.op = none ∧ isProtocol i = true
        ∧ ((anyMode i = true ∧ ∃ v, u = v.entryReset ∧ SameRegs v s) ∨ (anyMode i = false ∧ SameRegs u s ∧ Accepts s i)))
      ∨ (∃ i m u, t = microDone u i m.loads ∧ SameRegs u s ∧ s.op = some i
        ∧ (microSeq s.cfg i)[s.ustep]? = some m) := by
  have blk : ∀ s t, blockStep s = .next t → SameRegs t s
      ∨ (∃ u f, t = u.raise f ∧ SameRegs u s ∧ (f.isRunTime = true ↔ s.op ≠ none))
      ∨ (∃ i m u, t = microDone u i m.loads ∧ SameRegs u s ∧ s.op = some i
        ∧ (microSeq s.cfg i)[s.ustep]? = some m) := by
    intro s t h
    rcases blockStep_effect s t h with ⟨-, rfl⟩ | ⟨i, m, evs, u, hop, hm, hu, -, -, -, rfl | ⟨f, hf, rfl⟩ | ⟨rfl, -, -⟩⟩
    · exact .inl (SameRegs.refl _)
    · exact .inr (.inr ⟨i, m, u, rfl, hu.sameRegs, hop, hm⟩)
    · exact .inr (.inl ⟨u, f, rfl, hu.sameRegs, by simp [hf, hop]⟩)
    · exact .inl hu.sameRegs
  rcases step_next s t h with ⟨-, h⟩ | ⟨-, h⟩ | ⟨bytes, rest, -, hop, h⟩ | ⟨o, rfl⟩ | ⟨a, v, rest, -, -, -, rfl⟩
  · rcases blk s t h with h | h | h
    · exact .inl h
    · exact .inr (.inl h)
    · exact .inr (.inr (.inr (.inr h)))
  · rcases blk s.popHost t h with h | h | h
    · exact .inl h
    · exact .inr (.inl h)
    · exact .inr (.inr (.inr (.inr h)))
  · obtain ⟨-, rfl | ⟨i, r, hd, he⟩⟩ := issueBytes_next _ _ _ h
    · exact .inr (.inl ⟨s.popHost, .illegalOp, rfl, SameRegs.refl s, by simp [hop, OpFault.isRunTime]⟩)
    · rcases decode_desc _ _ _ hd with ⟨⟨u, l, text⟩, hr⟩ | hp
      · obtain ⟨bufa, bufl, draw, -, -, hx, -⟩ := exec_raster _ _ _ _ hr
        rw [hx] at he
        obtain ⟨-, ⟨f, hf, rfl⟩ | ⟨-, -, -, rfl⟩⟩ := rasterOp_next _ _ _ _ _ _ he
        · refine .inr (.inl ⟨s.popHost, f, rfl, SameRegs.refl s, ?_⟩)
          rcases hf with rfl | rfl <;> simp [hop, OpFault.isRunTime]
        · exact .inr (.inr (.inl ⟨_, rfl, SameRegs.refl s, hop⟩))
      · obtain ⟨cs, e, hx, hf, hacc, hent⟩ := exec_protocol _ hp
        rw [hx] at he
        obtain ⟨-, ⟨f, hc, rfl⟩ | ⟨hc, rfl⟩⟩ := protocolOp_next _ _ _ _ _ he
        · exact .inr (.inl ⟨s.popHost, f, rfl, SameRegs.refl s, by simp [hop, (hf _ _ hc).1]⟩)
        · refine .inr (.inr (.inr (.inl ⟨i, _, rfl, hop, hp, ?_⟩)))
          rcases hent with ⟨ha, rfl⟩ | ⟨ha, rfl⟩
          · exact .inl ⟨ha, s.popHost, rfl, SameRegs.refl s⟩
          · refine .inr ⟨ha, SameRegs.refl s, ?_⟩
            have := (hacc _).1 hc
            cases i <;> exact this
  · exact .inl (SameRegs.refl s)
  · exact .inl (SameRegs.refl s)

end Sys2Proof.Machine
end

