-- ==== Sys2Proof/Laws/Lut.lean ====
section
/-! SUPPORT. Where a micro-sequence completes the loading of a LUT set: the marks of `loadLut` against the positions and
frames that Safety.lean counts. -/

namespace Sys2Proof.Machine

theorem markLast_concat (set : LutSet) (ms : List MicroStep) (m : MicroStep) :
    markLast set (ms ++ [m]) = ms ++ [{ m with loads := some set }] := by
  induction ms with
  | nil => rfl
  | cons a ms ih =>
    cases ms with
    | nil => simp [markLast]
    | cons b ms => simp only [List.cons_append] at ih ⊢; rw [markLast, ih]; simp

theorem loads_commandBlock (n : CmdName) (bs : List Byte) (m : MicroStep) (h : m ∈ commandBlock n bs) :
    m.loads = none := by
  simp only [commandBlock, List.mem_cons, microDl, List.mem_map] at h
  rcases h with rfl | ⟨_, _, rfl⟩ <;> rfl

/-- The last micro-operation of `LoadLut`, without its mark. -/
def lastLutMicro (t : LutTable) : MicroStep :=
  match t.bb.getLast? with
  | some b => microD b
  | none => microC .lutBlackToBlack

/-- `LoadLut` is a run without marks and then its marked last micro-operation. -/
theorem loadLut_eq (cfg : Cfg) (set : LutSet) :
    ∃ pre : List MicroStep,
      loadLut cfg set = pre ++ [{ lastLutMicro (lutTable cfg set) with loads := some set }]
        ∧ (∀ m ∈ pre, m.loads = none)
        ∧ pre.length = 4 + (lutTable cfg set).vcom.length + (lutTable cfg set).ww.length
          + (lutTable cfg set).bw.length + (lutTable cfg set).wb.length + (lutTable cfg set).bb.length := by
  generalize ht : lutTable cfg set = t
  obtain ⟨v, w1, w2, w3, bb⟩ := t
  obtain ⟨pre, h1, h2, h3⟩ : ∃ pre : List MicroStep,
      commandBlock .lutBlackToBlack bb = pre ++ [lastLutMicro ⟨v, w1, w2, w3, bb⟩]
        ∧ (∀ m ∈ pre, m.loads = none) ∧ pre.length = bb.length := by
    rcases List.eq_nil_or_concat bb with rfl | ⟨l, b, rfl⟩
    · exact ⟨[], rfl, by simp, rfl⟩
    · exact ⟨commandBlock .lutBlackToBlack l, by simp [commandBlock, microDl, lastLutMicro],
        loads_commandBlock _ _, by simp [commandBlock, microDl]⟩
  refine ⟨commandBlock .lutForVcom v ++ commandBlock .lutWhiteToWhite w1 ++ commandBlock .lutBlackToWhite w2
    ++ commandBlock .lutWhiteToBlack w3 ++ pre, ?_, fun m hm => ?_, ?_⟩
  · rw [loadLut, ht]
    simp only [lutOrder, List.flatMap_cons, List.flatMap_nil, lutCmd, lutBytes, List.append_nil, h1]
    simp only [← List.append_assoc]
    rw [markLast_concat]
  · simp only [List.mem_append] at hm
    rcases hm with (((h | h) | h) | h) | h
    · exact loads_commandBlock _ _ m h
    · exact loads_commandBlock _ _ m h
    · exact loads_commandBlock _ _ m h
    · exact loads_commandBlock _ _ m h
    · exact h2 m h
  · simp [commandBlock, microDl, h3]; omega

/-- The events of a micro-operation answered `Ok` are the frame's. -/
def SendsFrame (cfg : Cfg) (m : MicroStep) (frame : List Event) : Prop :=
  (∃ b, m.op = .prim (.data b) ∧ frame = frameTrace .high b .ok)
    ∨ ∃ n, m.op = .cmd n ∧ frame = frameTrace .low (cfg.cmd.byte n) .ok

/-- A micro-sequence has exactly one mark, at the position and with the frame of `e`, and goes on after it. -/
def MarkedAt (cfg : Cfg) (e : LutEnd) (ms : List MicroStep) : Prop :=
  ∃ pre post set m, ms = pre ++ m :: post ∧ post ≠ [] ∧ pre.length = e.pos ∧ m.loads = some set
    ∧ e.sel = lutSelOf set ∧ (∀ m ∈ pre ++ post, m.loads = none) ∧ SendsFrame cfg m e.frame

/-- A sequence that loads one LUT set after `start` micro-operations and goes on. -/
theorem markedAt_loadLut (cfg : Cfg) (set : LutSet) (a b : List MicroStep) (hb : b ≠ [])
    (hn : ∀ m ∈ a ++ b, m.loads = none) (start : Nat) (hs : a.length = start) :
    MarkedAt cfg (lutEndFrom cfg (lutSelOf set) (lutTable cfg set) start) (a ++ loadLut cfg set ++ b) := by
  obtain ⟨pre, h1, h2, h3⟩ := loadLut_eq cfg set
  refine ⟨a ++ pre, b, set, { lastLutMicro (lutTable cfg set) with loads := some set }, by rw [h1]; simp, hb, ?_, rfl,
    rfl, fun m hm => ?_, ?_⟩
  · simp [lutEndFrom, h3]; omega
  · simp only [List.mem_append] at hm hn
    rcases hm with (h | h) | h
    · exact hn m (.inl h)
    · exact h2 m h
    · exact hn m (.inr h)
  · simp only [SendsFrame, lutEndFrom, lastLutFrame, lastLutMicro]
    cases (lutTable cfg set).bb.getLast? with
    | some b => exact .inl ⟨b, rfl, rfl⟩
    | none => exact .inr ⟨_, rfl, rfl⟩

theorem loads_none_of_all (ms : List MicroStep) (h : ms.all (fun m => m.loads.isNone) = true) :
    ∀ m ∈ ms, m.loads = none := by simpa using h

/-- An operation that loads a LUT set has its mark where Safety.lean counts it. -/
theorem markedAt_microSeq (cfg : Cfg) (i : Instr) (e : LutEnd) (h : lutEnd cfg i = some e) :
    MarkedAt cfg e (microSeq cfg i) := by
  cases i <;> simp only [lutEnd, Option.some.injEq, reduceCtorEq] at h <;> subst h
  · rename_i c u l
    refine markedAt_loadLut cfg .full (sendResolution cfg ++ commandBlock .vcomAndDataIntervalSetting cfg.cdiData
      ++ (microC .dataStartTransmission1 :: microDn (planeBytes cfg) (colorByte cfg c)) ++ [microT cfg.tShort]
      ++ (microC .dataStartTransmission2 :: microDbuf u.toNat l.toNat) ++ [microT cfg.tShort]) _ (by simp)
      (loads_none_of_all _ ?_) _ ?_
    · simp [sendResolution, commandBlock, microDl, microD16, microDn, microDbuf, microC, microD, microT, microW]
    · simp [sendResolution, commandBlock, microDl, microD16, wire16, microDn, microDbuf]; omega
  · exact markedAt_loadLut cfg .full [] _ (by simp) (loads_none_of_all _ rfl) 0 rfl
  · exact markedAt_loadLut cfg .quick [] _ (by simp) (loads_none_of_all _ rfl) 0 rfl

/-- An operation that loads no LUT set has no mark. -/
theorem loads_none_of_lutEnd (cfg : Cfg) (i : Instr) (h : lutEnd cfg i = none) : ∀ m ∈ microSeq cfg i, m.loads = none := by
  apply loads_none_of_all
  cases i <;> simp only [lutEnd, reduceCtorEq] at h <;>
    simp [microSeq, resetSeq, initSeq, partialWindowSeq, clearFrameSeq, sleepSeq, sendResolution, commandBlock, microDl,
      microD16, microDn, microDbuf, microC, microD, microT, microW, microP]

/-- Everything about the mark of one micro-operation: it has none and does not stand at the end of a `LoadLut`, or it
stands there, is not the last of its operation and sends the completing frame. -/
theorem loads_at (cfg : Cfg) (i : Instr) (k : Nat) (m : MicroStep) (hm : (microSeq cfg i)[k]? = some m) :
    (m.loads = none ∧ ∀ e, lutEnd cfg i = some e → e.pos ≠ k)
      ∨ ∃ e set, lutEnd cfg i = some e ∧ e.pos = k ∧ m.loads = some set ∧ e.sel = lutSelOf set
        ∧ k + 1 < (microSeq cfg i).length ∧ SendsFrame cfg m e.frame := by
  cases he : lutEnd cfg i with
  | none => exact .inl ⟨loads_none_of_lutEnd cfg i he m (List.mem_of_getElem? hm), by simp⟩
  | some e =>
    obtain ⟨pre, post, set, m', h1, h2, h3, h4, h5, h6, h7⟩ := markedAt_microSeq cfg i e he
    rw [h1] at hm ⊢
    by_cases hk : k = e.pos
    · subst hk
      rw [← h3, List.getElem?_append_right (Nat.le_refl _)] at hm
      simp at hm; subst hm
      refine .inr ⟨e, set, rfl, rfl, h4, h5, ?_, h7⟩
      have := List.length_pos_iff.2 h2
      simp [h3]; omega
    · refine .inl ⟨h6 m ?_, fun e' h => by cases h; exact fun h => hk h.symm⟩
      rcases Nat.lt_or_ge k pre.length with hl | hl
      · rw [List.getElem?_append_left hl] at hm; exact List.mem_append_left _ (List.mem_of_getElem? hm)
      · rw [List.getElem?_append_right hl] at hm
        obtain ⟨j, hj⟩ : ∃ j, k - pre.length = j + 1 := ⟨k - pre.length - 1, by omega⟩
        rw [hj] at hm; simp at hm
        exact List.mem_append_right _ (List.mem_of_getElem? hm)

end Sys2Proof.Machine
end

