-- ==== Sys2Proof/Laws/PerInstr.lean ====
section
/-! SUPPORT. The families of statements about every instruction, one lemma per constructor (LAWS.json). -/

namespace Sys2Proof.Laws.EncodedSize

/-- An instruction's encoding has the length of its format: 24 bytes for a descriptor (rule R90), one byte for a command
frame (rules R100, R121). -/
def Statement (i : Instr) : Prop :=
  (encode i).length = match i.format with
    | .desc => 24
    | .wireCmd => 1

theorem clear (color : Color) (bufa : U32) (bufl : U32) :
    Statement (.clear color bufa bufl) := length_descBytes _ _ _ _ _ _ _ _ _ _

theorem drawPixel (x : U16) (y : U16) (color : Color) (bufa : U32) (bufl : U32) :
    Statement (.drawPixel x y color bufa bufl) := length_descBytes _ _ _ _ _ _ _ _ _ _

theorem drawLine (x0 : U16) (y0 : U16) (x1 : U16) (y1 : U16) (color : Color) (bufa : U32) (bufl : U32) :
    Statement (.drawLine x0 y0 x1 y1 color bufa bufl) := length_descBytes _ _ _ _ _ _ _ _ _ _

theorem drawHline (x : U16) (y : U16) (w : U16) (color : Color) (bufa : U32) (bufl : U32) :
    Statement (.drawHline x y w color bufa bufl) := length_descBytes _ _ _ _ _ _ _ _ _ _

theorem drawVline (x : U16) (y : U16) (l : U16) (color : Color) (bufa : U32) (bufl : U32) :
    Statement (.drawVline x y l color bufa bufl) := length_descBytes _ _ _ _ _ _ _ _ _ _

theorem drawRect (x0 : U16) (y0 : U16) (x1 : U16) (y1 : U16) (color : Color) (bufa : U32) (bufl : U32) :
    Statement (.drawRect x0 y0 x1 y1 color bufa bufl) := length_descBytes _ _ _ _ _ _ _ _ _ _

theorem drawFrect (x0 : U16) (y0 : U16) (x1 : U16) (y1 : U16) (color : Color) (bufa : U32) (bufl : U32) :
    Statement (.drawFrect x0 y0 x1 y1 color bufa bufl) := length_descBytes _ _ _ _ _ _ _ _ _ _

theorem drawCircle (cx : U16) (cy : U16) (r : U16) (color : Color) (bufa : U32) (bufl : U32) :
    Statement (.drawCircle cx cy r color bufa bufl) := length_descBytes _ _ _ _ _ _ _ _ _ _

theorem drawFcircle (cx : U16) (cy : U16) (r : U16) (color : Color) (bufa : U32) (bufl : U32) :
    Statement (.drawFcircle cx cy r color bufa bufl) := length_descBytes _ _ _ _ _ _ _ _ _ _

theorem drawString (x0 : U16) (y0 : U16) (color : Color) (bufa : U32) (bufl : U32) (txta : U32) (txtl : U16) :
    Statement (.drawString x0 y0 color bufa bufl txta txtl) := length_descBytes _ _ _ _ _ _ _ _ _ _

theorem reset : Statement .reset := length_descBytes _ _ _ _ _ _ _ _ _ _

theorem init : Statement .init := length_descBytes _ _ _ _ _ _ _ _ _ _

theorem displayAndTransferFrame (color : Color) (bufa : U32) (bufl : U32) :
    Statement (.displayAndTransferFrame color bufa bufl) := length_descBytes _ _ _ _ _ _ _ _ _ _

theorem setPartialWindow (x : U16) (y : U16) (w : U16) (l : U16) (plane : Plane) (bufa : U32) (bufl : U32) :
    Statement (.setPartialWindow x y w l plane bufa bufl) := length_descBytes _ _ _ _ _ _ _ _ _ _

theorem displayFrame : Statement .displayFrame := length_descBytes _ _ _ _ _ _ _ _ _ _

theorem displayFrameQuick : Statement .displayFrameQuick := length_descBytes _ _ _ _ _ _ _ _ _ _

theorem clearFrame (color : Color) :
    Statement (.clearFrame color) := length_descBytes _ _ _ _ _ _ _ _ _ _

theorem sleep : Statement .sleep := length_descBytes _ _ _ _ _ _ _ _ _ _

theorem waitUntilIdle : Statement .waitUntilIdle := length_descBytes _ _ _ _ _ _ _ _ _ _

theorem panelSetting : Statement .panelSetting := rfl

theorem powerSetting : Statement .powerSetting := rfl

theorem powerOff : Statement .powerOff := rfl

theorem powerOn : Statement .powerOn := rfl

theorem boosterSoftStart : Statement .boosterSoftStart := rfl

theorem deepSleep : Statement .deepSleep := rfl

theorem dataStartTransmission1 : Statement .dataStartTransmission1 := rfl

theorem displayRefresh : Statement .displayRefresh := rfl

theorem dataStartTransmission2 : Statement .dataStartTransmission2 := rfl

theorem lutForVcom : Statement .lutForVcom := rfl

theorem lutWhiteToWhite : Statement .lutWhiteToWhite := rfl

theorem lutBlackToWhite : Statement .lutBlackToWhite := rfl

theorem lutWhiteToBlack : Statement .lutWhiteToBlack := rfl

theorem lutBlackToBlack : Statement .lutBlackToBlack := rfl

theorem pllControl : Statement .pllControl := rfl

theorem vcomAndDataIntervalSetting : Statement .vcomAndDataIntervalSetting := rfl

theorem resolutionSetting : Statement .resolutionSetting := rfl

theorem vcmDcSetting : Statement .vcmDcSetting := rfl

theorem partialWindow : Statement .partialWindow := rfl

theorem partialIn : Statement .partialIn := rfl

theorem partialOut : Statement .partialOut := rfl

end Sys2Proof.Laws.EncodedSize
end

