-- ==== Sys2Proof/Laws/Run.lean ====
section
/-! SUPPORT. The laws of a run of several steps. -/

namespace Sys2Proof.Machine

@[simp] theorem runSteps_zero (s : State) : runSteps 0 s = .next s := rfl

/-- A run whose first step answers a next state goes on from it. -/
theorem runSteps_succ (n : Nat) (s t : State) (h : step s = .next t) : runSteps (n + 1) s = runSteps n t := by
  simp [runSteps, h]

/-- One step. -/
theorem runSteps_one (s t : State) (h : step s = .next t) : runSteps 1 s = .next t := by
  rw [show 1 = 0 + 1 from rfl, runSteps_succ _ _ _ h, runSteps_zero]

/-- A run of `a + b` steps is a run of `a` steps and then one of `b`. -/
theorem runSteps_add (a b : Nat) (s t : State) (h : runSteps a s = .next t) : runSteps (a + b) s = runSteps b t := by
  induction a generalizing s with
  | zero =>
    simp only [runSteps_zero, Host.Outcome.next.injEq] at h
    rw [h, Nat.zero_add]
  | succ a ih =>
    rw [Nat.add_right_comm]
    cases hs : step s with
    | next u => rw [runSteps_succ _ _ _ hs] at h ⊢; exact ih u h
    | fault f => simp [runSteps, hs] at h
    | refused r => simp [runSteps, hs] at h

/-- The host's run of the machine is `runSteps`. -/
theorem core_run_eq (n : Nat) (s : State) : Host.Core.run core n s = runSteps n s := by
  induction n generalizing s with
  | zero => rfl
  | succ n ih =>
    have hs : core.step s = step s := rfl
    simp only [Host.Core.run, runSteps, hs]
    cases step s with
    | next t => exact ih t
    | fault f => rfl
    | refused r => rfl

/-! The outcomes of a run. -/

/-- A run that has ended takes no step. -/
theorem runStatus_done (n : Nat) (s : State) (h : s.programDone = true) : runStatus n s = .completed s.endState := by
  cases n <;> simp [runStatus, h]

/-- One step of a run that has not ended. -/
theorem runStatus_succ (n : Nat) (s t : State) (hd : s.programDone = false) (h : step s = .next t) :
    runStatus (n + 1) s = if faultFinish s t then .stoppedAtFault t.endState else runStatus n t := by
  simp [runStatus, hd, h]

/-- A run that is still going after `a` steps goes on from where it is. -/
theorem runStatus_add (a b : Nat) (s t : State) (h : runStatus a s = .going t) : runStatus (a + b) s = runStatus b t := by
  induction a generalizing s with
  | zero =>
    cases hd : s.programDone <;> simp [runStatus, hd] at h
    rw [h, Nat.zero_add]
  | succ a ih =>
    rw [Nat.add_right_comm]
    cases hd : s.programDone with
    | true => simp [runStatus, hd] at h
    | false =>
      cases hs : step s with
      | fault f => simp [runStatus, hd, hs] at h
      | refused r => simp [runStatus, hd, hs] at h
      | next u =>
        rw [runStatus_succ _ _ _ hd hs] at h ⊢
        split at h
        · simp at h
        · rename_i hf; simp only [hf]; exact ih u h

/-- A run that has ended has ended the same way at every later count of steps. -/
theorem runStatus_stable (a b : Nat) (s : State) (h : ∀ t, runStatus a s ≠ .going t) :
    runStatus (a + b) s = runStatus a s := by
  induction a generalizing s with
  | zero =>
    cases hd : s.programDone with
    | true => rw [runStatus_done _ _ hd, runStatus_done _ _ hd]
    | false => exact absurd (by simp [runStatus, hd]) (h s)
  | succ a ih =>
    rw [Nat.add_right_comm]
    cases hd : s.programDone with
    | true => rw [runStatus_done _ _ hd, runStatus_done _ _ hd]
    | false =>
      cases hs : step s with
      | fault f => simp [runStatus, hd, hs]
      | refused r => simp [runStatus, hd, hs]
      | next u =>
        rw [runStatus_succ _ _ _ hd hs] at h ⊢
        rw [runStatus_succ _ _ _ hd hs]
        split
        · rfl
        · rename_i hf; exact ih u fun t ht => h t (by simp [hf, ht])

end Sys2Proof.Machine
end

