-- ==== Sys2Proof/Machine/Assembler.lean ====
section
/-! DEFINITION. The textual form of an operation (spec/30_encoding.md rule R98), as the spec's vectors and programs print
it. No step of the machine uses it. -/

namespace Sys2Proof.Machine

/-- A number of at least four hexadecimal digits, as the examples of rule R98 write an address. -/
def hexAddr (n : Nat) : String :=
  let digits := Nat.toDigits 16 n
  "0x" ++ String.ofList (List.replicate (4 - digits.length) '0' ++ digits)

/-- The buffer as `@addr+len` (rule R98). -/
def asmBuffer (bufa bufl : U32) : String := "@" ++ hexAddr bufa.toNat ++ "+" ++ toString bufl.toNat

/-- The colour's word (rule R98). -/
def asmColor : Color → String
  | .white => "white"
  | .black => "black"

/-- The plane's word (rule R98). -/
def asmPlane : Plane → String
  | .old => "old"
  | .new => "new"

/-- The mnemonic, then the operands separated by commas (rule R98). -/
def asmLine (mnemonic : String) (numbers : List U16) (words : List String) : String :=
  mnemonic ++ " " ++ ", ".intercalate (numbers.map (fun v => toString v.toNat) ++ words)

/-- The textual form of an operation; `text` holds the bytes of its text range, one ASCII character each. A command
frame is no operation and has none. -/
def asm (text : List Byte) : Instr → Option String
  | .clear c u l => some (asmLine "clear" [] [asmColor c] ++ " " ++ asmBuffer u l)
  | .drawPixel x y c u l => some (asmLine "draw_pixel" [x, y] [asmColor c] ++ " " ++ asmBuffer u l)
  | .drawLine a b c d k u l => some (asmLine "draw_line" [a, b, c, d] [asmColor k] ++ " " ++ asmBuffer u l)
  | .drawHline x y w c u l => some (asmLine "draw_hline" [x, y, w] [asmColor c] ++ " " ++ asmBuffer u l)
  | .drawVline x y n c u l => some (asmLine "draw_vline" [x, y, n] [asmColor c] ++ " " ++ asmBuffer u l)
  | .drawRect a b c d k u l => some (asmLine "draw_rect" [a, b, c, d] [asmColor k] ++ " " ++ asmBuffer u l)
  | .drawFrect a b c d k u l => some (asmLine "draw_frect" [a, b, c, d] [asmColor k] ++ " " ++ asmBuffer u l)
  | .drawCircle x y r c u l => some (asmLine "draw_circle" [x, y, r] [asmColor c] ++ " " ++ asmBuffer u l)
  | .drawFcircle x y r c u l => some (asmLine "draw_fcircle" [x, y, r] [asmColor c] ++ " " ++ asmBuffer u l)
  | .drawString x y c u l t _ =>
    some (asmLine "draw_string" [x, y] [asmColor c] ++ " " ++ asmBuffer u l ++ " \""
      ++ String.ofList (text.map fun b => Char.ofNat b.toNat) ++ "\"@" ++ hexAddr t.toNat)
  | .reset => some "reset"
  | .init => some "init"
  | .displayAndTransferFrame c u l =>
    some (asmLine "display_and_transfer_frame" [] [asmColor c] ++ " " ++ asmBuffer u l)
  | .setPartialWindow x y w n p u l =>
    some (asmLine "set_partial_window" [x, y, w, n] [asmPlane p] ++ " " ++ asmBuffer u l)
  | .displayFrame => some "display_frame"
  | .displayFrameQuick => some "display_frame_quick"
  | .clearFrame c => some (asmLine "clear_frame" [] [asmColor c])
  | .sleep => some "sleep"
  | .waitUntilIdle => some "wait_until_idle"
  | .panelSetting | .powerSetting | .powerOff | .powerOn | .boosterSoftStart | .deepSleep | .dataStartTransmission1
  | .displayRefresh | .dataStartTransmission2 | .lutForVcom | .lutWhiteToWhite | .lutBlackToWhite
  | .lutWhiteToBlack | .lutBlackToBlack | .pllControl | .vcomAndDataIntervalSetting | .resolutionSetting
  | .vcmDcSetting | .partialWindow | .partialIn | .partialOut => none

end Sys2Proof.Machine
end

