-- ==== Sys2Proof/Tests/Slice0.lean ====
section
/-! SUPPORT. Small tests. The expected values are the spec's own: its encoding tables (spec/30_encoding.md rules R90, R95;
spec/40_command_and_lut_tables.md rule R121), its examples and vectors (spec/41 to 45, spec/95_test_vectors.md). Then,
for every statement with hypotheses, a witness that meets them. -/

namespace Sys2Proof.Tests

open Sys2Proof.Machine

/-! Well-formedness: each check refuses an ill-formed term. -/

theorem test_descriptor_of_23_bytes_refused : descLengthOk (List.replicate 23 0x01) = false := by decide

theorem test_descriptor_of_25_bytes_refused : descWellFormed (0x01 :: List.replicate 24 0x00) = false := by decide

theorem test_unassigned_opc_refused : descOpcOk (0x0B :: List.replicate 23 0x00) = false := by decide

theorem test_reserved_bit_refused : descRsvOk (0x01 :: 0x04 :: List.replicate 22 0x00) = false := by decide

theorem test_descriptor_accepted : descWellFormed (0x18 :: 0x03 :: List.replicate 22 0xFF) = true := by decide

theorem test_reference_configuration_accepted : Cfg.reference.wf = true := by decide

theorem test_width_not_multiple_of_8_refused : Cfg.widthOk { Cfg.reference with width := 12 } = false := by decide

theorem test_width_0_refused : Cfg.widthOk { Cfg.reference with width := 0 } = false := by decide

theorem test_height_0_refused : Cfg.heightOk { Cfg.reference with height := 0 } = false := by decide

theorem test_canvas_height_0_refused : Cfg.canvasOk { Cfg.reference with ch := 0 } = false := by decide

theorem test_memory_too_large_refused : Cfg.memszOk { Cfg.reference with memsz := 2 ^ 32 + 1 } = false := by decide

theorem test_reset_pulse_199_refused : Cfg.resetPulseOk { Cfg.reference with tRstLow := 199 } = false := by decide

theorem test_quick_delay_not_shorter_refused : Cfg.refreshDelayOk { Cfg.reference with tQuick := 100 } = false := by
  decide

theorem test_poll_limit_0_refused : Cfg.pollLimitOk { Cfg.reference with pollLimit := some 0 } = false := by decide

theorem test_font_cell_0_refused : Cfg.fontCellOk { Cfg.reference with fh := 0 } = false := by decide

theorem test_font_row_missing_refused : Cfg.fontRowsOk { Cfg.reference with fallback := [0x00] } = false := by decide

theorem test_glyph_twice_refused :
    Cfg.glyphCodesOk { Cfg.reference with glyphs := testGlyphs ++ [⟨0x41, List.replicate 7 0x00⟩] } = false := by decide

/-! Decoding: a word written out from the spec's encoding for every constructor. The 22 bytes after `OPC` and `FLG` are
`A = 0102`, `B = 0304`, `C = 0506`, `D = 0708`, `BUFA = 11121314`, `BUFL = 21222324`, `TXTA = 31323334`, `TXTL = 4142`. -/

/-- Bytes 2 to 23 of the descriptors below (rule R90). -/
def operandBytes : List Byte :=
  [0x01, 0x02, 0x03, 0x04, 0x05, 0x06, 0x07, 0x08, 0x11, 0x12, 0x13, 0x14, 0x21, 0x22, 0x23, 0x24, 0x31, 0x32, 0x33,
   0x34, 0x41, 0x42]

theorem test_decode_clear : decode .desc (0x01 :: 0x03 :: operandBytes) =
    .ok (.clear .black 0x11121314 0x21222324, []) := by rfl

theorem test_decode_draw_pixel : decode .desc (0x02 :: 0x03 :: operandBytes) =
    .ok (.drawPixel 0x0102 0x0304 .black 0x11121314 0x21222324, []) := by rfl

theorem test_decode_draw_line : decode .desc (0x03 :: 0x03 :: operandBytes) =
    .ok (.drawLine 0x0102 0x0304 0x0506 0x0708 .black 0x11121314 0x21222324, []) := by rfl

theorem test_decode_draw_hline : decode .desc (0x04 :: 0x03 :: operandBytes) =
    .ok (.drawHline 0x0102 0x0304 0x0506 .black 0x11121314 0x21222324, []) := by rfl

theorem test_decode_draw_vline : decode .desc (0x05 :: 0x03 :: operandBytes) =
    .ok (.drawVline 0x0102 0x0304 0x0506 .black 0x11121314 0x21222324, []) := by rfl

theorem test_decode_draw_rect : decode .desc (0x06 :: 0x03 :: operandBytes) =
    .ok (.drawRect 0x0102 0x0304 0x0506 0x0708 .black 0x11121314 0x21222324, []) := by rfl

theorem test_decode_draw_frect : decode .desc (0x07 :: 0x03 :: operandBytes) =
    .ok (.drawFrect 0x0102 0x0304 0x0506 0x0708 .black 0x11121314 0x21222324, []) := by rfl

theorem test_decode_draw_circle : decode .desc (0x08 :: 0x03 :: operandBytes) =
    .ok (.drawCircle 0x0102 0x0304 0x0506 .black 0x11121314 0x21222324, []) := by rfl

theorem test_decode_draw_fcircle : decode .desc (0x09 :: 0x03 :: operandBytes) =
    .ok (.drawFcircle 0x0102 0x0304 0x0506 .black 0x11121314 0x21222324, []) := by rfl

theorem test_decode_draw_string : decode .desc (0x0A :: 0x03 :: operandBytes) =
    .ok (.drawString 0x0102 0x0304 .black 0x11121314 0x21222324 0x31323334 0x4142, []) := by rfl

theorem test_decode_reset : decode .desc (0x10 :: 0x03 :: operandBytes) =
    .ok (.reset, []) := by rfl

theorem test_decode_init : decode .desc (0x11 :: 0x03 :: operandBytes) =
    .ok (.init, []) := by rfl

theorem test_decode_display_and_transfer_frame : decode .desc (0x12 :: 0x03 :: operandBytes) =
    .ok (.displayAndTransferFrame .black 0x11121314 0x21222324, []) := by rfl

theorem test_decode_set_partial_window : decode .desc (0x13 :: 0x03 :: operandBytes) =
    .ok (.setPartialWindow 0x0102 0x0304 0x0506 0x0708 .new 0x11121314 0x21222324, []) := by rfl

theorem test_decode_display_frame : decode .desc (0x14 :: 0x03 :: operandBytes) =
    .ok (.displayFrame, []) := by rfl

theorem test_decode_display_frame_quick : decode .desc (0x15 :: 0x03 :: operandBytes) =
    .ok (.displayFrameQuick, []) := by rfl

theorem test_decode_clear_frame : decode .desc (0x16 :: 0x03 :: operandBytes) =
    .ok (.clearFrame .black, []) := by rfl

theorem test_decode_sleep : decode .desc (0x17 :: 0x03 :: operandBytes) =
    .ok (.sleep, []) := by rfl

theorem test_decode_wait_until_idle : decode .desc (0x18 :: 0x03 :: operandBytes) =
    .ok (.waitUntilIdle, []) := by rfl

theorem test_decode_wire_panel_setting : decode .wireCmd [0b00000000] = .ok (.panelSetting, []) := by rfl

theorem test_decode_wire_power_setting : decode .wireCmd [0b00000001] = .ok (.powerSetting, []) := by rfl

theorem test_decode_wire_power_off : decode .wireCmd [0b00000010] = .ok (.powerOff, []) := by rfl

theorem test_decode_wire_power_on : decode .wireCmd [0b00000100] = .ok (.powerOn, []) := by rfl

theorem test_decode_wire_booster_soft_start : decode .wireCmd [0b00000110] = .ok (.boosterSoftStart, []) := by rfl

theorem test_decode_wire_deep_sleep : decode .wireCmd [0b00000111] = .ok (.deepSleep, []) := by rfl

theorem test_decode_wire_data_start_transmission_1 : decode .wireCmd [0b00010000] = .ok (.dataStartTransmission1, []) := by rfl

theorem test_decode_wire_display_refresh : decode .wireCmd [0b00010010] = .ok (.displayRefresh, []) := by rfl

theorem test_decode_wire_data_start_transmission_2 : decode .wireCmd [0b00010011] = .ok (.dataStartTransmission2, []) := by rfl

theorem test_decode_wire_lut_for_vcom : decode .wireCmd [0b00100000] = .ok (.lutForVcom, []) := by rfl

theorem test_decode_wire_lut_white_to_white : decode .wireCmd [0b00100001] = .ok (.lutWhiteToWhite, []) := by rfl

theorem test_decode_wire_lut_black_to_white : decode .wireCmd [0b00100010] = .ok (.lutBlackToWhite, []) := by rfl

theorem test_decode_wire_lut_white_to_black : decode .wireCmd [0b00100011] = .ok (.lutWhiteToBlack, []) := by rfl

theorem test_decode_wire_lut_black_to_black : decode .wireCmd [0b00100100] = .ok (.lutBlackToBlack, []) := by rfl

theorem test_decode_wire_pll_control : decode .wireCmd [0b00110000] = .ok (.pllControl, []) := by rfl

theorem test_decode_wire_vcom_and_data_interval_setting : decode .wireCmd [0b01010000] = .ok (.vcomAndDataIntervalSetting, []) := by rfl

theorem test_decode_wire_resolution_setting : decode .wireCmd [0b01100001] = .ok (.resolutionSetting, []) := by rfl

theorem test_decode_wire_vcm_dc_setting : decode .wireCmd [0b10000010] = .ok (.vcmDcSetting, []) := by rfl

theorem test_decode_wire_partial_window : decode .wireCmd [0b10010000] = .ok (.partialWindow, []) := by rfl

theorem test_decode_wire_partial_in : decode .wireCmd [0b10010001] = .ok (.partialIn, []) := by rfl

theorem test_decode_wire_partial_out : decode .wireCmd [0b10010010] = .ok (.partialOut, []) := by rfl

theorem test_decode_white_old : decode .desc (0x13 :: 0x00 :: operandBytes) =
    .ok (.setPartialWindow 0x0102 0x0304 0x0506 0x0708 .old 0x11121314 0x21222324, []) := by rfl

theorem test_decode_white : decode .desc (0x01 :: 0x02 :: operandBytes) =
    .ok (.clear .white 0x11121314 0x21222324, []) := by rfl

theorem test_decode_leaves_the_rest : decode .desc (0x10 :: 0x00 :: operandBytes ++ [0xAA]) = .ok (.reset, [0xAA]) := by
  rfl

theorem test_decode_reserved : decode .desc (0x01 :: 0x80 :: operandBytes) = .error .reservedBits := by rfl

theorem test_decode_unassigned : decode .desc (0x19 :: 0x00 :: operandBytes) = .error .unassignedOpc := by rfl

theorem test_decode_short : decode .desc (0x01 :: 0x00 :: operandBytes.dropLast) = .error .truncated := by rfl

theorem test_decode_unknown_command : decode .wireCmd [0x03] = .error .unknownCommand := by rfl

theorem test_table_word_header : decodeTableWord 16 0x0301 = some (.drawLine 0 0 0 0 .black 0 0) := by rfl

theorem test_table_word_command : decodeTableWord 8 0x61 = some .resolutionSetting := by rfl

/-! One step of each instruction. The canvas is 16 x 8 (`TCFG-RU8`) unless said otherwise. -/

/-- The state of an outcome. -/
def after : Host.Outcome State Fault Refusal → State
  | .next t => t
  | _ => State.reset

/-- The outcome is a next state. -/
def goesOn : Host.Outcome State Fault Refusal → Bool
  | .next _ => true
  | _ => false

/-- The reset state with a canvas of `w` by `h` pixels. -/
def canvasOf (w h : U16) : State := { State.reset with cfg := { Cfg.reference with cw := w, ch := h } }

/-- The result and the first `n` bytes of `MEM` after the instruction. -/
def drawn (n : Nat) (i : Instr) (s : State) : ResultCode × List Byte :=
  ((after (exec i s)).result, (after (exec i s)).mem.readRange 0 n)

/-- Rule R140's example. -/
theorem test_clear_black : drawn 17 (.clear .black 0 16) State.reset = (.ok, List.replicate 16 0xFF ++ [0x00]) := by
  decide

theorem test_clear_white :
    (after (exec (.clear .white 0 16) { State.reset with mem := [⟨0, 0xFF⟩, ⟨15, 0x80⟩, ⟨16, 0x01⟩] })).mem =
      [⟨16, 0x01⟩] := by decide

/-- Rule R141's examples. -/
theorem test_draw_pixel : drawn 2 (.drawPixel 8 0 .black 0 16) State.reset = (.ok, [0x00, 0x80]) := by decide

theorem test_draw_pixel_clipped : exec (.drawPixel 16 0 .black 0 16) State.reset = .next (finished State.reset) := by rfl

/-- Rule R143's example, in the reversed direction. -/
theorem test_draw_line : drawn 3 (.drawLine 2 1 0 0 .black 0 16) State.reset = (.ok, [0x80, 0x00, 0x60]) := by decide

/-- A white line up and to the right on a black pair of rows. -/
theorem test_draw_line_up :
    (after (exec (.drawLine 0 1 1 0 .white 0 16) { State.reset with mem := [⟨0, 0xC0⟩, ⟨2, 0xC0⟩] })).mem =
      [⟨0, 0x80⟩, ⟨2, 0x40⟩] := by decide

/-- Rule R145's example. -/
theorem test_draw_hline : drawn 6 (.drawHline 3 2 6 .black 0 16) State.reset =
    (.ok, [0x00, 0x00, 0x00, 0x00, 0x1F, 0x80]) := by decide

/-- Rule R146's example. -/
theorem test_draw_vline : drawn 14 (.drawVline 12 1 5 .black 0 16) State.reset =
    (.ok, [0x00, 0x00, 0x00, 0x08, 0x00, 0x08, 0x00, 0x08, 0x00, 0x08, 0x00, 0x08, 0x00, 0x00]) := by decide

/-- Rule R160's example. -/
theorem test_draw_rect : drawn 16 (.drawRect 2 1 9 6 .black 0 16) State.reset =
    (.ok, [0x00, 0x00, 0x3F, 0xC0, 0x20, 0x40, 0x20, 0x40, 0x20, 0x40, 0x20, 0x40, 0x3F, 0xC0, 0x00, 0x00]) := by decide

/-- Rule R162's example. -/
theorem test_draw_frect : drawn 16 (.drawFrect 2 1 9 6 .black 0 16) State.reset =
    (.ok, [0x00, 0x00, 0x3F, 0xC0, 0x3F, 0xC0, 0x3F, 0xC0, 0x3F, 0xC0, 0x3F, 0xC0, 0x3F, 0xC0, 0x00, 0x00]) := by decide

/-- Rule R166's example on the 16 x 16 canvas: rows 5 to 9. -/
theorem test_draw_circle :
    ((after (exec (.drawCircle 7 7 2 .black 0 32) (canvasOf 16 16))).mem.readRange 10 10) =
      [0x03, 0x80, 0x04, 0x40, 0x04, 0x40, 0x04, 0x40, 0x03, 0x80] := by decide

/-- Rule R168's example: rows 5 to 9. -/
theorem test_draw_fcircle :
    ((after (exec (.drawFcircle 7 7 2 .black 0 32) (canvasOf 16 16))).mem.readRange 10 10) =
      [0x03, 0x80, 0x07, 0xC0, 0x07, 0xC0, 0x07, 0xC0, 0x03, 0x80] := by decide

/-- Vector V-T4 (canvas 24 x 8), its last row but one: the second cell is outside. -/
theorem test_draw_string_clipped :
    ((after (exec (.drawString 21 4 .black 0 24 0x200 2)
      { canvasOf 24 8 with mem := [⟨0x200, 0x48⟩, ⟨0x201, 0x48⟩] })).mem.readRange 18 6) =
      [0x00, 0x00, 0x04, 0x00, 0x00, 0x07] := by decide

/-- Vectors V-F3, V-F4 and V-F5: the size is tested before the range, and the last bytes of `MEM` are a buffer. -/
theorem test_raster_faults :
    (after (exec (.clear .black 4090 16) State.reset)).result = .memRange
      ∧ (after (exec (.clear .black 4090 15) State.reset)).result = .bufferSizeMismatch
      ∧ (after (exec (.clear .black 4080 16) State.reset)).result = .ok := by decide

/-- Vector V-F8: the text range. -/
theorem test_text_range : exec (.drawString 0 0 .black 0 16 4095 2) State.reset =
    .next (preCheckFault State.reset .memRange) := by rfl

/-- The `Active` session. -/
def activeState : State := { State.reset with mode := .active, lutsel := .full }

/-- An operation in progress at its micro-operation `k`. -/
def running (i : Instr) (k : Nat) : State :=
  { State.reset with mode := modeInProgress i, op := some i, ustep := k }

/-- Rule R203: the seven other operations are refused by a session that sleeps, the two accepted. -/
theorem test_mode_gate :
    ([Instr.displayAndTransferFrame .white 0 16, .setPartialWindow 8 0 8 1 .new 0 1, .displayFrame, .displayFrameQuick,
      .clearFrame .white, .sleep, .waitUntilIdle, .reset, .init].map fun i =>
        let t := after (exec i { State.reset with mode := .sleeping })
        (t.result, t.op.isSome)) =
      List.replicate 7 (.notActive, false) ++ List.replicate 2 (.ok, true) := by decide

/-- Rule R200: the mode and the LUT are given up on entry. -/
theorem test_reset_entry : let t := after (exec .reset activeState)
    (t.mode, t.lutsel, t.op, t.ustep) = (.uninitialized, .none, some .reset, 0) := by decide

theorem test_init_entry : let t := after (exec .init activeState)
    (t.mode, t.lutsel, t.op, t.trace) = (.uninitialized, .none, some .init, []) := by decide

/-- `PB = 16` for the 16 x 8 panel. -/
theorem test_display_and_transfer_frame_size :
    ((after (exec (.displayAndTransferFrame .white 0 16) activeState)).op.isSome,
      (after (exec (.displayAndTransferFrame .white 0 15) activeState)).result) = (true, .bufferSizeMismatch) := by decide

/-- Rule R214: the window is tested before the buffer; `w` counts from `XS`, so `x = 13`, `w = 9` does not fit 16 columns. -/
theorem test_set_partial_window_checks :
    ([Instr.setPartialWindow 13 0 8 1 .new 0 1, .setPartialWindow 13 0 9 1 .new 0 1, .setPartialWindow 0 7 8 2 .new 0 9,
      .setPartialWindow 0 0 9 8 .new 0 8].map fun i => (after (exec i activeState)).result) =
      [.ok, .windowError, .windowError, .bufferSizeMismatch] := by decide

/-- The window of rule R214's example: `x = 13`, `w = 16`, `y = 5`, `l = 2`. -/
theorem test_window_example :
    ((microSeq Cfg.reference (.setPartialWindow 13 5 16 2 .new 0 4)).take 11).map (·.op) =
      [.cmd .partialIn, .cmd .partialWindow, .prim (.data 0x00), .prim (.data 0x08), .prim (.data 0x00),
        .prim (.data 0x17), .prim (.data 0x00), .prim (.data 0x05), .prim (.data 0x00), .prim (.data 0x06),
        .prim (.data 0x01)] := by decide

theorem test_display_frame_accepted : (after (exec .displayFrame activeState)).op = some .displayFrame := by decide

/-- Rules R216, R198: `LUTSEL` is `Full` after the last byte of the BB table, and not before. -/
theorem test_lut_loaded :
    ((after (step { running .displayFrame 14 with xferIn := [.ok] })).lutsel,
      (after (step { running .displayFrame 13 with xferIn := [.ok] })).lutsel) = (.full, .none) := by decide

theorem test_display_frame_quick_loads_quick :
    (after (step { running .displayFrameQuick 14 with xferIn := [.ok] })).lutsel = .quick := by decide

theorem test_clear_frame_accepted : (after (exec (.clearFrame .black) activeState)).op = some (.clearFrame .black) := by
  decide

/-- Rule R220: the last byte puts the session to sleep. -/
theorem test_sleep_ends : let t := after (step { running .sleep 14 with xferIn := [.ok] })
    (t.mode, t.lutsel, t.result, t.op, t.trace) =
      (.sleeping, .none, .ok, none, [.pin .cs .low, .pin .dc .high, .xfer [0xA5] .ok, .pin .cs .high]) := by decide

/-- Rule R196: the third busy read of `POLL_LIMIT = some 3` ends the wait with no delay. -/
theorem test_wait_until_idle_bound : let t := after (step { running .waitUntilIdle 0 with
      busyIn := [.readErr], inWait := true, polln := 2 })
    (t.result, t.mode, t.polln, t.trace) = (.deviceNotResponding, .uninitialized, 3, [.busyRead .readErr]) := by decide

/-- Rule R201's example, its first poll. -/
theorem test_wait_until_idle_busy : let t := after (step { running .waitUntilIdle 0 with busyIn := [.low, .high] })
    (t.op.isSome, t.polln, t.trace, t.busyIn) = (true, 1, [.busyRead .low, .delay 100], [.high]) := by decide

/-- Rules R191, R233: chip-select is released and the error kept. -/
theorem test_transfer_error : let t := after (step { running .sleep 0 with xferIn := [.err ⟨7⟩] })
    (t.result, t.errinfo, t.mode, t.faulted, t.pins, t.opi) =
      (.transferError, .err ⟨7⟩, .uninitialized, true, ⟨.high, .low, .unknown⟩, 1) := by decide

/-- The 21 command frames by the default table, each from the same place: its one byte. -/
theorem test_command_frames :
    (allCmdNames.map fun n => busBytes (after (exec (Instr.ofCmd n) { running .sleep 0 with xferIn := [.ok] })).trace) =
      [[0x00], [0x01], [0x02], [0x04], [0x06], [0x07], [0x10], [0x12], [0x13], [0x20], [0x21], [0x22], [0x23], [0x24],
        [0x30], [0x50], [0x61], [0x82], [0x90], [0x91], [0x92]] := by decide

/-- A command frame's four events. -/
theorem test_command_frame_events : (after (exec .powerOn { running .init 14 with xferIn := [.ok] })).trace =
    [.pin .cs .low, .pin .dc .low, .xfer [0x04] .ok, .pin .cs .high] := by decide

/-- A table word is the very next instruction, of either format. -/
theorem test_fetch_descriptor : step (State.reset.withFetchWord 16 0x1001) = exec .reset State.reset := by rfl

theorem test_fetch_command : let s := State.reset.withFetchWord 8 0x12
    step s = exec .displayRefresh { s with host := [] } := by rfl

/-- Rule R98's examples. -/
theorem test_asm : asm [] (.clear .white 0 16) = some "clear white @0x0000+16"
    ∧ asm [0x48, 0x49, 0x3F, 0x41] (.drawString 1 0 .black 0x100 24 0x200 4) =
      some "draw_string 1, 0, black @0x0100+24 \"HI?A\"@0x0200"
    ∧ asm [] (.setPartialWindow 13 5 16 2 .new 0x300 4) = some "set_partial_window 13, 5, 16, 2, new @0x0300+4" := by
  decide

/-! Witnesses: for every statement with hypotheses, a state and operands that meet them, for each clause. -/

/-- The descriptor of `RESET`. -/
def resetBytes : List Byte := 0x10 :: List.replicate 23 0x00

theorem witness_DecodeUsesExactlyTheListedFields : (0x03 : Byte).toNat < 4 ∧ 4 ≤ (0x04 : Byte).toNat := by decide

theorem witness_DecodeVerdictOnAnyBytes :
    (resetBytes.length = 24 ∧ descWellFormed resetBytes = true)
      ∧ ((List.replicate 24 0x00 : List Byte).length = 24 ∧ descWellFormed (List.replicate 24 0x00) = false)
      ∧ ((List.replicate 23 0x00 : List Byte).length < 24 ∧ State.reset.op = none
        ∧ State.host { State.reset with host := [.issue (List.replicate 23 0x00)] } =
          .issue (List.replicate 23 0x00) :: []) := by decide

theorem witness_StepRunsTheIssuedOperation :
    let s : State := { State.reset with host := [.issue resetBytes, .yield] }
    s.op = none ∧ s.host = .issue resetBytes :: [.yield] ∧ decode .desc resetBytes = .ok (.reset, []) := ⟨rfl, rfl, rfl⟩

/-- A state whose next host action lets the block go first. -/
def yielding (s : State) : State := { s with host := [.yield, .readStatus .mode] }

/-- `INIT` is at `C(POWER_SETTING)` after its electrical reset, with nothing pending and with a yield. -/
theorem witness_StepRunsTheCommandFrame :
    AtMicro (running .init 4) .init (microC .powerSetting)
      ∧ AtMicro (yielding (running .init 4)) .init (microC .powerSetting)
      ∧ (microC .powerSetting).op = .cmd .powerSetting :=
  ⟨⟨.inl rfl, rfl, rfl⟩, ⟨.inr ⟨_, rfl⟩, rfl, rfl⟩, rfl⟩

theorem witness_IssueWaitsWhileAnOperationIsInProgress :
    let s : State := { running .init 0 with host := [.issue resetBytes] }
    s.op ≠ none ∧ s.host = .issue resetBytes :: [] ∧ step s = .next (after (step s)) := ⟨by decide, rfl, rfl⟩

theorem witness_IdleBlockDoesNothing :
    State.reset.op = none ∧ State.reset.host = [] ∧ (yielding State.reset).op = none
      ∧ (yielding State.reset).host = .yield :: [.readStatus .mode] := by decide

theorem witness_ReadStatusObservesTheRegister :
    State.host { running .init 0 with host := [.readStatus .ustep] } = .readStatus .ustep :: [] := rfl

/-- A window transfer whose buffer is the 16 bytes at 256. -/
def transferring : State := running (.setPartialWindow 0 0 16 8 .new 256 16) 0

/-- The clauses at their ends: past `MEM`; the first and the last byte of the buffer; the bytes before and after it and
the last byte of `MEM`. -/
theorem witness_HostWritesOutsideTheOwnedBufferOnly :
    transferring.mem.wf = true ∧ transferring.cfg.memsz ≤ 4096
      ∧ (∀ a ∈ [256, 271], a < transferring.cfg.memsz ∧ ∃ i u l, transferring.op = some i
          ∧ ownedRange (some i) = some (u, l) ∧ u ≤ a ∧ a < u + l)
      ∧ (∀ a ∈ [255, 272, 4095], a < transferring.cfg.memsz ∧ ∀ i u l, transferring.op = some i →
          ownedRange (some i) = some (u, l) → a < u ∨ u + l ≤ a) := by
  refine ⟨rfl, by decide, fun a ha => ?_, fun a ha => ?_⟩
  · simp only [List.mem_cons, List.not_mem_nil, or_false] at ha
    refine ⟨?_, _, 256, 16, rfl, rfl, ?_⟩ <;> rcases ha with rfl | rfl <;> decide
  · simp only [List.mem_cons, List.not_mem_nil, or_false] at ha
    refine ⟨by rcases ha with rfl | rfl | rfl <;> decide, fun i u l h1 h2 => ?_⟩
    obtain rfl := Option.some.inj h1
    obtain ⟨rfl, rfl⟩ := Prod.mk.inj (Option.some.inj h2)
    rcases ha with rfl | rfl | rfl <;> decide

theorem witness_IllegalDescriptorTakesIllegalOp :
    let bytes : List Byte := 0x01 :: 0x04 :: List.replicate 22 0x00
    let s : State := { activeState with host := [.issue bytes] }
    s.op = none ∧ s.host = .issue bytes :: [] ∧ bytes.length = 24 ∧ descWellFormed bytes = false := by decide

/-- The clauses at their ends, for `DRAW_STRING` with a buffer of 16 bytes. -/
theorem witness_RasterOperationChecksInOrder :
    rasterRanges (.drawString 0 0 .black 4080 16 4094 2) = some (4080, 16, some (4094, 2)) ∧ State.reset.op = none
      ∧ (15 : Nat) ≠ canvasBytes State.reset.cfg ∧ 16 = canvasBytes State.reset.cfg
      ∧ State.reset.cfg.memsz < 4081 + 16 ∧ 4080 + 16 ≤ State.reset.cfg.memsz
      ∧ State.reset.cfg.memsz < 4095 + 2 ∧ 4094 + 2 ≤ State.reset.cfg.memsz := by decide

theorem witness_RasterOperationFrame :
    rasterRanges (.clear .black 0 16) = some (0, 16, none) ∧ State.reset.ustep = 0 ∧ State.reset.inWait = false
      ∧ exec (.clear .black 0 16) State.reset = .next (after (exec (.clear .black 0 16) State.reset)) :=
  ⟨rfl, rfl, rfl, rfl⟩

/-- The hypotheses of the drawing statements' three clauses, at their ends: a buffer one byte short and one byte long; one
that ends one byte past `MEM`; one at the start of `MEM` and one at its end. -/
def CanvasHyps (s : State) : Prop :=
  s.op = none ∧ s.mem.wf = true ∧ (15 : U32).toNat ≠ canvasBytes s.cfg ∧ (17 : U32).toNat ≠ canvasBytes s.cfg
    ∧ (16 : U32).toNat = canvasBytes s.cfg ∧ s.cfg.memsz < (4081 : U32).toNat + (16 : U32).toNat
    ∧ (0 : U32).toNat + (16 : U32).toNat ≤ s.cfg.memsz ∧ (4080 : U32).toNat + (16 : U32).toNat ≤ s.cfg.memsz

/-- A state with something in the last byte of `MEM`. -/
def drawState : State := { State.reset with mem := [⟨4095, 0x01⟩] }

theorem canvas_hyps : CanvasHyps drawState :=
  ⟨rfl, by decide, by decide, by decide, by decide, by decide, by decide, by decide⟩

theorem witness_ClearFillsTheBuffer : CanvasHyps drawState := canvas_hyps

theorem witness_DrawPixelSetsOnePixel : CanvasHyps drawState := canvas_hyps

theorem witness_DrawHlineDrawsTheRowSegment : CanvasHyps drawState := canvas_hyps

theorem witness_DrawVlineDrawsTheColumnSegment : CanvasHyps drawState := canvas_hyps

theorem witness_DrawRectDrawsTheBoundary : CanvasHyps drawState := canvas_hyps

theorem witness_DrawFrectDrawsTheBox : CanvasHyps drawState := canvas_hyps

theorem witness_ReversedCornersDrawNothing :
    CanvasHyps drawState ∧ ((4 : U16).toNat < (5 : U16).toNat) := ⟨canvas_hyps, by decide⟩

/-- The interior point of a box of side 3; a box two pixels wide; one two pixels high. -/
theorem witness_OutlineLiesOnTheFilledBox :
    (((0 : U16).toNat : Int) < 1 ∧ (1 : Int) < (2 : U16).toNat)
      ∧ (((1 : U16).toNat : Int) - (0 : U16).toNat ≤ 1) := by decide

theorem witness_DrawLineDrawsItsWalk : CanvasHyps drawState := canvas_hyps

/-- A gentle line with a tie at its second point, a steep one, and a single point. -/
theorem witness_LineWalkJoinsItsEndpoints :
    (linePoints 2 1 0 0)[0]? = some (0, 0) ∧ (linePoints 2 1 0 0)[1]? = some (1, 1)
      ∧ (linePoints 0 2 1 0)[1]? = some (1, 1) ∧ (linePoints 7 7 7 7)[0]? = some (7, 7) := by decide

/-- The longest lines whose end is encodable, and a length of 1. -/
theorem witness_AxisLinesEqualDrawLine :
    (1 ≤ (1 : U16).toNat ∧ (65535 : U16).toNat + (1 : U16).toNat - 1 ≤ 65535)
      ∧ (1 ≤ (65535 : U16).toNat ∧ (1 : U16).toNat + (65535 : U16).toNat - 1 ≤ 65535)
      ∧ State.reset.op = none ∧ (16 : U32).toNat = canvasBytes State.reset.cfg
      ∧ (0 : U32).toNat + (16 : U32).toNat ≤ State.reset.cfg.memsz := by decide

theorem witness_DrawCircleDrawsItsWalk : CanvasHyps drawState := canvas_hyps

theorem witness_CircleOctantReachesTheDiagonal :
    (octant (2 : U16).toNat)[0]? = some (0, 2) ∧ (octant (2 : U16).toNat)[1]? = some (1, 2)
      ∧ (octant (2 : U16).toNat).getLast? = some (1, 2) ∧ (0, 0) ∈ octant (0 : U16).toNat := by decide

theorem witness_DrawFcircleFillsTheOutlineRowByRow : CanvasHyps drawState := canvas_hyps

theorem witness_DrawStringDrawsItsCells :
    CanvasHyps drawState ∧ (drawState.cfg.glyphs.map Glyph.code).Nodup ∧ (4094 : U32).toNat + (2 : U16).toNat ≤ drawState.cfg.memsz
      ∧ drawState.cfg.memsz < (4095 : U32).toNat + (2 : U16).toNat := ⟨canvas_hyps, by decide, by decide, by decide⟩

theorem witness_ModeGate :
    State.reset.op = none ∧ isProtocol .reset = true ∧ isProtocol .sleep = true ∧ Instr.sleep ≠ .reset
      ∧ Instr.sleep ≠ .init ∧ State.reset.mode ≠ .active := by decide

theorem witness_ActiveProtocolOperationStarts : activeState.op = none ∧ activeState.mode = .active := by decide

/-- `PB = 16`: one byte short, the range one byte past `MEM`, the range at the end of `MEM`. -/
theorem witness_TransferFrameChecksInOrder :
    activeState.op = none ∧ activeState.mode = .active ∧ (15 : U32).toNat ≠ planeBytes activeState.cfg
      ∧ (16 : U32).toNat = planeBytes activeState.cfg ∧ activeState.cfg.memsz < (4081 : U32).toNat + (16 : U32).toNat
      ∧ (4080 : U32).toNat + (16 : U32).toNat ≤ activeState.cfg.memsz := by decide

/-- The clauses on the 16 x 8 panel: not active; an empty window, one a column too wide, one a row too high; a wrong
length; a range one byte past `MEM`; the largest window at the end of `MEM`. -/
theorem witness_PartialWindowChecksInOrder :
    State.reset.op = none ∧ State.reset.mode ≠ .active ∧ activeState.op = none ∧ activeState.mode = .active
      ∧ (0 : U16).toNat = 0
      ∧ activeState.cfg.width.toNat < (15 : U16).toNat - (15 : U16).toNat % 8 + (9 : U16).toNat
      ∧ activeState.cfg.height.toNat < (7 : U16).toNat + (2 : U16).toNat
      ∧ ¬ ((16 : U16).toNat = 0 ∨ (8 : U16).toNat = 0
        ∨ activeState.cfg.width.toNat < (7 : U16).toNat - (7 : U16).toNat % 8 + (16 : U16).toNat
        ∨ activeState.cfg.height.toNat < (0 : U16).toNat + (8 : U16).toNat)
      ∧ (15 : U32).toNat ≠ ceilDiv (16 : U16).toNat 8 * (8 : U16).toNat
      ∧ (16 : U32).toNat = ceilDiv (16 : U16).toNat 8 * (8 : U16).toNat
      ∧ activeState.cfg.memsz < (4081 : U32).toNat + (16 : U32).toNat
      ∧ (4080 : U32).toNat + (16 : U32).toNat ≤ activeState.cfg.memsz := by decide

theorem witness_WindowArithmetic :
    0 < (9 : U16).toNat ∧ 0 < (2 : U16).toNat ∧ Cfg.reference.width.toNat % 8 = 0
      ∧ windowXs 7 + (9 : U16).toNat ≤ Cfg.reference.width.toNat
      ∧ (6 : U16).toNat + (2 : U16).toNat ≤ Cfg.reference.height.toNat := by decide

theorem witness_PinAndDelayMicroOperations :
    (AtMicro (running .reset 0) .reset (microP .rst .low) ∧ (microP .rst .low).op = .prim (.pin .rst .low))
      ∧ (AtMicro (yielding (running .reset 3)) .reset (microT 200) ∧ (microT 200).op = .prim (.delay 200)) :=
  ⟨⟨⟨.inl rfl, rfl, rfl⟩, rfl⟩, ⟨⟨.inr ⟨_, rfl⟩, rfl, rfl⟩, rfl⟩⟩

theorem witness_CommandFrameCompletes :
    let s (r : XferResult) : State := { running .init 4 with xferIn := [r, .ok] }
    ∀ r, (s r).op = some .init ∧ (microSeq (s r).cfg .init)[(s r).ustep]? = some (microC .powerSetting)
      ∧ (microC .powerSetting).op = .cmd .powerSetting ∧ (s r).xferIn = r :: [.ok] := fun _ => ⟨rfl, rfl, rfl, rfl⟩

/-- Each of the 21 commands is a micro-operation of some operation. -/
theorem witness_CommandFrameCompletes_every_name (n : CmdName) :
    ((microSeq Cfg.reference (carrierOf n)).any fun m => decide (m.op = .cmd n)) = true := by cases n <;> rfl

/-- A constant byte; and the last byte of a buffer at the end of `MEM`. -/
theorem witness_DataFrameCompletes :
    ∀ r : XferResult,
      (AtMicro { running .sleep 14 with xferIn := [r] } .sleep (microD 0xA5)
          ∧ (microD 0xA5).op = .prim (.data 0xA5))
        ∧ (∃ m, AtMicro { running (.setPartialWindow 0 0 16 8 .old 4080 16) 27 with xferIn := [r] }
              (.setPartialWindow 0 0 16 8 .old 4080 16) m
            ∧ AtMicro (yielding { running (.setPartialWindow 0 0 16 8 .old 4080 16) 27 with xferIn := [r] })
              (.setPartialWindow 0 0 16 8 .old 4080 16) m
            ∧ m.op = .prim (.dataMem 4095) ∧ 4095 < Cfg.reference.memsz
            ∧ Memory.read State.reset.mem 4095 = 0x00) :=
  fun _ => ⟨⟨⟨.inl rfl, rfl, rfl⟩, rfl⟩, _, ⟨.inl rfl, rfl, rfl⟩, ⟨.inr ⟨_, rfl⟩, rfl, rfl⟩, rfl, by decide, by decide⟩

theorem witness_TransferErrorAbortsTheSequence :
    let s : State := { running .init 4 with xferIn := [.err ⟨1⟩] }
    AtMicro s .init (microC .powerSetting) ∧ s.xferIn = .err ⟨1⟩ :: []
      ∧ (microC .powerSetting).op = .cmd .powerSetting ∧ s.cfg.cmd.byte .powerSetting = 0x01
      ∧ AtMicro (yielding { s with ustep := 5 }) .init (microD 0x03) ∧ (microD 0x03).op = .prim (.data 0x03)
      ∧ ∃ m, AtMicro { running (.setPartialWindow 0 0 16 8 .old 4080 16) 27 with xferIn := [.err ⟨1⟩] }
            (.setPartialWindow 0 0 16 8 .old 4080 16) m
          ∧ m.op = .prim (.dataMem 4095) ∧ 4095 < Cfg.reference.memsz ∧ Memory.read State.reset.mem 4095 = 0x00 :=
  ⟨⟨.inl rfl, rfl, rfl⟩, rfl, rfl, rfl, ⟨.inr ⟨_, rfl⟩, rfl, rfl⟩, rfl, _, ⟨.inl rfl, rfl, rfl⟩, rfl, by decide,
    by decide⟩

/-- Two busy readings, one of them an error of the pin, under the bound of 3. -/
theorem witness_WaitEndsAtTheFirstIdleRead :
    let s : State := { running .waitUntilIdle 0 with busyIn := [.low, .readErr, .high] }
    AtMicro s .waitUntilIdle microW ∧ s.host = [] ∧ microW.op = .prim .wait ∧ s.inWait = false
      ∧ s.busyIn = [.low, .readErr] ++ .high :: [] ∧ (∀ b ∈ [BusyLevel.low, .readErr], b ≠ .high)
      ∧ ∀ limit, s.cfg.pollLimit = some limit → [BusyLevel.low, .readErr].length < limit :=
  ⟨⟨.inl rfl, rfl, rfl⟩, rfl, rfl, rfl, rfl, by decide, fun limit h => by obtain rfl := Option.some.inj h; decide⟩

theorem witness_BoundedWaitTakesDeviceNotResponding :
    let s : State := { running .waitUntilIdle 0 with busyIn := [.low, .low, .readErr] }
    AtMicro s .waitUntilIdle microW ∧ s.host = [] ∧ microW.op = .prim .wait ∧ s.inWait = false
      ∧ s.busyIn = [.low, .low] ++ .readErr :: [] ∧ (∀ b ∈ [BusyLevel.low, .low], b ≠ .high)
      ∧ BusyLevel.readErr ≠ .high ∧ s.cfg.pollLimit = some ([BusyLevel.low, .low].length + 1) :=
  ⟨⟨.inl rfl, rfl, rfl⟩, rfl, rfl, rfl, rfl, by decide, by decide, rfl⟩

theorem witness_UnboundedWaitGoesOn :
    let s : State := { running .waitUntilIdle 0 with
      cfg := { Cfg.reference with pollLimit := none }, busyIn := [.low, .low] }
    AtMicro s .waitUntilIdle microW ∧ s.host = [] ∧ microW.op = .prim .wait ∧ s.inWait = false
      ∧ s.busyIn = [.low, .low] ++ [] ∧ [BusyLevel.low, .low] ≠ [] ∧ (∀ b ∈ [BusyLevel.low, .low], b ≠ .high)
      ∧ s.cfg.pollLimit = none :=
  ⟨⟨.inl rfl, rfl, rfl⟩, rfl, rfl, rfl, rfl, by decide, by decide, rfl⟩

/-- `DISPLAY_FRAME`: 16 frames and one busy read. -/
theorem witness_ProtocolOperationRunsItsTranscript :
    let s : State := { activeState with
      host := [.issue (encode .displayFrame)], xferIn := List.replicate 16 .ok, busyIn := [.high] }
    isProtocol .displayFrame = true ∧ s.op = none ∧ s.host = [.issue (encode .displayFrame)]
      ∧ Accepts s .displayFrame
      ∧ s.xferIn = List.replicate (busBytes (transcript s.cfg s.mem .displayFrame)).length .ok ++ []
      ∧ s.busyIn = List.replicate (busyReadCount (transcript s.cfg s.mem .displayFrame)) .high ++ [] :=
  ⟨rfl, rfl, rfl, rfl, rfl, rfl⟩

theorem witness_ResetPulsesTheResetPin :
    let s : State := { activeState with host := [.issue (encode .reset)] }
    s.op = none ∧ s.host = [.issue (encode .reset)] := ⟨rfl, rfl⟩

theorem witness_InitSendsTheFiveCommandBlocks :
    let s : State := { State.reset with
      host := [.issue (encode .init)], xferIn := List.replicate 16 .ok, busyIn := [.high] }
    s.op = none ∧ s.host = [.issue (encode .init)]
      ∧ s.xferIn = List.replicate (5 + s.cfg.pwrData.length + s.cfg.btstData.length + s.cfg.psrData.length
        + s.cfg.pllData.length) .ok ++ []
      ∧ s.busyIn = .high :: [] := ⟨rfl, rfl, rfl, rfl⟩

theorem witness_MicroSequenceLengths : (16 : U32).toNat = planeBytes Cfg.reference := by decide

theorem witness_PowerOnSatisfiesTheInvariant :
    Memory.wf [⟨0, 0x01⟩, ⟨4095, 0xFF⟩] = true
      ∧ Memory.inside Cfg.reference.memsz [⟨0, 0x01⟩, ⟨4095, 0xFF⟩] = true := by decide

/-- The invariant holds in the middle of an operation, at any of its micro-operations. -/
theorem running_inv (i : Instr) (k : Nat) (h : List HostAction) (x : List XferResult)
    (hk : k < (microSeq Cfg.reference i).length) (hr : ∀ r, ownedRange (some i) = some r → r.1 + r.2 ≤ 4096) :
    MachineInv { running i k with host := h, xferIn := x } := by
  refine ⟨rfl, rfl, fun h => by simp [running] at h, fun j hj => ?_, fun h => by simp [running, State.reset,
    State.powerOn] at h, fun _ => rfl, fun h => absurd rfl h, by simp [running, State.reset, State.powerOn]⟩
  obtain rfl := Option.some.inj hj
  exact ⟨hk, rfl, hr⟩

/-- A window transfer at its buffer's last byte, at the end of `MEM`. -/
theorem witness_StepKeepsTheInvariant :
    let s : State := { running (.setPartialWindow 0 0 16 8 .old 4080 16) 27 with host := [], xferIn := [.ok] }
    MachineInv s ∧ step s = .next (after (step s)) :=
  ⟨running_inv _ _ _ _ (by decide) (fun r hr => by obtain rfl := Option.some.inj hr; decide), rfl⟩

/-- In one state the host's action is none, in the others an `Issue` of 24 bytes and a write next to the buffer. -/
theorem witness_StepStopsOnlyAtTheHostsRequest :
    let s (h : List HostAction) : State :=
      { running (.setPartialWindow 0 0 16 8 .old 4080 16) 27 with host := h, xferIn := [.ok] }
    (∀ h, MachineInv (s h))
      ∧ (∀ bytes rest, (s [.issue resetBytes]).host = .issue bytes :: rest → bytes.length = 24)
      ∧ ∀ a rest, ((s [.writeMem 4079 1]).host = .readMem a :: rest
          ∨ ∃ v, (s [.writeMem 4079 1]).host = .writeMem a v :: rest) →
        a < (s []).cfg.memsz ∧ ∀ u l, ownedRange (s []).op = some (u, l) → a < u ∨ u + l ≤ a := by
  refine ⟨fun h => running_inv _ _ _ _ (by decide) (fun r hr => by obtain rfl := Option.some.inj hr; decide), ?_, ?_⟩
  · rintro bytes rest h
    obtain ⟨h, -⟩ := List.cons.inj h
    obtain rfl := HostAction.issue.inj h
    rfl
  · rintro a rest (h | ⟨v, h⟩)
    · obtain ⟨h, -⟩ := List.cons.inj h
      cases h
    · obtain ⟨h, -⟩ := List.cons.inj h
      obtain ⟨rfl, -⟩ := HostAction.writeMem.inj h
      refine ⟨by decide, fun u l h => ?_⟩
      obtain ⟨rfl, rfl⟩ := Prod.mk.inj (Option.some.inj h)
      decide

/-- `INIT` at its busy-wait, with the bound of 3. -/
theorem witness_EveryOperationEndsUnderABound :
    let s : State := { running .init 15 with host := [], xferIn := [] }
    MachineInv s ∧ s.op = some .init ∧ s.host = [] ∧ s.cfg.pollLimit = some 3
      ∧ s.currentMicro.map (·.op) = some (.prim .wait) :=
  ⟨running_inv _ _ _ _ (by decide) (fun _ h => by cases h), rfl, rfl, rfl, by decide⟩

/-- One step of each kind: a read of the host, a pin, a frame, a delay, a poll that reads idle and one that reads busy. -/
theorem witness_StepAppendsWholeEvents :
    let poll (b : BusyLevel) : State := { running .waitUntilIdle 0 with busyIn := [b] }
    ([{ running .init 0 with host := [.readStatus .ustep] }, running .init 0,
        { running .init 4 with xferIn := [.ok] }, running .init 1, poll .high, poll .low].map fun s =>
        (goesOn (step s), (after (step s)).trace)) =
      [(true, []), (true, [.pin .rst .low]), (true, frameTrace .low 0x01 .ok), (true, [.delay 200]),
        (true, [.busyRead .high]), (true, [.busyRead .low, .delay 100])] := by decide

/-- A step that finishes an operation with a fault, the sticky flag clear before it and set after it. -/
theorem witness_FaultedIsSticky :
    let s : State := { running .init 4 with xferIn := [.err ⟨1⟩] }
    let t := after (step s)
    step s = .next t ∧ s.faulted = false ∧ t.opi ≠ s.opi ∧ t.result ≠ .ok ∧ t.faulted ≠ s.faulted :=
  ⟨rfl, rfl, by decide, by decide, by decide⟩

/-- A step within an operation, one that starts an operation and one that ends it. -/
theorem witness_PositionAdvancesByOne :
    let s1 := running .reset 0
    let s2 : State := { State.reset with host := [.issue resetBytes] }
    let s3 := running .reset 3
    (step s1 = .next (after (step s1)) ∧ (after (step s1)).ustep = 1)
      ∧ (step s2 = .next (after (step s2)) ∧ (after (step s2)).op = some .reset)
      ∧ (step s3 = .next (after (step s3)) ∧ (after (step s3)).opi = 1) :=
  ⟨⟨rfl, rfl⟩, ⟨rfl, rfl⟩, ⟨rfl, rfl⟩⟩

/-- The changes of the mode: a transfer error, the end of `INIT`, the end of `SLEEP`. -/
theorem witness_ModeChangesOnlyByTheTable :
    let s1 : State := { running .sleep 0 with host := [], xferIn := [.err ⟨1⟩] }
    let s2 : State := { running .init 20 with host := [], xferIn := [.ok] }
    let s3 : State := { running .sleep 14 with host := [], xferIn := [.ok] }
    ((MachineInv s1 ∧ MachineInv s2 ∧ MachineInv s3)
      ∧ (step s1 = .next (after (step s1)) ∧ step s2 = .next (after (step s2)) ∧ step s3 = .next (after (step s3))))
      ∧ ((after (step s1)).mode = .uninitialized ∧ s1.mode = .active)
      ∧ ((after (step s2)).mode = .active ∧ s2.mode = .uninitialized)
      ∧ ((after (step s3)).mode = .sleeping ∧ s3.mode = .active) :=
  ⟨⟨⟨running_inv _ _ _ _ (by decide) (fun _ h => by cases h), running_inv _ _ _ _ (by decide) (fun _ h => by cases h),
    running_inv _ _ _ _ (by decide) (fun _ h => by cases h)⟩, rfl, rfl, rfl⟩, ⟨rfl, rfl⟩, ⟨rfl, rfl⟩, ⟨rfl, rfl⟩⟩

theorem witness_ProtocolNeverWritesMemory :
    (running .init 0).op ≠ none ∧ (∀ a v rest, (running .init 0).host ≠ .writeMem a v :: rest)
      ∧ step (running .init 0) = .next (after (step (running .init 0)))
      ∧ rasterRanges .reset = none ∧ exec .reset State.reset = .next (after (exec .reset State.reset)) :=
  ⟨by decide, fun _ _ _ => by simp [running, State.reset, State.powerOn], rfl, rfl, rfl⟩

theorem active_inv (h : List HostAction) : MachineInv { activeState with host := h } :=
  ⟨rfl, rfl, fun _ => ⟨rfl, rfl⟩, fun _ h => (by cases h), fun h => (by cases h), fun h => absurd rfl h,
    fun h => absurd rfl h, by simp [activeState, State.reset, State.powerOn]⟩

/-- A `RESET` is accepted in `Active`; a busy-wait meets its bound. -/
theorem witness_ModeChangesToUninitialized :
    let s4 : State := { activeState with host := [.issue resetBytes] }
    let s5 : State := { running .waitUntilIdle 0 with busyIn := [.low], inWait := true, polln := 2 }
    (MachineInv s4 ∧ MachineInv s5)
      ∧ (step s4 = .next (after (step s4)) ∧ s4.op = none ∧ (after (step s4)).op = some .reset
        ∧ (after (step s4)).mode ≠ s4.mode)
      ∧ step s5 = .next (after (step s5)) ∧ (after (step s5)).result = .deviceNotResponding
        ∧ (after (step s5)).mode ≠ s5.mode :=
  ⟨⟨active_inv _, rfl, rfl, fun h => (by cases h),
      fun j hj => (by obtain rfl := Option.some.inj hj; exact ⟨by decide, rfl, fun _ h => by cases h⟩),
      fun _ => ⟨⟨microW, rfl, rfl⟩, by decide⟩, fun h => absurd rfl h, fun h => absurd rfl h, by decide⟩,
    ⟨rfl, rfl, rfl, by decide⟩, rfl, rfl, by decide⟩

/-- The clauses at their ends, as for the host's write. -/
theorem witness_HostReadsOutsideTheOwnedBufferOnly :
    State.host { transferring with host := [.readMem 4095] } = .readMem 4095 :: []
      ∧ transferring.cfg.memsz ≤ 4096
      ∧ (∀ a ∈ [256, 271], a < transferring.cfg.memsz ∧ ∃ i u l, transferring.op = some i
          ∧ ownedRange (some i) = some (u, l) ∧ u ≤ a ∧ a < u + l)
      ∧ (∀ a ∈ [255, 272, 4095], a < transferring.cfg.memsz ∧ ∀ i u l, transferring.op = some i →
          ownedRange (some i) = some (u, l) → a < u ∨ u + l ≤ a) :=
  ⟨rfl, witness_HostWritesOutsideTheOwnedBufferOnly.2⟩

/-- The changes of `LUTSEL`: the entry of `RESET`, the last byte of a LUT set of either kind, the end of `SLEEP`, and a
transfer error. -/
theorem witness_LutselChangesOnlyByTheTable :
    let s1 : State := { activeState with host := [.issue resetBytes] }
    let s2 : State := { running .displayFrame 14 with host := [], xferIn := [.ok] }
    let s3 : State := { running .displayFrameQuick 14 with host := [], xferIn := [.ok] }
    let s4 : State := { running .sleep 14 with lutsel := .full, xferIn := [.ok] }
    let s5 : State := { running .displayFrame 14 with lutsel := .quick, xferIn := [.err ⟨1⟩] }
    (step s1 = .next (after (step s1)) ∧ s1.lutsel = .full ∧ (after (step s1)).lutsel = .none)
      ∧ (step s5 = .next (after (step s5)) ∧ s5.lutsel = .quick ∧ (after (step s5)).lutsel = .none)
      ∧ (step s2 = .next (after (step s2)) ∧ s2.lutsel = .none ∧ (after (step s2)).lutsel = .full)
      ∧ (step s3 = .next (after (step s3)) ∧ s3.lutsel = .none ∧ (after (step s3)).lutsel = .quick)
      ∧ (step s4 = .next (after (step s4)) ∧ s4.lutsel = .full ∧ (after (step s4)).lutsel = .none) :=
  ⟨⟨rfl, rfl, rfl⟩, ⟨rfl, rfl, rfl⟩, ⟨rfl, rfl, rfl⟩, ⟨rfl, rfl, rfl⟩, ⟨rfl, rfl, rfl⟩⟩

/-- The converse, at the last micro-operation of `LoadLut` by the counts of rules R198 and R212: a BB table of two bytes;
the same in `DISPLAY_AND_TRANSFER_FRAME`; an empty BB table, whose command is the last. -/
theorem witness_LutselIsSetByTheLastFrame :
    let s1 : State := { running .displayFrame 14 with xferIn := [.ok] }
    let s2 : State := { running (.displayAndTransferFrame .white 0 16) 57 with xferIn := [.ok] }
    let s3 : State := { running .displayFrameQuick 12 with
      cfg := { Cfg.reference with lutQuick := { Cfg.reference.lutQuick with bb := [] } }, xferIn := [.ok] }
    (lutEnd s1.cfg .displayFrame = some ⟨.full, 14, frameTrace .high 0xE1 .ok⟩
        ∧ (after (step s1)).trace = frameTrace .high 0xE1 .ok ∧ (after (step s1)).lutsel = .full)
      ∧ (lutEnd s2.cfg (.displayAndTransferFrame .white 0 16) = some ⟨.full, 57, frameTrace .high 0xE1 .ok⟩
        ∧ (after (step s2)).trace = frameTrace .high 0xE1 .ok ∧ (after (step s2)).lutsel = .full)
      ∧ (lutEnd s3.cfg .displayFrameQuick = some ⟨.quick, 12, frameTrace .low 0x24 .ok⟩
        ∧ (after (step s3)).trace = frameTrace .low 0x24 .ok ∧ (after (step s3)).lutsel = .quick) := by decide

/-- Program P5 at its busy-wait: `INIT` polls at micro-operation 15, the second descriptor is pending, no bound, the pin
reads `Low` for ever. -/
def hanging : State :=
  { running .init 15 with
    cfg := { Cfg.reference with pollLimit := none }
    host := [.issue (encode (.clearFrame .white))]
    busyRest := some .low }

/-- The wait of `INIT`; and a `WAIT_UNTIL_IDLE` to be issued in `Active`, one listed reading before the rest. -/
theorem witness_UnboundedWaitHangs :
    ((∀ a ∈ hanging.host, ∃ bytes, a = .issue bytes) ∧ hanging.op = some .init
        ∧ (microSeq hanging.cfg .init)[hanging.ustep]? = some microW ∧ microW.op = .prim .wait
        ∧ (∀ lvl ∈ hanging.busyIn, lvl ≠ .high) ∧ hanging.busyRest = some .low ∧ BusyLevel.low ≠ .high
        ∧ hanging.cfg.pollLimit = none)
      ∧ (let s : State := { activeState with cfg := hanging.cfg, busyIn := [.readErr], busyRest := some .low }
        s.op = none ∧ s.mode = .active ∧ (∀ lvl ∈ s.busyIn, lvl ≠ .high) ∧ s.busyRest = some .low
          ∧ s.cfg.pollLimit = none) :=
  ⟨⟨fun a h => ⟨_, List.mem_singleton.1 h⟩, rfl, rfl, rfl, by decide, rfl, by decide, rfl⟩, rfl, rfl, by decide, rfl, rfl⟩

/-- Program P6, its fourth operation, at a launch whose `RESULT` and `FAULTED` an earlier run left set. -/
theorem witness_RunHasExactlyOneOutcome :
    let s : State := { State.reset with result := .bufferSizeMismatch, faulted := true, opi := 3 }
    MachineInv s ∧ s.op = none ∧ ∀ bytes ∈ [encode (.drawPixel 3 1 .black 0 16)], bytes.length = 24 :=
  ⟨⟨rfl, rfl, fun _ => ⟨rfl, rfl⟩, fun _ h => (by cases h), fun h => absurd h (by decide), fun _ => rfl, fun _ => rfl,
    by decide⟩, rfl, by decide⟩

/-! Runs: programs P5 and P6 of spec/96_test_programs.md. -/

/-- P6 as four runs of one descriptor, each from the state the one before ended in: the outcome's kind and `OPI`. -/
theorem test_program_P6 :
    let outcome : State → List Byte → Bool × Bool × Nat := fun s d =>
      match runStatus 1 (s.launch [d]) with
      | .completed e => (true, e.faulted, e.opi)
      | .stoppedAtFault e => (false, e.faulted, e.opi)
      | _ => (false, false, 0)
    let ds : List (List Byte) := [0x0B :: List.replicate 23 0x00, encode (.clear .black 0 16) |>.set 1 0x05,
      encode (.drawPixel 3 1 .black 0 15), encode (.drawPixel 3 1 .black 0 16)]
    let found : Nat → ResultCode → State := fun n r => { State.reset with opi := n, result := r, faulted := decide (0 < n) }
    [outcome (found 0 .ok) (ds.getD 0 []), outcome (found 1 .illegalOp) (ds.getD 1 []),
        outcome (found 2 .illegalOp) (ds.getD 2 []), outcome (found 3 .bufferSizeMismatch) (ds.getD 3 [])]
      = [(false, true, 1), (false, true, 2), (false, true, 3), (true, true, 4)] := by decide

/-- A run of the four descriptors as one program ends at the first fault. -/
theorem test_run_stops_at_its_first_fault :
    runStatus 4 (State.reset.launch [encode (.drawPixel 3 1 .black 0 15), encode (.drawPixel 3 1 .black 0 16)])
      = .stoppedAtFault (preCheckFault State.reset .bufferSizeMismatch).endState := by rfl

/-- P5: the wait is in progress after any of these polls, and the second descriptor is never issued. -/
theorem test_program_P5 :
    (match runStatus 3 hanging with
      | .going t => (t.inWait, t.polln, t.opi, t.ustep, t.host.length, t.mode)
      | _ => (false, 0, 0, 0, 0, .sleeping)) = (true, 3, 0, 15, 1, .uninitialized) := by decide

end Sys2Proof.Tests
end

section
/-! PROOFS. The sticky flag `FAULTED` (spec/10_state.md rule R31) and power-on (rule R41). -/

namespace Sys2Proof.Machine

/-! `FAULTED`, `OPI` and `RESULT` at the end of an operation and of a micro-operation. -/

theorem SameRegs.faulted {u s : State} (h : SameRegs u s) : u.faulted = s.faulted := by
  obtain ⟨-, -, -, -, -, hfaulted, -, -, -⟩ := h
  exact hfaulted

theorem SameRegs.opi {u s : State} (h : SameRegs u s) : u.opi = s.opi := by
  obtain ⟨-, -, -, -, -, -, hopi, -, -⟩ := h
  exact hopi

/-- A fault never writes the code `Ok` (rule R230). -/
theorem OpFault.result_ne_ok (f : OpFault) : f.result ≠ .ok := by
  cases f <;> simp [OpFault.result]

@[simp] theorem microDone_faulted (s : State) (i : Instr) (loads : Option LutSet) :
    (microDone s i loads).faulted = s.faulted := by
  unfold microDone; split <;> rfl

/-- A micro-operation that completes leaves the operation in progress, or ends it with the result `Ok`. -/
theorem microDone_opi_or_result (s : State) (i : Instr) (loads : Option LutSet) :
    (microDone s i loads).opi = s.opi ∨ (microDone s i loads).result = .ok := by
  unfold microDone
  split
  · exact .inl rfl
  · exact .inr rfl

/-- The end of a step as `FAULTED` sees it: no operation has finished, one has finished `Ok`, or one has finished with a
fault. Only the last writes the flag. -/
theorem step_faulted_cases (s t : State) (h : step s = .next t) :
    (t.faulted = s.faulted ∧ (t.opi = s.opi ∨ t.result = .ok))
      ∨ (t.faulted = true ∧ t.opi = s.opi + 1 ∧ t.result ≠ .ok) := by
  rcases step_cases s t h with ht | ⟨u, f, rfl, hu, -⟩ | ⟨u, rfl, hu, -⟩ | ⟨i, u, rfl, -, -, hu⟩
    | ⟨i, m, u, rfl, hu, -, -⟩
  · exact .inl ⟨ht.faulted, .inl ht.opi⟩
  · exact .inr ⟨rfl, by simp [hu.opi], f.result_ne_ok⟩
  · exact .inl ⟨hu.faulted, .inr rfl⟩
  · rcases hu with ⟨-, v, rfl, hv⟩ | ⟨-, hu, -⟩
    · exact .inl ⟨hv.faulted, .inl hv.opi⟩
    · exact .inl ⟨hu.faulted, .inl hu.opi⟩
  · refine .inl ⟨by simp [hu.faulted], ?_⟩
    simpa [hu.opi] using microDone_opi_or_result u i m.loads

/-- Settles O53: each clause is read off `step_faulted_cases`. -/
theorem faultedIsSticky : Obligations.FaultedIsSticky := by
  refine ⟨fun s t h => ?_, fun _ _ _ _ _ _ _ => rfl⟩
  rcases step_faulted_cases s t h with ⟨hkept, hend⟩ | ⟨hset, hopi, hresult⟩
  · refine ⟨fun hs => hkept.trans hs, fun hopi hresult => ?_, fun hne => absurd hkept hne⟩
    rcases hend with hsame | hok
    · exact absurd hsame hopi
    · exact absurd hok hresult
  · exact ⟨fun _ => hset, fun _ _ => hset, fun _ => ⟨hopi, hresult⟩⟩

/-- An idle block with nothing issued stays as it is (rule R41). -/
theorem step_of_idle (s : State) (hhost : s.host = []) (hop : s.op = none) : step s = .next s := by
  rw [step_of_no_host s hhost]
  simp [blockStep, hop]

/-- Settles O47: the registers are those power-on is defined with, and the block is then idle. -/
theorem powerOnValues : Obligations.PowerOnValues := by
  intro cfg mem h x b xr br
  refine ⟨rfl, rfl, rfl, rfl, rfl, rfl, rfl, rfl, rfl, rfl, rfl, rfl, rfl, fun hnil => ?_⟩
  exact step_of_idle _ hnil rfl

end Sys2Proof.Machine
end

section
/-! PROOFS. The decoder's verdict on a descriptor: the fields each operation uses (spec/30_encoding.md rules R92, R95),
the two illegal verdicts (rule R97), and bytes that are no descriptor (rule R96). -/

namespace Sys2Proof

/-! The verdict on the fields. -/

/-- `RSV` is `FLG` without its two low bits (rule R90). -/
theorem rsvOfFlg_eq_zero_iff (flg : Byte) : rsvOfFlg flg = 0 ↔ flg.toNat < 4 := by
  have h := flg.isLt
  rw [← BitVec.toNat_inj]
  simp only [rsvOfFlg, BitVec.extractLsb'_toNat, Nat.shiftRight_eq_div_pow, BitVec.ofNat_eq_ofNat,
    BitVec.toNat_ofNat]
  omega

section
variable {opc flg : Byte} {a b c d : U16} {u l t : U32} {n : U16}

/-- `RSV` is checked before `OPC`, so whatever `OPC` is. -/
theorem decodeFields_of_rsv_ne_zero (hrsv : rsvOfFlg flg ≠ 0) :
    decodeFields opc flg a b c d u l t n = .error .reservedBits := if_pos hrsv

theorem decodeFields_of_unassigned (hrsv : rsvOfFlg flg = 0) (hopc : opc ∉ assignedOpcs) :
    decodeFields opc flg a b c d u l t n = .error .unassignedOpc := by
  simp only [assignedOpcs, List.mem_cons, List.not_mem_nil, or_false, not_or] at hopc
  simp only [decodeFields, hrsv, hopc, ne_eq, not_true_eq_false, if_false]

theorem decodeFields_of_assigned (hrsv : rsvOfFlg flg = 0) (hopc : opc ∈ assignedOpcs) :
    ∃ i, decodeFields opc flg a b c d u l t n = .ok i ∧ i.format = .desc := by
  simp only [assignedOpcs, List.mem_cons, List.not_mem_nil, or_false] at hopc
  rcases hopc with rfl | rfl | rfl | rfl | rfl | rfl | rfl | rfl | rfl | rfl | rfl | rfl | rfl | rfl | rfl | rfl | rfl
    | rfl | rfl <;> exact ⟨_, if_neg (not_not.2 hrsv), rfl⟩

/-! The descriptor given by its fields. -/

theorem decode_descBytes_ok {i : Instr} (h : decodeFields opc flg a b c d u l t n = .ok i) :
    decode .desc (descBytes opc flg a b c d u l t n) = .ok (i, []) := by
  simpa [h] using decode_descBytes opc flg a b c d u l t n []

theorem decode_descBytes_error {e : DecodeReject} (h : decodeFields opc flg a b c d u l t n = .error e) :
    decode .desc (descBytes opc flg a b c d u l t n) = .error e := by
  simpa [h] using decode_descBytes opc flg a b c d u l t n []

/-- The check written apart from the decoder, on the fields. -/
theorem descWellFormed_descBytes :
    descWellFormed (descBytes opc flg a b c d u l t n) = true ↔ opc ∈ assignedOpcs ∧ rsvOfFlg flg = 0 := by
  have hlen : descLengthOk (descBytes opc flg a b c d u l t n) = true := by simp [descLengthOk, length_descBytes]
  have hopc : descOpcOk (descBytes opc flg a b c d u l t n) = assignedOpcs.contains opc := rfl
  have hrsv : descRsvOk (descBytes opc flg a b c d u l t n) = (rsvOfFlg flg == 0) := rfl
  simp [descWellFormed, hlen, hopc, hrsv]

end

/-! Any 24 bytes are the descriptor of their fields. -/

@[simp] theorem bytes16_be16 (hi lo : Byte) : bytes16 (be16 hi lo) = [hi, lo] := by
  have hhi : (hi ++ lo).extractLsb' 8 8 = hi := BitVec.extractLsb'_append_eq_left
  have hlo : (hi ++ lo).extractLsb' 0 8 = lo := BitVec.extractLsb'_append_eq_right
  exact congrArg₂ (fun x y => [x, y]) hhi hlo

@[simp] theorem bytes32_be32 (b3 b2 b1 b0 : Byte) : bytes32 (be32 b3 b2 b1 b0) = [b3, b2, b1, b0] := by
  have h3 : (b3 ++ b2 ++ b1 ++ b0).extractLsb' 24 8 = b3 :=
    (BitVec.extractLsb'_append_eq_of_le (by decide)).trans
      ((BitVec.extractLsb'_append_eq_of_le (by decide)).trans BitVec.extractLsb'_append_eq_left)
  have h2 : (b3 ++ b2 ++ b1 ++ b0).extractLsb' 16 8 = b2 :=
    (BitVec.extractLsb'_append_eq_of_le (by decide)).trans
      ((BitVec.extractLsb'_append_eq_of_le (by decide)).trans BitVec.extractLsb'_append_eq_right)
  have h1 : (b3 ++ b2 ++ b1 ++ b0).extractLsb' 8 8 = b1 :=
    (BitVec.extractLsb'_append_eq_of_le (by decide)).trans BitVec.extractLsb'_append_eq_right
  have h0 : (b3 ++ b2 ++ b1 ++ b0).extractLsb' 0 8 = b0 := BitVec.extractLsb'_append_eq_right
  simpa only [bytes32, List.cons.injEq, and_true] using ⟨h3, h2, h1, h0⟩

theorem exists_descBytes_of_length (bytes : List Byte) (h : bytes.length = 24) :
    ∃ opc flg a b c d u l t n, bytes = descBytes opc flg a b c d u l t n := by
  match bytes, h with
  | [opc, flg, a1, a0, b1, b0, c1, c0, d1, d0, u3, u2, u1, u0, l3, l2, l1, l0, t3, t2, t1, t0, n1, n0], _ =>
    exact ⟨opc, flg, be16 a1 a0, be16 b1 b0, be16 c1 c0, be16 d1 d0, be32 u3 u2 u1 u0, be32 l3 l2 l1 l0,
      be32 t3 t2 t1 t0, be16 n1 n0, by simp [descBytes]⟩

theorem decode_desc_of_length_lt (bytes : List Byte) (h : bytes.length < 24) :
    decode .desc bytes = .error .truncated := by
  simp only [decode]
  unfold decodeDesc
  split
  · simp only [List.length_cons] at h
    omega
  · rfl

/-- Settles O3: a descriptor given by its fields is decided by `decodeFields`, whose `RSV` test is the only one before
the `OPC` map. -/
theorem decodeUsesExactlyTheListedFields : Obligations.DecodeUsesExactlyTheListedFields := by
  intro flg a b c d u l t n color plane word
  refine ⟨fun hflg => ?_, fun hflg opc => ?_⟩
  · have hrsv : ¬ rsvOfFlg flg ≠ 0 := not_not.2 ((rsvOfFlg_eq_zero_iff flg).2 hflg)
    and_intros <;> exact decode_descBytes_ok (if_neg hrsv)
  · have hrsv : rsvOfFlg flg ≠ 0 := fun h => absurd ((rsvOfFlg_eq_zero_iff flg).1 h) (by omega)
    exact decode_descBytes_error (decodeFields_of_rsv_ne_zero hrsv)

end Sys2Proof

namespace Sys2Proof.Machine

/-- An `Issue` at an idle block is taken (rules R24, R40). -/
theorem step_of_issue_idle (s : State) (bytes : List Byte) (rest : List HostAction) (hop : s.op = none)
    (hhost : s.host = .issue bytes :: rest) : step s = issueBytes bytes s.popHost := by
  simp [step, machineStep, hhost, hop]

theorem issueBytes_of_length_ne (bytes : List Byte) (s : State) (h : bytes.length ≠ 24) :
    issueBytes bytes s = .refused .descriptorLength := if_pos h

/-- Settles O4: 24 bytes are the descriptor of their fields, whose verdict turns on `RSV` and on `OPC` being assigned;
fewer bytes are refused by the length check of `Issue`. -/
theorem decodeVerdictOnAnyBytes : Obligations.DecodeVerdictOnAnyBytes := by
  refine fun bytes => ⟨fun hlen hwf => ?_, fun hlen hwf => ?_, fun hlen => ⟨decode_desc_of_length_lt bytes hlen, ?_⟩⟩
  · obtain ⟨opc, flg, a, b, c, d, u, l, t, n, rfl⟩ := exists_descBytes_of_length bytes hlen
    obtain ⟨hopc, hrsv⟩ := descWellFormed_descBytes.1 hwf
    obtain ⟨i, hi, hformat⟩ := decodeFields_of_assigned hrsv hopc
    exact ⟨i, decode_descBytes_ok hi, hformat⟩
  · obtain ⟨opc, flg, a, b, c, d, u, l, t, n, rfl⟩ := exists_descBytes_of_length bytes hlen
    by_cases hrsv : rsvOfFlg flg = 0
    · have hopc : opc ∉ assignedOpcs := fun hopc => by simp [descWellFormed_descBytes.2 ⟨hopc, hrsv⟩] at hwf
      exact .inl (decode_descBytes_error (decodeFields_of_unassigned hrsv hopc))
    · exact .inr (decode_descBytes_error (decodeFields_of_rsv_ne_zero hrsv))
  · intro s rest hop hhost
    rw [step_of_issue_idle s bytes rest hop hhost]
    exact issueBytes_of_length_ne bytes s.popHost hlen.ne

end Sys2Proof.Machine
end

section
/-! PROOFS. `CLEAR`, `DRAW_PIXEL`, `DRAW_HLINE`, `DRAW_VLINE` (spec/41_raster_pixel_line.md): the checks of a rasterizer
operation without a text range, the drawing operations that plot a list of points, and the points of each. -/

namespace Sys2Proof.Machine

/-- The three outcomes of a rasterizer operation without a text range at an idle block (rule R142). -/
theorem rasterOp_without_text (u l : U32) (draw : Cfg → Nat → Memory → Memory) (s : State) (hop : s.op = none) :
    (l.toNat ≠ canvasBytes s.cfg → rasterOp u l none draw s = .next (preCheckFault s .bufferSizeMismatch))
      ∧ (l.toNat = canvasBytes s.cfg → s.cfg.memsz < u.toNat + l.toNat →
          rasterOp u l none draw s = .next (preCheckFault s .memRange))
      ∧ (l.toNat = canvasBytes s.cfg → u.toNat + l.toNat ≤ s.cfg.memsz →
          rasterOp u l none draw s = .next (finished { s with mem := draw s.cfg u.toNat s.mem })) := by
  refine ⟨fun hl => ?_, fun hl hr => ?_, fun hl hr => ?_⟩
  · rw [rasterOp_size u l none draw s hop hl, raise_preCheck s _ rfl rfl]
    rfl
  · rw [rasterOp_range u l none draw s hop hl hr, raise_preCheck s _ rfl rfl]
    rfl
  · rw [rasterOp_ok u l none draw s hop hl hr (by simp), finishOk_eq]

/-- An operation that plots a list of points draws exactly their set. -/
theorem drawsExactly_of_plotAll {i : Instr} {color : Color} {u l : U32} {pixels : State → Int → Int → Prop} {s : State}
    (points : List Point)
    (hexec : exec i s = rasterOp u l none (fun cfg a m => plotAll cfg a color m points) s)
    (hpoints : ∀ X Y : Int, (X, Y) ∈ points ↔ pixels s X Y) : DrawsExactly i color u l pixels s := by
  intro hop
  rw [hexec]
  obtain ⟨hsize, hrange, hdraw⟩ := rasterOp_without_text u l (fun cfg a m => plotAll cfg a color m points) s hop
  exact ⟨hsize, hrange, fun hl hr hwf =>
    ⟨_, hdraw hl hr, drewExactly_plotAll s.cfg u.toNat color s.mem points (pixels s) hwf hpoints⟩⟩

/-! The colour's byte (rule R10). -/

theorem colorByte_black (cfg : Cfg) : colorByte cfg .black = if cfg.blackBit then 0xFF else 0x00 := rfl

theorem colorByte_white (cfg : Cfg) : colorByte cfg .white = if cfg.blackBit then 0x00 else 0xFF := by
  cases h : cfg.blackBit <;> simp [colorByte, colorBit, h]

/-! The points of the axis lines. The end `x + w - 1` is an integer, so a length of 0 leaves no point. -/

theorem mem_hlinePoints (x y w : U16) (p : Point) :
    p ∈ hlinePoints x y w ↔ p.2 = y.toNat ∧ (x.toNat : Int) ≤ p.1 ∧ p.1 < x.toNat + w.toNat := by
  rw [hlinePoints, mem_rowPoints]
  omega

theorem mem_vlinePoints (x y n : U16) (p : Point) :
    p ∈ vlinePoints x y n ↔ p.1 = x.toNat ∧ (y.toNat : Int) ≤ p.2 ∧ p.2 < y.toNat + n.toNat := by
  rw [vlinePoints, mem_columnPoints]
  omega

/-- Settles O14: past the checks the buffer is filled with the colour's byte, read back inside and outside of it. -/
theorem clearFillsTheBuffer : Obligations.ClearFillsTheBuffer := by
  intro color u l s hop
  obtain ⟨hsize, hrange, hfill⟩ :=
    rasterOp_without_text u l (fun cfg a m => m.fill a l.toNat (colorByte cfg color)) s hop
  refine ⟨hsize, hrange, fun hl hr hwf => ⟨_, hfill hl hr, fun j hj => ?_, fun a ha => ?_⟩⟩
  · rw [Memory.read_fill_in s.mem u.toNat l.toNat _ hwf j hj]
    cases color with
    | black => exact colorByte_black s.cfg
    | white => exact colorByte_white s.cfg
  · exact Memory.read_fill_out s.mem u.toNat l.toNat _ a ha

/-- Settles O15: the list plotted is the one point. -/
theorem drawPixelSetsOnePixel : Obligations.DrawPixelSetsOnePixel := fun x y _ _ _ _ =>
  drawsExactly_of_plotAll [((x.toNat : Int), (y.toNat : Int))] rfl fun X Y => by simp

/-- Settles O16: the list plotted is the row segment of `mem_hlinePoints`. -/
theorem drawHlineDrawsTheRowSegment : Obligations.DrawHlineDrawsTheRowSegment := fun x y w _ _ _ _ =>
  drawsExactly_of_plotAll (hlinePoints x y w) rfl fun X Y => mem_hlinePoints x y w (X, Y)

/-- Settles O17: the list plotted is the column segment of `mem_vlinePoints`. -/
theorem drawVlineDrawsTheColumnSegment : Obligations.DrawVlineDrawsTheColumnSegment := fun x y n _ _ _ _ =>
  drawsExactly_of_plotAll (vlinePoints x y n) rfl fun X Y => mem_vlinePoints x y n (X, Y)

end Sys2Proof.Machine
end

section
/-! PROOFS. `DRAW_RECT` and `DRAW_FRECT` (spec/42_raster_shapes.md): their pixel sets, and reversed corners. -/

namespace Sys2Proof.Machine

/-- Settles O18: the list plotted is the boundary of `mem_rectPoints`. -/
theorem drawRectDrawsTheBoundary : Obligations.DrawRectDrawsTheBoundary := fun x0 y0 x1 y1 _ _ _ _ =>
  drawsExactly_of_plotAll (rectPoints x0 y0 x1 y1) rfl fun X Y => mem_rectPoints x0 y0 x1 y1 (X, Y)

/-- Settles O19: the list plotted is the box of `mem_frectPoints`. -/
theorem drawFrectDrawsTheBox : Obligations.DrawFrectDrawsTheBox := fun x0 y0 x1 y1 _ _ _ _ =>
  drawsExactly_of_plotAll (frectPoints x0 y0 x1 y1) rfl fun X Y => mem_frectPoints x0 y0 x1 y1 (X, Y)

/-! Reversed corners (rule R163). -/

theorem frectPoints_of_reversed {x0 y0 x1 y1 : U16} (h : x1.toNat < x0.toNat ∨ y1.toNat < y0.toNat) :
    frectPoints x0 y0 x1 y1 = [] := by
  refine List.eq_nil_iff_forall_not_mem.2 fun p hp => ?_
  obtain ⟨hleft, hright, htop, hbottom⟩ := (mem_frectPoints x0 y0 x1 y1 p).1 hp
  omega

theorem rectPoints_of_reversed {x0 y0 x1 y1 : U16} (h : x1.toNat < x0.toNat ∨ y1.toNat < y0.toNat) :
    rectPoints x0 y0 x1 y1 = [] := by
  refine List.eq_nil_iff_forall_not_mem.2 fun p hp => ?_
  obtain ⟨hleft, hright, htop, hbottom, -⟩ := (mem_rectPoints x0 y0 x1 y1 p).1 hp
  omega

/-- An operation past its checks that plots no point finishes with the memory as it was, in canonical form or not. -/
theorem exec_of_plotAll_nil {i : Instr} {color : Color} {u l : U32} {s : State} {points : List Point}
    (hexec : exec i s = rasterOp u l none (fun cfg a m => plotAll cfg a color m points) s) (hnil : points = [])
    (hop : s.op = none) (hsize : l.toNat = canvasBytes s.cfg) (hrange : u.toNat + l.toNat ≤ s.cfg.memsz) :
    exec i s = .next (finished s) := by
  subst hnil
  obtain ⟨-, -, hdraw⟩ := rasterOp_without_text u l (fun cfg a m => plotAll cfg a color m []) s hop
  exact hexec.trans (hdraw hsize hrange)

/-- Settles O20: neither operation has a point to plot. -/
theorem reversedCornersDrawNothing : Obligations.ReversedCornersDrawNothing :=
  fun _ _ _ _ _ _ _ _ hop hsize hrange hreversed =>
    ⟨exec_of_plotAll_nil rfl (rectPoints_of_reversed hreversed) hop hsize hrange,
      exec_of_plotAll_nil rfl (frectPoints_of_reversed hreversed) hop hsize hrange⟩

end Sys2Proof.Machine
end

section
/-! PROOFS. `DRAW_STRING` (spec/43_raster_text.md): the packed rows and the bits of a character's cell, the points of a
cell and of a text, and the operation past its text check. -/

namespace Sys2Proof.Machine

/-! The cell of a character (rules R180, R183). -/

/-- No code has two glyphs, so the first glyph with a code is the only one. -/
theorem cellRows_of_mem {cfg : Cfg} (hcodes : (cfg.glyphs.map Glyph.code).Nodup) {g : Glyph} (hg : g ∈ cfg.glyphs) :
    cellRows cfg g.code = g.rows := by
  unfold cellRows
  split
  next g' hfind =>
    have hcode : g'.code = g.code := by simpa using List.find?_some hfind
    rw [List.inj_on_of_nodup_map hcodes (List.mem_of_find?_eq_some hfind) hg hcode]
  next hfind => simpa using List.find?_eq_none.1 hfind g hg

theorem cellRows_of_no_glyph {cfg : Cfg} {ch : Byte} (hnone : ∀ g ∈ cfg.glyphs, g.code ≠ ch) :
    cellRows cfg ch = cfg.fallback := by
  have hfind : cfg.glyphs.find? (fun g => g.code == ch) = none :=
    List.find?_eq_none.2 fun g hg => by simpa using hnone g hg
  rw [cellRows, hfind]

/-- The rows that `CellHas` names by the font table are the rows the machine looks up. -/
theorem eq_cellRows_iff {cfg : Cfg} (hcodes : (cfg.glyphs.map Glyph.code).Nodup) (ch : Byte) (rows : List Byte) :
    ((∃ g ∈ cfg.glyphs, g.code = ch ∧ rows = g.rows) ∨ ((∀ g ∈ cfg.glyphs, g.code ≠ ch) ∧ rows = cfg.fallback))
      ↔ rows = cellRows cfg ch := by
  by_cases hglyph : ∃ g ∈ cfg.glyphs, g.code = ch
  · obtain ⟨g, hg, rfl⟩ := hglyph
    rw [cellRows_of_mem hcodes hg]
    constructor
    · rintro (⟨g', hg', hcode, rfl⟩ | ⟨hnone, -⟩)
      · rw [List.inj_on_of_nodup_map hcodes hg' hg hcode]
      · exact absurd rfl (hnone g hg)
    · exact fun hrows => .inl ⟨g, hg, rfl, hrows⟩
  · have hnone : ∀ g ∈ cfg.glyphs, g.code ≠ ch := fun g hg hcode => hglyph ⟨g, hg, hcode⟩
    rw [cellRows_of_no_glyph hnone]
    constructor
    · rintro (⟨g, hg, hcode, -⟩ | ⟨-, hrows⟩)
      · exact absurd hcode (hnone g hg)
      · exact hrows
    · exact fun hrows => .inr ⟨hnone, hrows⟩

theorem shiftRight_and_one_eq_one_iff (b : Byte) (k : Nat) : (b >>> k) &&& 1 = 1 ↔ b.getLsbD k = true := by
  rw [show (1 : Byte) = 1#8 from rfl, BitVec.and_one_eq_setWidth_ofBool_getLsbD, BitVec.getLsbD_ushiftRight,
    Nat.add_zero]
  cases b.getLsbD k <;> decide

/-- A byte that is missing and read as 0 has no bit. -/
theorem getLsbD_getD_zero_iff (byte : Option Byte) (k : Nat) :
    (byte.getD 0).getLsbD k = true ↔ ∃ b, byte = some b ∧ b.getLsbD k = true := by
  cases byte <;> simp

theorem cellBit_iff_cellHas {cfg : Cfg} (hcodes : (cfg.glyphs.map Glyph.code).Nodup) (ch : Byte) (r c : Nat) :
    cellBit cfg ch r c = true ↔ CellHas cfg ch r c := by
  simp only [CellHas, eq_cellRows_iff hcodes, shiftRight_and_one_eq_one_iff, exists_and_left, exists_eq_left]
  rw [cellBit, List.getD_eq_getElem?_getD]
  exact getLsbD_getD_zero_iff _ _

/-! The points of a cell and of a text (rule R182). -/

theorem mem_cellPoints (cfg : Cfg) (ch : Byte) (x0 y0 X Y : Int) :
    (X, Y) ∈ cellPoints cfg ch x0 y0 ↔
      ∃ r c : Nat, r < cfg.fh ∧ c < cfg.fw ∧ cellBit cfg ch r c = true ∧ X = x0 + c ∧ Y = y0 + r := by
  simp only [cellPoints, List.mem_flatMap, List.mem_map, List.mem_filter, List.mem_range, Prod.mk.injEq]
  constructor
  · rintro ⟨r, hr, c, ⟨hc, hbit⟩, rfl, rfl⟩
    exact ⟨r, c, hr, hc, hbit, rfl, rfl⟩
  · rintro ⟨r, c, hr, hc, hbit, rfl, rfl⟩
    exact ⟨r, hr, c, ⟨hc, hbit⟩, rfl, rfl⟩

/-- The characters of a text in memory with their numbers. -/
theorem mem_zipIdx_readRange (m : Memory) (a n : Nat) (ch : Byte) (i : Nat) :
    (ch, i) ∈ (m.readRange a n).zipIdx ↔ i < n ∧ ch = m.read (a + i) := by
  rw [List.mem_zipIdx_iff_getElem?, Memory.readRange, List.getElem?_map]
  by_cases hi : i < n
  · simp [hi, eq_comm]
  · simp [hi]

theorem mem_textPoints_readRange (cfg : Cfg) (x0 y0 : U16) (m : Memory) (a n : Nat) (X Y : Int) :
    (X, Y) ∈ textPoints cfg x0 y0 (m.readRange a n) ↔
      ∃ i r c : Nat, i < n ∧ r < cfg.fh ∧ c < cfg.fw ∧ cellBit cfg (m.read (a + i)) r c = true
        ∧ X = x0.toNat + i * cfg.fw + c ∧ Y = y0.toNat + r := by
  simp only [textPoints, List.mem_flatMap, Prod.exists, mem_zipIdx_readRange, mem_cellPoints, Nat.cast_mul]
  constructor
  · rintro ⟨_, i, ⟨hi, rfl⟩, r, c, hpoint⟩
    exact ⟨i, r, c, hi, hpoint⟩
  · rintro ⟨i, r, c, hi, hpoint⟩
    exact ⟨_, i, ⟨hi, rfl⟩, r, c, hpoint⟩

/-! The operation (rules R142, R181). -/

theorem exec_drawString (x0 y0 : U16) (color : Color) (u l ta : U32) (tl : U16) (s : State) :
    exec (.drawString x0 y0 color u l ta tl) s = execDrawString x0 y0 color u l ta tl s := rfl

/-- The check of a text that lies inside `MEM` has no effect. -/
theorem rasterOp_of_text_inside (u l : U32) {a n : Nat} (draw : Cfg → Nat → Memory → Memory) {s : State}
    (htext : a + n ≤ s.cfg.memsz) : rasterOp u l (some (a, n)) draw s = rasterOp u l none draw s := by
  have hcheck : rangeFault s.cfg a n = none := (rangeFault_eq_none s.cfg a n).2 htext
  simp only [rasterOp, Option.bind_some, Option.bind_none, hcheck]

/-- With its text inside `MEM` the operation plots a list of points fixed before the first `Plot`: the whole text is
read first (rule R181). -/
theorem exec_drawString_of_text_inside (x0 y0 : U16) (color : Color) (u l ta : U32) (tl : U16) {s : State}
    (htext : ta.toNat + tl.toNat ≤ s.cfg.memsz) :
    exec (.drawString x0 y0 color u l ta tl) s = rasterOp u l none
      (fun cfg a m => plotAll cfg a color m (textPoints s.cfg x0 y0 (s.mem.readRange ta.toNat tl.toNat))) s := by
  rw [exec_drawString, execDrawString, rasterOp_of_text_inside u l _ htext]
  rfl

/-- Settles O30: the list plotted is the text's points, whose bits are those of the font table; a text outside `MEM`
fails the third check. -/
theorem drawStringDrawsItsCells : Obligations.DrawStringDrawsItsCells := by
  intro x0 y0 color u l ta tl s
  constructor
  · intro hcodes htext
    refine drawsExactly_of_plotAll _ (exec_drawString_of_text_inside x0 y0 color u l ta tl htext) fun X Y => ?_
    simp only [mem_textPoints_readRange, cellBit_iff_cellHas hcodes]
  · intro htext hop hsize hrange
    rw [exec_drawString, execDrawString, rasterOp_text u l _ _ _ s hop hsize hrange htext, raise_preCheck s _ rfl rfl]
    rfl

end Sys2Proof.Machine
end

section
/-! PROOFS. The protocol sequencer at `Issue` and its command frames (spec/44_protocol_primitives.md): the mode gate
(rule R203) and the end of a frame that the environment's list answers (rules R191, R192). -/

namespace Sys2Proof.Machine

/-! The end of a frame. -/

/-- A transfer error is a run-time fault that keeps its error value (rules R28, R236). -/
theorem raise_transferError (s : State) (e : XferErr) :
    s.raise (.transferError e) = runTimeFault s .transferError (.err e) := rfl

/-- A frame answered `Ok` completes its micro-operation, whatever the level of data/command. -/
theorem sendFrame_listed_ok {s : State} {i : Instr} {m : MicroStep} {rest : List XferResult} (dc : Level) (b : Byte)
    (hop : s.op = some i) (hm : (microSeq s.cfg i)[s.ustep]? = some m) (hx : s.xferIn = .ok :: rest) :
    s.sendFrame dc b = microDone { s with
      trace := s.trace ++ [.pin .cs .low, .pin .dc dc, .xfer [b] .ok, .pin .cs .high]
      pins := ⟨.high, dc.driven, s.pins.rst⟩
      xferIn := rest } i m.loads := by
  obtain ⟨hnext, hevents⟩ := frameEvents_listed s dc b .ok rest hx
  rw [sendFrame_ok s dc b hnext, hevents]
  exact advance_eq_microDone _ i m hop hm

/-- A frame answered `Err(e)` stops the operation after its four events. -/
theorem sendFrame_listed_err {s : State} {e : XferErr} {rest : List XferResult} (dc : Level) (b : Byte)
    (hx : s.xferIn = .err e :: rest) :
    s.sendFrame dc b = runTimeFault { s with
      trace := s.trace ++ [.pin .cs .low, .pin .dc dc, .xfer [b] (.err e), .pin .cs .high]
      pins := ⟨.high, dc.driven, s.pins.rst⟩
      xferIn := rest } .transferError (.err e) := by
  obtain ⟨hnext, hevents⟩ := frameEvents_listed s dc b (.err e) rest hx
  rw [sendFrame_err s dc b e hnext, hevents, raise_transferError]

/-- Settles O37: the command's instruction sends one frame with data/command low, whose end depends on the answer. -/
theorem commandFrameCompletes : Obligations.CommandFrameCompletes := by
  intro n s i m rest hop hm _ sent
  rw [exec_ofCmd_next]
  refine ⟨fun hx => ?_, fun e hx => ?_⟩
  · rw [sendFrame_listed_ok .low _ hop hm hx]
    rfl
  · rw [sendFrame_listed_err .low _ hx]
    rfl

/-! The start of a protocol operation at an idle block. -/

theorem protocolOp_of_fault {i : Instr} {checks : List (Option OpFault)} {f : OpFault} (entry : State → State)
    {s : State} (hop : s.op = none) (hf : firstFault checks = some f) :
    protocolOp i checks entry s = .next (s.raise f) := by
  simp [protocolOp, hop, hf]

theorem protocolOp_of_no_fault {i : Instr} {checks : List (Option OpFault)} (entry : State → State) {s : State}
    (hop : s.op = none) (hf : firstFault checks = none) : protocolOp i checks entry s = .next ((entry s).begin i) := by
  simp [protocolOp, hop, hf]

theorem modeFault_of_not_active {s : State} (h : s.mode ≠ .active) : modeFault s = some .notActive := if_neg h

/-- Past `RESET` and `INIT` the mode gate is the first check of every protocol operation, before those of its operands
(rules R199, R203). -/
theorem exec_checks_mode_first {i : Instr} (s : State) (hp : isProtocol i = true) (hreset : i ≠ .reset)
    (hinit : i ≠ .init) : ∃ checks, exec i s = protocolOp i (modeFault s :: checks) id s := by
  cases i
  case reset => exact absurd rfl hreset
  case init => exact absurd rfl hinit
  case displayAndTransferFrame | setPartialWindow | displayFrame | displayFrameQuick | clearFrame | sleep
      | waitUntilIdle =>
    exact ⟨_, rfl⟩
  all_goals cases hp

/-- Settles O31: `RESET` and `INIT` have no check, and for the other seven the mode gate finds the first fault. -/
theorem modeGate : Obligations.ModeGate := by
  intro i s hop hp
  refine ⟨?_, fun hreset hinit hmode => ?_⟩
  · rintro (rfl | rfl) <;> exact protocolOp_of_no_fault State.entryReset hop firstFault_nil
  · obtain ⟨checks, hexec⟩ := exec_checks_mode_first s hp hreset hinit
    rw [hexec, modeFault_of_not_active hmode, protocolOp_of_fault id hop (firstFault_some _ _),
      raise_preCheck s _ rfl rfl]
    rfl

end Sys2Proof.Machine
end

section
/-! PROOFS. The faults found at `Issue` (spec/60_exceptions.md): an illegal descriptor (rule R231), and the order of the
checks of `SET_PARTIAL_WINDOW` (rule R238). -/

namespace Sys2Proof.Machine

/-! An illegal descriptor. -/

theorem State.popHost_of_cons {s : State} {action : HostAction} {rest : List HostAction}
    (hhost : s.host = action :: rest) : s.popHost = { s with host := rest } := by
  simp [State.popHost, hhost]

theorem decode_desc_of_not_wellFormed {bytes : List Byte} (hlen : bytes.length = 24)
    (hwf : descWellFormed bytes = false) : ∃ e, decode .desc bytes = .error e := by
  obtain ⟨-, hillegal, -⟩ := decodeVerdictOnAnyBytes bytes
  rcases hillegal hlen hwf with hopc | hrsv
  · exact ⟨_, hopc⟩
  · exact ⟨_, hrsv⟩

/-- The decoder's verdict alone decides the fault: no operand and no register of the state has been looked at. -/
theorem issueBytes_of_decode_error {bytes : List Byte} {e : DecodeReject} (s : State) (hlen : bytes.length = 24)
    (hdecode : decode .desc bytes = .error e) : issueBytes bytes s = .next (s.raise .illegalOp) := by
  simp [issueBytes, hlen, hdecode]

/-- Settles O11: the decoder rejects the descriptor, and `IllegalOp` is not a run-time fault and has no info. -/
theorem illegalDescriptorTakesIllegalOp : Obligations.IllegalDescriptorTakesIllegalOp := by
  intro s bytes rest hop hhost hlen hwf
  obtain ⟨e, hdecode⟩ := decode_desc_of_not_wellFormed hlen hwf
  rw [step_of_issue_idle s bytes rest hop hhost, State.popHost_of_cons hhost,
    issueBytes_of_decode_error _ hlen hdecode, raise_preCheck _ _ rfl rfl]
  rfl

/-! The checks of a protocol operation's operands. -/

theorem sizeFault_of_ne {bufl : U32} {n : Nat} (h : bufl.toNat ≠ n) : sizeFault bufl n = some .bufferSizeMismatch :=
  if_neg h

theorem rangeFault_of_lt {cfg : Cfg} {a n : Nat} (h : cfg.memsz < a + n) : rangeFault cfg a n = some .memRange :=
  if_neg h.not_ge

/-- The window check (rules R214, R238) in naturals, with `XS = x - x mod 8` written out. -/
theorem windowFault_eq_ite (cfg : Cfg) (x y w n : U16) :
    windowFault cfg x y w n =
      if w.toNat = 0 ∨ n.toNat = 0 ∨ cfg.width.toNat < x.toNat - x.toNat % 8 + w.toNat
          ∨ cfg.height.toNat < y.toNat + n.toNat then some .windowError else none := by
  simp only [windowFault, windowXs, ← BitVec.toNat_inj, BitVec.ofNat_eq_ofNat, BitVec.toNat_ofNat, Nat.zero_mod]

/-- The first fault of the checks has no effect but its report (rule R243). -/
theorem protocolOp_of_preCheck {i : Instr} {checks : List (Option OpFault)} (f : OpFault) (entry : State → State)
    {s : State} (hop : s.op = none) (hf : firstFault checks = some f) (hrun : f.isRunTime = false)
    (hinfo : f.info = .zero) : protocolOp i checks entry s = .next (preCheckFault s f.result) := by
  rw [protocolOp_of_fault entry hop hf, raise_preCheck s f hrun hinfo]

/-- Past the mode gate the window, the length and the range are what is left to check (rule R199). -/
theorem exec_setPartialWindow_of_active (x y w n : U16) (plane : Plane) (u l : U32) {s : State}
    (hmode : s.mode = .active) :
    exec (.setPartialWindow x y w n plane u l) s = protocolOp (.setPartialWindow x y w n plane u l)
      [none, windowFault s.cfg x y w n, sizeFault l (ceilDiv w.toNat 8 * n.toNat),
        rangeFault s.cfg u.toNat l.toNat] id s := by
  rw [← (modeFault_eq_none s).2 hmode]
  rfl

/-- Settles O34: outside `Active` by the mode gate; in `Active` each clause says which of the three checks left is the
first to find a fault. -/
theorem partialWindowChecksInOrder : Obligations.PartialWindowChecksInOrder := by
  intro x y w n plane u l s hop bad
  refine ⟨(modeGate (.setPartialWindow x y w n plane u l) s hop rfl).2 nofun nofun, fun hmode hbad => ?_,
    fun hmode hgood hsize => ?_, fun hmode hgood hsize hrange => ?_, fun hmode hgood hsize hrange => ?_⟩
  all_goals rw [exec_setPartialWindow_of_active x y w n plane u l hmode, windowFault_eq_ite]
  · rw [if_pos hbad]
    exact protocolOp_of_preCheck .windowError id hop rfl rfl rfl
  · rw [if_neg hgood, sizeFault_of_ne hsize]
    exact protocolOp_of_preCheck .bufferSizeMismatch id hop rfl rfl rfl
  · rw [if_neg hgood, (sizeFault_eq_none l _).2 hsize, rangeFault_of_lt hrange]
    exact protocolOp_of_preCheck .memRange id hop rfl rfl rfl
  · rw [if_neg hgood, (sizeFault_eq_none l _).2 hsize, (rangeFault_eq_none s.cfg _ _).2 hrange]
    exact protocolOp_of_no_fault id hop rfl

end Sys2Proof.Machine
end

section
/-! PROOFS. The encoder and the decoder (spec/30_encoding.md): every instruction is read back from its bytes (rules R90,
R92, R95, R121), and the five descriptors that the test programs print. -/

namespace Sys2Proof

/-! The flag byte of a colour and of a plane (rules R90, R91). -/

@[simp] theorem colorOfFlg_flgOfColor (c : Color) : colorOfFlg (flgOfColor c) = c := by cases c <;> rfl

@[simp] theorem planeOfFlg_flgOfPlane (p : Plane) : planeOfFlg (flgOfPlane p) = p := by cases p <;> rfl

@[simp] theorem rsvOfFlg_flgOfColor (c : Color) : rsvOfFlg (flgOfColor c) = 0 := by cases c <;> rfl

@[simp] theorem rsvOfFlg_flgOfPlane (p : Plane) : rsvOfFlg (flgOfPlane p) = 0 := by cases p <;> rfl

@[simp] theorem rsvOfFlg_zero : rsvOfFlg 0#8 = 0#6 := rfl

/-! The two formats read back. -/

theorem decode_descBytes_append {opc flg : Byte} {a b c d : U16} {u l t : U32} {n : U16} {i : Instr} (rest : List Byte)
    (h : decodeFields opc flg a b c d u l t n = .ok i) :
    decode .desc (descBytes opc flg a b c d u l t n ++ rest) = .ok (i, rest) := by
  rw [decode_descBytes, h]

/-- The 21 default bytes differ, so the first name found is the command's own. -/
theorem decode_wireCmd_byte (n : CmdName) (rest : List Byte) :
    decode .wireCmd (CmdTable.byte {} n :: rest) = .ok (Instr.ofCmd n, rest) := by
  cases n <;> rfl

@[simp] theorem format_ofCmd (n : CmdName) : (Instr.ofCmd n).format = .wireCmd := by cases n <;> rfl

@[simp] theorem encode_ofCmd (n : CmdName) : encode (Instr.ofCmd n) = [CmdTable.byte {} n] := by cases n <;> rfl

/-- An operation is read back from its descriptor: `RSV` is 0 and its `OPC` leads to its own row of the map. -/
theorem decode_encode_of_desc (i : Instr) (rest : List Byte) (h : i.format = .desc) :
    decode .desc (encode i ++ rest) = .ok (i, rest) := by
  cases i
  case clear | drawPixel | drawLine | drawHline | drawVline | drawRect | drawFrect | drawCircle | drawFcircle
      | drawString | reset | init | displayAndTransferFrame | setPartialWindow | displayFrame | displayFrameQuick
      | clearFrame | sleep | waitUntilIdle =>
    exact decode_descBytes_append rest (by simp [decodeFields])
  all_goals cases h

theorem format_of_raster {i : Instr} {r : Nat × Nat × Option (Nat × Nat)} (h : Machine.rasterRanges i = some r) :
    i.format = .desc := by
  cases i <;> simp only [Machine.rasterRanges, reduceCtorEq] at h <;> rfl

theorem format_of_protocol {i : Instr} (h : Machine.isProtocol i = true) : i.format = .desc := by
  cases i <;> simp only [Machine.isProtocol, Bool.false_eq_true] at h <;> rfl

/-- Settles O2: a command frame by the default table, an operation by its descriptor. -/
theorem decodeEncodeRoundTrip : Obligations.DecodeEncodeRoundTrip := by
  intro i rest
  have of_desc : i.format = .desc → decode i.format (encode i ++ rest) = .ok (i, rest) := fun hformat => by
    rw [hformat]
    exact decode_encode_of_desc i rest hformat
  rcases Machine.instr_cases i with ⟨u, l, text, hr⟩ | hp | ⟨n, rfl⟩
  · exact of_desc (format_of_raster hr)
  · exact of_desc (format_of_protocol hp)
  · rw [format_ofCmd, encode_ofCmd]
    exact decode_wireCmd_byte n rest

/-- Settles O1: the decoder evaluated on the printed bytes. -/
theorem specProgramWordsDecode : Obligations.SpecProgramWordsDecode := by
  refine ⟨?_, ?_, ?_, ?_, ?_, ?_⟩ <;> rfl

end Sys2Proof
end

section
/-! PROOFS. One step at the host's side of the block (spec/10_state.md rules R24, R40, R41; spec/20_memory.md rule R75):
what is issued, the status registers, the bytes of `MEM`, and a step with an `Issue` pending. -/

namespace Sys2Proof.Machine

/-! An `Issue` at an idle block. -/

/-- The decoder takes 24 bytes and leaves the rest (rules R90, R93). -/
theorem length_of_decode_desc {bytes rest : List Byte} {i : Instr} (h : decode .desc bytes = .ok (i, rest)) :
    bytes.length = 24 + rest.length := by
  simp only [decode, decodeDesc] at h
  split at h
  · split at h
    · simp only [Except.ok.injEq, Prod.mk.injEq] at h
      obtain ⟨-, rfl⟩ := h
      simp only [List.length_cons]
      omega
    · cases h
  · cases h

theorem issueBytes_of_decode_ok {bytes : List Byte} {i : Instr} (s : State) (h : decode .desc bytes = .ok (i, [])) :
    issueBytes bytes s = exec i s := by
  have hlen : bytes.length = 24 := length_of_decode_desc h
  simp [issueBytes, hlen, h]

/-- Settles O5: the action is taken and its bytes are decoded. -/
theorem stepRunsTheIssuedOperation : Obligations.StepRunsTheIssuedOperation := by
  intro s bytes rest i hop hhost hdecode
  rw [step_of_issue_idle s bytes rest hop hhost, issueBytes_of_decode_ok _ hdecode, State.popHost_of_cons hhost]

/-- Settles O6: a command frame is the meaning of its instruction. -/
theorem stepRunsTheCommandFrame : Obligations.StepRunsTheCommandFrame := by
  intro s i m n hat hcmd
  rw [step_of_atMicro s i m hat, hcmd]
  exact (exec_ofCmd_next n _).symm

/-- Settles O8: with nothing pending by rule R41, and a `yield` is taken before the same step. -/
theorem idleBlockDoesNothing : Obligations.IdleBlockDoesNothing := by
  refine fun s hop => ⟨fun hhost => step_of_idle s hhost hop, fun rest hhost => ?_⟩
  simp [step, machineStep, hhost, blockStep, hop, State.popHost]

/-! A read of a status register. -/

theorem step_of_readStatus {s : State} {n : StatusReg} {rest : List HostAction}
    (hhost : s.host = .readStatus n :: rest) :
    step s = .next { s with host := rest, obs := s.obs ++ [.status n (s.readStatus n)] } := by
  simp [step, machineStep, hhost, State.popHost, State.observe]

/-- Settles O9: the value observed is `readStatus`, whose codes are those of rules R25 and R230. -/
theorem readStatusObservesTheRegister : Obligations.ReadStatusObservesTheRegister := by
  intro s n rest hhost
  refine ⟨s.readStatus n, step_of_readStatus hhost, ?_, ?_, ?_, ?_, ?_, ?_, ?_, ?_, ?_⟩ <;> rintro rfl
  case refine_1 => cases h : s.mode <;> simp [State.readStatus, Mode.code, h]
  case refine_2 => cases h : s.lutsel <;> simp [State.readStatus, LutSel.code, h]
  case refine_3 => cases h : s.result <;> simp [State.readStatus, ResultCode.code, h]
  all_goals rfl

/-! A host access of `MEM`. -/

theorem State.ownsAddr_iff (s : State) (a : Nat) :
    s.ownsAddr a = true ↔ ∃ i u l, s.op = some i ∧ ownedRange (some i) = some (u, l) ∧ u ≤ a ∧ a < u + l := by
  cases hop : s.op with
  | none => simp [State.ownsAddr, hop, ownedRange]
  | some i =>
    cases hr : ownedRange (some i) with
    | none => simp [State.ownsAddr, hop, hr]
    | some r =>
      obtain ⟨u, l⟩ := r
      simp [State.ownsAddr, hop, hr]

theorem State.ownsAddr_eq_false_iff (s : State) (a : Nat) :
    s.ownsAddr a = false ↔ ∀ i u l, s.op = some i → ownedRange (some i) = some (u, l) → a < u ∨ u + l ≤ a := by
  rw [← Bool.not_eq_true, State.ownsAddr_iff]
  constructor
  · intro hfree i u l hop hr
    by_contra hin
    exact hfree ⟨i, u, l, hop, hr, by omega, by omega⟩
  · rintro hfree ⟨i, u, l, hop, hr, hlo, hhi⟩
    have := hfree i u l hop hr
    omega

theorem hostAccess_outside {s : State} {a : Nat} (next : State) (h : s.cfg.memsz ≤ a) :
    hostAccess a next s = .fault (.noSuchAddress a) := if_pos h

theorem hostAccess_owned {s : State} {a : Nat} (next : State) (hin : a < s.cfg.memsz) (hown : s.ownsAddr a = true) :
    hostAccess a next s = .refused (.rangeOwnedByOperation a) := by
  simp [hostAccess, hin.not_ge, hown]

theorem hostAccess_free {s : State} {a : Nat} (next : State) (hin : a < s.cfg.memsz) (hfree : s.ownsAddr a = false) :
    hostAccess a next s = .next next := by
  simp [hostAccess, hin.not_ge, hfree]

theorem step_of_writeMem {s : State} {a : Nat} {v : Byte} {rest : List HostAction}
    (hhost : s.host = .writeMem a v :: rest) :
    step s = hostAccess a { s with host := rest, mem := s.mem.write a v } s := by
  simp [step, machineStep, hhost, State.popHost]

theorem step_of_readMem {s : State} {a : Nat} {rest : List HostAction} (hhost : s.host = .readMem a :: rest) :
    step s = hostAccess a { s with host := rest, obs := s.obs ++ [.byte a (s.mem.read a)] } s := by
  simp [step, machineStep, hhost, State.popHost, State.observe]

/-- Settles O10: the three verdicts of `hostAccess`, and a write changes one byte. -/
theorem hostWritesOutsideTheOwnedBufferOnly : Obligations.HostWritesOutsideTheOwnedBufferOnly := by
  intro s a v rest hhost hwf
  rw [step_of_writeMem hhost]
  refine ⟨fun hout => hostAccess_outside _ hout, fun hin hown => ?_, fun hin hfree => ?_⟩
  · exact hostAccess_owned _ hin ((s.ownsAddr_iff a).2 hown)
  · exact ⟨s.mem.write a v, hostAccess_free _ hin ((s.ownsAddr_eq_false_iff a).2 hfree),
      Memory.read_write_same _ _ _ hwf, fun b hb => Memory.read_write_other _ _ _ _ hb⟩

/-- Settles O57: the three verdicts of `hostAccess`. -/
theorem hostReadsOutsideTheOwnedBufferOnly : Obligations.HostReadsOutsideTheOwnedBufferOnly := by
  intro s a rest hhost
  rw [step_of_readMem hhost]
  exact ⟨fun hout => hostAccess_outside _ hout, fun hin hown => hostAccess_owned _ hin ((s.ownsAddr_iff a).2 hown),
    fun hin hfree => hostAccess_free _ hin ((s.ownsAddr_eq_false_iff a).2 hfree)⟩

/-! The block never looks at the host's list: every operation of the sequencer commutes with replacing it. -/

/-- The state with another list of coming host actions. -/
def State.withHost (s : State) (actions : List HostAction) : State := { s with host := actions }

section
variable (s : State) (actions : List HostAction)

theorem State.advance_withHost : (s.withHost actions).advance = s.advance.withHost actions := by
  cases hop : s.op with
  | none => rw [advance_none s hop, advance_none (s.withHost actions) hop]
  | some i =>
    by_cases hlt : s.ustep + 1 < (microSeq s.cfg i).length
    · rw [advance_more s i hop hlt, advance_more (s.withHost actions) i hop hlt]
      rfl
    · rw [advance_last s i hop hlt, advance_last (s.withHost actions) i hop hlt]
      cases i <;> rfl

theorem State.drawXfer_withHost : (s.withHost actions).drawXfer = s.drawXfer.withHost actions := by
  cases hin : s.xferIn <;> cases hrest : s.xferRest <;> simp [State.drawXfer, State.withHost, hin, hrest]

theorem State.drawBusy_withHost : (s.withHost actions).drawBusy = s.drawBusy.withHost actions := by
  cases hin : s.busyIn <;> cases hrest : s.busyRest <;> simp [State.drawBusy, State.withHost, hin, hrest]

theorem State.frameEvents_withHost (dc : Level) (b : Byte) :
    (s.withHost actions).frameEvents dc b = (s.frameEvents dc b).withHost actions := by
  rw [frameEvents_eq, frameEvents_eq, State.drawXfer_withHost]
  rfl

theorem State.sendFrame_withHost (dc : Level) (b : Byte) :
    (s.withHost actions).sendFrame dc b = (s.sendFrame dc b).withHost actions := by
  have hnext : (s.withHost actions).nextXfer = s.nextXfer := rfl
  cases hx : s.nextXfer with
  | ok =>
    rw [sendFrame_ok s dc b hx, sendFrame_ok _ dc b (hnext.trans hx), State.frameEvents_withHost,
      State.advance_withHost]
  | err e =>
    rw [sendFrame_err s dc b e hx, sendFrame_err _ dc b e (hnext.trans hx), State.frameEvents_withHost]
    rfl

theorem State.pollOnce_withHost : (s.withHost actions).pollOnce = s.pollOnce.withHost actions := by
  have hnext : (s.withHost actions).nextBusy = s.nextBusy := rfl
  unfold State.pollOnce
  simp only [hnext, State.drawBusy_withHost]
  split
  · exact State.advance_withHost { s.drawBusy.log [.busyRead s.nextBusy] with polln := 0 } actions
  · split
    · rw [if_pos (by assumption)]
      rfl
    · rw [if_neg (by assumption)]
      rfl

end

theorem SamePlace.host {u s : State} (h : SamePlace u s) : u.host = s.host := by
  obtain ⟨-, -, -, -, -, -, -, -, -, -, hhost, -⟩ := h
  exact hhost

@[simp] theorem microDone_host (s : State) (i : Instr) (loads : Option LutSet) :
    (microDone s i loads).host = s.host := by
  unfold microDone
  split <;> rfl

theorem blockStep_host {s t : State} (h : blockStep s = .next t) : t.host = s.host := by
  rcases blockStep_effect s t h with ⟨-, rfl⟩ | ⟨i, m, evs, u, -, -, hu, -, -, -, rfl | ⟨f, -, rfl⟩ | ⟨rfl, -, -⟩⟩
  · rfl
  · rw [microDone_host, hu.host]
  · exact hu.host
  · exact hu.host

theorem blockStep_withHost {s t : State} (actions : List HostAction) (h : blockStep s = .next t) :
    blockStep (s.withHost actions) = .next (t.withHost actions) := by
  rcases blockStep_next s t h with ⟨hop, rfl⟩ | ⟨i, m, hop, hm, hc⟩
  · simp [blockStep, State.withHost, hop]
  · rw [blockStep_micro (s.withHost actions) i m hop hm]
    rcases hc with ⟨n, hn, rfl⟩ | ⟨p, lvl, hn, rfl⟩ | ⟨b, hn, rfl⟩ | ⟨a, hn, ha, rfl⟩ | ⟨ms, hn, rfl⟩ | ⟨hn, rfl⟩
    all_goals rw [hn]
    · exact congrArg _ (State.sendFrame_withHost s actions _ _)
    · exact congrArg _ (State.advance_withHost (s.drivePin p lvl) actions)
    · exact congrArg _ (State.sendFrame_withHost s actions _ _)
    · exact (if_pos ha).trans (congrArg _ (State.sendFrame_withHost s actions _ _))
    · exact congrArg _ (State.advance_withHost (s.log [.delay ms]) actions)
    · exact congrArg _ (State.pollOnce_withHost s actions)

theorem step_of_issue_busy {s : State} {bytes : List Byte} {rest : List HostAction} (hop : s.op ≠ none)
    (hhost : s.host = .issue bytes :: rest) : step s = blockStep s := by
  simp [step, machineStep, hhost, Option.isSome_iff_ne_none.2 hop]

/-- Settles O7: the step is the block's own, which neither reads nor changes the host's list. -/
theorem issueWaitsWhileAnOperationIsInProgress : Obligations.IssueWaitsWhileAnOperationIsInProgress := by
  intro s t bytes rest hop hhost hstep
  rw [step_of_issue_busy hop hhost] at hstep
  refine ⟨blockStep_host hstep, ?_⟩
  rw [step_of_no_host _ rfl]
  exact blockStep_withHost [] hstep

end Sys2Proof.Machine
end

section
/-! PROOFS. The common frame of the rasterizer operations (spec/41_raster_pixel_line.md rule R142) and the outline of a box
(spec/42_raster_shapes.md rule R164). -/

namespace Sys2Proof.Machine

/-- Settles O12: each clause is the case of `rasterOp` whose check is the first to find a fault. -/
theorem rasterOperationChecksInOrder : Obligations.RasterOperationChecksInOrder := by
  intro i s u l text hranges hop
  obtain ⟨bufa, bufl, draw, rfl, rfl, hexec, -⟩ := exec_raster i u l text hranges
  rw [hexec]
  refine ⟨fun hl => ?_, fun hl hr => ?_, fun hl hr ht => ?_, fun hl hr ht => ?_⟩
  · rw [rasterOp_size bufa bufl text draw s hop hl, raise_preCheck s _ rfl rfl]
    rfl
  · rw [rasterOp_range bufa bufl text draw s hop hl hr, raise_preCheck s _ rfl rfl]
    rfl
  · obtain ⟨⟨a, n⟩, rfl, ht⟩ := ht
    rw [rasterOp_text bufa bufl a n draw s hop hl hr ht, raise_preCheck s _ rfl rfl]
    rfl
  · exact ⟨_, rasterOp_ok bufa bufl text draw s hop hl hr ht⟩

/-- Settles O13: a rasterizer operation answers a fault of its checks or the end of its drawing. -/
theorem rasterOperationFrame : Obligations.RasterOperationFrame := by
  intro i s t u l text hranges hustep hwait hstep
  obtain ⟨bufa, bufl, draw, rfl, rfl, hexec, hdraw⟩ := exec_raster i u l text hranges
  rw [hexec] at hstep
  obtain ⟨hop, ⟨f, hf, rfl⟩ | ⟨hl, -, -, rfl⟩⟩ := rasterOp_next bufa bufl text draw s t hstep
  · refine ⟨?_, fun _ _ => rfl⟩
    cases s
    rcases hf with rfl | rfl <;> simp_all [State.raise, OpFault.isRunTime, OpFault.info]
  · refine ⟨?_, (hdraw s.cfg s.mem hl).2.2⟩
    cases s
    simp_all [State.finishOk]

/-- Settles O21: by the two membership lemmas, inequalities of the coordinates. -/
theorem outlineLiesOnTheFilledBox : Obligations.OutlineLiesOnTheFilledBox := by
  intro x0 y0 x1 y1
  simp only [mem_rectPoints, mem_frectPoints]
  refine ⟨fun p hp => ?_, fun p hx0 hx1 hy0 hy1 hp => ?_, fun hthin p hp => ?_⟩ <;> omega

end Sys2Proof.Machine
end

section
/-! PROOFS. The window arithmetic of `SET_PARTIAL_WINDOW` (spec/45_protocol_operations.md rule R215). -/

namespace Sys2Proof.Machine

/-- Setting the low three bits. -/
theorem or_seven (n : Nat) : n ||| 7 = 8 * (n / 8) + 7 := by
  have hdiv : (n ||| 7) / 8 = n / 8 := by simpa using Nat.or_div_two_pow (a := n) (b := 7) (n := 3)
  have hmod : (n ||| 7) % 8 = 7 := by
    have hlow : ∀ r < 8, r ||| 7 = 7 := by decide
    have hor : (n ||| 7) % 8 = n % 8 ||| 7 := by simpa using Nat.or_mod_two_pow (a := n) (b := 7) (n := 3)
    rw [hor, hlow _ (Nat.mod_lt n (by decide))]
  omega

theorem windowXs_eq (x : U16) : windowXs x = 8 * (x.toNat / 8) := by
  unfold windowXs
  omega

/-- The right end of a window that is not empty is the last column of its last byte. -/
theorem windowXe_eq {x w : U16} (hw : 0 < w.toNat) : windowXe x w = windowXs x + 8 * ceilDiv w.toNat 8 - 1 := by
  rw [windowXe, or_seven, ceilDiv_eight, windowXs_eq]
  omega

/-- Settles O35: by `windowXe_eq`, arithmetic of quotients by 8. -/
theorem windowArithmetic : Obligations.WindowArithmetic := by
  intro cfg x y w n hw hn
  have hxe := windowXe_eq (x := x) hw
  have hxs := windowXs_eq x
  have hwidth := cfg.width.isLt
  have hheight := cfg.height.isLt
  refine ⟨rfl, rfl, hxe, ?_, rfl, rfl, fun hmod hx hy => ?_⟩
  · rw [hxe, ceilDiv_eight]
    omega
  · rw [hxe, ceilDiv_eight, windowYe]
    omega

end Sys2Proof.Machine
end

section
/-! PROOFS. `DRAW_LINE` (spec/41_raster_pixel_line.md section 4): the walk of rule R143 in closed form, along either major
axis, and what follows from it. -/

namespace Sys2Proof.Machine

/-! The minor coordinate: the integer nearest to `k * b / a`, the larger of two equally near. -/

/-- The multiple of the ideal slope `b / a` at step `k`, rounded half up; 0 where `a = 0`, the line of one point. -/
def nearest (a b k : Int) : Int := (2 * (k * b) + a) / (2 * a)

@[simp] theorem nearest_of_zero (b k : Int) : nearest 0 b k = 0 := by simp [nearest]

section
variable {a b : Int} (ha : 0 < a)
include ha

/-- The error `q * a - k * b` of the rounded multiple `q` lies in the half-open interval of length `a` about 0. -/
theorem nearest_bounds (b k : Int) :
    -a < 2 * (nearest a b k * a - k * b) ∧ 2 * (nearest a b k * a - k * b) ≤ a := by
  have hdiv := Int.mul_ediv_add_emod (2 * (k * b) + a) (2 * a)
  have hlo := Int.emod_nonneg (2 * (k * b) + a) (b := 2 * a) (by omega)
  have hhi := Int.emod_lt_of_pos (2 * (k * b) + a) (b := 2 * a) (by omega)
  have hmul : 2 * a * nearest a b k = 2 * (nearest a b k * a) := by ring
  rw [← nearest, hmul] at hdiv
  omega

/-- The interval determines the multiple. -/
theorem nearest_eq {k q : Int} (hlo : -a < 2 * (q * a - k * b)) (hhi : 2 * (q * a - k * b) ≤ a) :
    nearest a b k = q := by
  obtain ⟨hlo', hhi'⟩ := nearest_bounds ha b k
  have hle : nearest a b k < q + 1 := lt_of_mul_lt_mul_right (by linarith) ha.le
  have hge : q < nearest a b k + 1 := lt_of_mul_lt_mul_right (by linarith) ha.le
  omega

theorem nearest_self (b : Int) : nearest a b a = b := nearest_eq ha (by linarith) (by linarith)

/-- One step on, the multiple grows by one exactly where that keeps its error at most half of `a`: the second test of rule
R143 in the walk's own terms. -/
theorem nearest_succ (hb : 0 ≤ b) (hba : b ≤ a) (k : Int) :
    nearest a b (k + 1)
      = if 2 * ((nearest a b k + 1) * a - (k + 1) * b) ≤ a then nearest a b k + 1 else nearest a b k := by
  obtain ⟨hlo, hhi⟩ := nearest_bounds ha b k
  split
  next hgrow => exact nearest_eq ha (by linarith) hgrow
  next hstay => exact nearest_eq ha (by linarith) (by linarith)

end

theorem nearest_zero (b : Int) {a : Int} (ha : 0 ≤ a) : nearest a b 0 = 0 := by
  obtain rfl | ha := ha.eq_or_lt
  · exact nearest_of_zero b 0
  · exact nearest_eq ha (by linarith) (by linarith)

theorem nearest_nonneg {a b k : Int} (ha : 0 ≤ a) (hb : 0 ≤ b) (hk : 0 ≤ k) : 0 ≤ nearest a b k :=
  Int.ediv_nonneg (by positivity) (by positivity)

/-! The walk in closed form. -/

/-- Point `k` of a line whose major axis is x. -/
def gentlePoint (xa ya dx ady sy : Int) (k : Nat) : Point := (xa + k, ya + sy * nearest dx ady k)

/-- Point `k` of a line whose major axis is y. -/
def steepPoint (xa ya dx ady sy : Int) (k : Nat) : Point := (xa + nearest ady dx k, ya + sy * k)

section
variable {xa ya dx ady sy : Int}

/-- The walk from point `k` on, x being the major axis: its first test always holds, its second is that of
`nearest_succ`. -/
theorem lineWalk_gentle (hdx : 0 < dx) (hady : 0 ≤ ady) (hle : ady ≤ dx) (n k : Nat) (hn : (k + n : Int) = dx) :
    lineWalk (xa + dx) (ya + sy * ady) dx (-ady) sy (n + 1) (xa + k) (ya + sy * nearest dx ady k)
        ((nearest dx ady k + 1) * dx - (k + 1) * ady)
      = (List.range' k (n + 1)).map (gentlePoint xa ya dx ady sy) := by
  induction n generalizing k with
  | zero => simp [lineWalk, gentlePoint]
  | succ n ih =>
    obtain ⟨hlo, hhi⟩ := nearest_bounds hdx ady k
    have hfirst : -ady ≤ 2 * ((nearest dx ady k + 1) * dx - (k + 1) * ady) := by linarith
    have hnotEnd : ¬ (xa + (k : Int) = xa + dx ∧ ya + sy * nearest dx ady k = ya + sy * ady) := by
      rintro ⟨hx, -⟩
      push_cast at hn
      omega
    rw [lineWalk, if_neg hnotEnd, List.range'_succ, List.map_cons, ← ih (k + 1) (by push_cast at hn ⊢; omega)]
    simp only [if_pos hfirst, gentlePoint]
    push_cast
    rw [nearest_succ hdx hady hle]
    congr 2
    · ring
    · split <;> ring
    · split <;> ring

/-- The walk from point `k` on, y being the major axis: its second test always holds. -/
theorem lineWalk_steep (hady : 0 < ady) (hdx : 0 ≤ dx) (hle : dx ≤ ady) (hsy : sy ≠ 0) (n k : Nat)
    (hn : (k + n : Int) = ady) :
    lineWalk (xa + dx) (ya + sy * ady) dx (-ady) sy (n + 1) (xa + nearest ady dx k) (ya + sy * k)
        ((k + 1) * dx - (nearest ady dx k + 1) * ady)
      = (List.range' k (n + 1)).map (steepPoint xa ya dx ady sy) := by
  induction n generalizing k with
  | zero => simp [lineWalk, steepPoint]
  | succ n ih =>
    obtain ⟨hlo, hhi⟩ := nearest_bounds hady dx k
    have hsecond : 2 * ((k + 1) * dx - (nearest ady dx k + 1) * ady) ≤ dx := by linarith
    have hnotEnd : ¬ (xa + nearest ady dx k = xa + dx ∧ ya + sy * (k : Int) = ya + sy * ady) := by
      rintro ⟨-, hy⟩
      have := mul_left_cancel₀ hsy (add_left_cancel hy)
      push_cast at hn
      omega
    have htest : (-ady ≤ 2 * (((k : Int) + 1) * dx - (nearest ady dx k + 1) * ady))
        ↔ 2 * ((nearest ady dx k + 1) * ady - (k + 1) * dx) ≤ ady := by constructor <;> intro h <;> linarith
    rw [lineWalk, if_neg hnotEnd, List.range'_succ, List.map_cons, ← ih (k + 1) (by push_cast at hn ⊢; omega)]
    simp only [if_pos hsecond, steepPoint, htest]
    push_cast
    rw [nearest_succ hady hdx hle]
    congr 2
    · split <;> ring
    · ring
    · split <;> ring

end

/-- The step of the walk in y. -/
def lineSign (ya yb : Int) : Int := if ya < yb then 1 else -1

theorem lineSign_mul_natAbs (ya yb : Int) : ya + lineSign ya yb * ((yb - ya).natAbs : Int) = yb := by
  unfold lineSign
  split <;> omega

theorem lineSign_cases (ya yb : Int) : lineSign ya yb = 1 ∨ lineSign ya yb = -1 := by
  unfold lineSign
  split <;> simp

section
variable {xa ya xb yb : Int} (hx : xa ≤ xb)
include hx

theorem orderedLinePoints_gentle (hle : ((yb - ya).natAbs : Int) ≤ xb - xa) :
    orderedLinePoints xa ya xb yb
      = (List.range ((xb - xa).toNat + 1)).map
          (gentlePoint xa ya (xb - xa) ((yb - ya).natAbs : Int) (lineSign ya yb)) := by
  obtain hdx | hdx := (sub_nonneg.2 hx).eq_or_lt
  · have hady : ((yb - ya).natAbs : Int) = 0 := by omega
    simp [orderedLinePoints, lineWalk, gentlePoint, ← hdx, hady]
  · have hwalk := lineWalk_gentle (xa := xa) (ya := ya) (sy := lineSign ya yb) hdx (by omega) hle (xb - xa).toNat 0
      (by omega)
    rw [lineSign_mul_natAbs, ← List.range_eq_range', Nat.cast_zero, nearest_zero _ hdx.le] at hwalk
    rw [← hwalk, orderedLinePoints, lineSign, neg_neg, max_eq_left hle]
    congr 1 <;> ring

theorem orderedLinePoints_steep (hle : xb - xa ≤ ((yb - ya).natAbs : Int)) :
    orderedLinePoints xa ya xb yb
      = (List.range ((yb - ya).natAbs + 1)).map
          (steepPoint xa ya (xb - xa) ((yb - ya).natAbs : Int) (lineSign ya yb)) := by
  obtain hady | hady := Nat.eq_zero_or_pos (yb - ya).natAbs
  · have hdx : xb - xa = 0 := by omega
    simp [orderedLinePoints, lineWalk, steepPoint, hdx, hady]
  · have hsy : lineSign ya yb ≠ 0 := by rcases lineSign_cases ya yb with h | h <;> simp [h]
    have hwalk := lineWalk_steep (xa := xa) (ya := ya) (sy := lineSign ya yb) (ady := ((yb - ya).natAbs : Int))
      (by omega) (sub_nonneg.2 hx) hle hsy (yb - ya).natAbs 0 (by simp)
    rw [lineSign_mul_natAbs, ← List.range_eq_range', Nat.cast_zero, nearest_zero _ (by omega)] at hwalk
    rw [← hwalk, orderedLinePoints, lineSign, neg_neg, max_eq_right hle, Int.toNat_natCast]
    congr 1 <;> ring

end
end Sys2Proof.Machine
end

section
/-! PROOFS. `DRAW_LINE` (spec/41_raster_pixel_line.md sections 4 and 5): the properties of the walk from its closed form,
its symmetry (rule R144), and the axis lines (rule R147). -/

namespace Sys2Proof.Machine

/-! The properties of the walk between endpoints in canonical order. -/

/-- What rule R143 says of the walk from `first` to `last`: its length, its ends, its steps, and where each of its points
lies. -/
def JoinsEndpoints (first last : Point) (ps : List Point) : Prop :=
  let dx : Int := last.1 - first.1
  let ady : Int := (last.2 - first.2).natAbs
  ps.length = max (last.1 - first.1).natAbs (last.2 - first.2).natAbs + 1
    ∧ ps.Nodup ∧ ps.head? = some first ∧ ps.getLast? = some last
    ∧ (∀ k p q, ps[k]? = some p → ps[k + 1]? = some q →
        (q.1 - p.1).natAbs ≤ 1 ∧ (q.2 - p.2).natAbs ≤ 1
          ∧ ((last.2 - first.2).natAbs ≤ (last.1 - first.1).natAbs → (q.1 - p.1).natAbs = 1)
          ∧ ((last.1 - first.1).natAbs ≤ (last.2 - first.2).natAbs → (q.2 - p.2).natAbs = 1))
    ∧ ∀ (k : Nat) (p : Point), ps[k]? = some p →
        let i : Int := p.1 - first.1
        let j : Int := (p.2 - first.2).natAbs
        0 ≤ i ∧ 0 ≤ (p.2 - first.2) * (last.2 - first.2)
          ∧ (ady ≤ dx → 0 < dx → i = k ∧ -dx < 2 * (j * dx - k * ady) ∧ 2 * (j * dx - k * ady) ≤ dx)
          ∧ (dx ≤ ady → 0 < ady → j = k ∧ -ady < 2 * (i * ady - k * dx) ∧ 2 * (i * ady - k * dx) ≤ ady)

theorem getElem?_map_range {f : Nat → Point} {n k : Nat} {p : Point} :
    ((List.range n).map f)[k]? = some p ↔ k < n ∧ f k = p := by
  by_cases hk : k < n <;> simp [hk]

/-- On a diagonal the rounded multiple is the step itself. -/
theorem nearest_diagonal {a k : Int} (hk : 0 ≤ k) (hka : k ≤ a) : nearest a a k = k := by
  obtain rfl | ha := (hk.trans hka).eq_or_lt
  · rw [nearest_of_zero]
    omega
  · exact nearest_eq ha (by linarith) (by linarith)

/-- The rounded multiple of a slope of at most 1 grows by 0 or by 1. -/
theorem nearest_succ_sub {a b : Int} (ha : 0 < a) (hb : 0 ≤ b) (hba : b ≤ a) (k : Int) :
    nearest a b (k + 1) - nearest a b k = 0 ∨ nearest a b (k + 1) - nearest a b k = 1 := by
  rw [nearest_succ ha hb hba]
  split <;> omega

section
variable {sy : Int} (hsy : sy = 1 ∨ sy = -1)
include hsy

theorem natAbs_sign_mul (n : Int) : (sy * n).natAbs = n.natAbs := by
  rcases hsy with rfl | rfl <;> simp

theorem sign_mul_mul_nonneg {m n : Int} (hm : 0 ≤ m) (hn : 0 ≤ n) : 0 ≤ sy * m * (sy * n) := by
  rcases hsy with rfl | rfl <;> nlinarith [mul_nonneg hm hn]

theorem joinsEndpoints_gentle {xa ya dx ady : Int} (hady : 0 ≤ ady) (hle : ady ≤ dx) :
    JoinsEndpoints (xa, ya) (xa + dx, ya + sy * ady)
      ((List.range (dx.toNat + 1)).map (gentlePoint xa ya dx ady sy)) := by
  have hdx : 0 ≤ dx := hady.trans hle
  have habs := natAbs_sign_mul hsy
  simp only [JoinsEndpoints, getElem?_map_range, add_sub_cancel_left, habs, gentlePoint]
  refine ⟨?_, ?_, ?_, ?_, ?_, ?_⟩
  · simp only [List.length_map, List.length_range]
    omega
  · refine List.nodup_range.map fun k l h => ?_
    have := congrArg Prod.fst h
    simp only [gentlePoint] at this
    omega
  · simp [List.range_succ_eq_map, gentlePoint, nearest_zero _ hdx]
  · have hlast : nearest dx ady dx = ady := by
      obtain rfl | h := hdx.eq_or_lt
      · rw [nearest_of_zero]
        omega
      · exact nearest_self h ady
    simp [List.range_succ, gentlePoint, hdx, hlast]
  · rintro k p q ⟨hk, rfl⟩ ⟨hk1, rfl⟩
    have hpos : 0 < dx := by omega
    have hx : xa + ((k + 1 : ℕ) : Int) - (xa + k) = 1 := by push_cast; ring
    have hy : ya + sy * nearest dx ady (k + 1 : ℕ) - (ya + sy * nearest dx ady k)
        = sy * (nearest dx ady (k + 1) - nearest dx ady k) := by push_cast; ring
    rw [hx, hy, habs]
    refine ⟨by simp, ?_, fun _ => by simp, fun hge => ?_⟩
    · rcases nearest_succ_sub hpos hady hle k with h | h <;> simp [h]
    · obtain rfl : ady = dx := by omega
      rw [nearest_diagonal (by omega) (by omega), nearest_diagonal (by omega) (by omega)]
      simp
  · rintro k p ⟨hk, rfl⟩
    have hnonneg : 0 ≤ nearest dx ady k := nearest_nonneg hdx hady (by omega)
    have hj : ((nearest dx ady k).natAbs : Int) = nearest dx ady k := Int.natAbs_of_nonneg hnonneg
    simp only [add_sub_cancel_left, habs, hj, Int.natAbs_of_nonneg hady]
    refine ⟨by omega, sign_mul_mul_nonneg hsy hnonneg hady, fun _ hpos => ⟨trivial, nearest_bounds hpos ady k⟩,
      fun hge hpos => ?_⟩
    obtain rfl : ady = dx := by omega
    rw [nearest_diagonal (by omega) (by omega)]
    exact ⟨rfl, by linarith, by linarith⟩

theorem joinsEndpoints_steep {xa ya dx ady : Int} (hdx : 0 ≤ dx) (hle : dx ≤ ady) :
    JoinsEndpoints (xa, ya) (xa + dx, ya + sy * ady)
      ((List.range (ady.toNat + 1)).map (steepPoint xa ya dx ady sy)) := by
  have hady : 0 ≤ ady := hdx.trans hle
  have habs := natAbs_sign_mul hsy
  simp only [JoinsEndpoints, getElem?_map_range, add_sub_cancel_left, habs, steepPoint]
  refine ⟨?_, ?_, ?_, ?_, ?_, ?_⟩
  · simp only [List.length_map, List.length_range]
    omega
  · refine List.nodup_range.map fun k l h => ?_
    have := congrArg Prod.snd h
    simp only [steepPoint] at this
    rcases hsy with rfl | rfl <;> omega
  · simp [List.range_succ_eq_map, steepPoint, nearest_zero _ hady]
  · have hlast : nearest ady dx ady = dx := by
      obtain rfl | h := hady.eq_or_lt
      · rw [nearest_of_zero]
        omega
      · exact nearest_self h dx
    simp [List.range_succ, steepPoint, hady, hlast]
  · rintro k p q ⟨hk, rfl⟩ ⟨hk1, rfl⟩
    have hpos : 0 < ady := by omega
    have hx : xa + nearest ady dx (k + 1 : ℕ) - (xa + nearest ady dx k)
        = nearest ady dx (k + 1) - nearest ady dx k := by push_cast; ring
    have hy : ya + sy * ((k + 1 : ℕ) : Int) - (ya + sy * k) = sy * 1 := by push_cast; ring
    rw [hx, hy, habs]
    refine ⟨?_, by simp, fun hge => ?_, fun _ => by simp⟩
    · rcases nearest_succ_sub hpos hdx hle k with h | h <;> simp [h]
    · obtain rfl : dx = ady := by omega
      rw [nearest_diagonal (by omega) (by omega), nearest_diagonal (by omega) (by omega)]
      simp
  · rintro k p ⟨hk, rfl⟩
    have hnonneg : 0 ≤ nearest ady dx k := nearest_nonneg hady hdx (by omega)
    have hj : (((k : Int).natAbs : ℕ) : Int) = k := by simp
    simp only [add_sub_cancel_left, habs, hj, Int.natAbs_of_nonneg hady]
    refine ⟨hnonneg, sign_mul_mul_nonneg hsy (by omega) hady, fun hge hpos => ?_,
      fun _ hpos => ⟨trivial, nearest_bounds hpos dx k⟩⟩
    obtain rfl : dx = ady := by omega
    rw [nearest_diagonal (by omega) (by omega)]
    exact ⟨rfl, by linarith, by linarith⟩

end

theorem joinsEndpoints_orderedLinePoints {xa ya xb yb : Int} (hx : xa ≤ xb) :
    JoinsEndpoints (xa, ya) (xb, yb) (orderedLinePoints xa ya xb yb) := by
  have hdx : xa + (xb - xa) = xb := by ring
  have hy := lineSign_mul_natAbs ya yb
  obtain hle | hle := le_total ((yb - ya).natAbs : Int) (xb - xa)
  · have hjoins := joinsEndpoints_gentle (xa := xa) (ya := ya) (lineSign_cases ya yb) (by omega) hle
    rwa [hdx, hy, ← orderedLinePoints_gentle hx hle] at hjoins
  · have hjoins := joinsEndpoints_steep (xa := xa) (ya := ya) (lineSign_cases ya yb) (sub_nonneg.2 hx) hle
    rwa [hdx, hy, Int.toNat_natCast, ← orderedLinePoints_steep hx hle] at hjoins

/-! The endpoints in canonical order. -/

theorem linePoints_comm (x0 y0 x1 y1 : U16) : linePoints x0 y0 x1 y1 = linePoints x1 y1 x0 y0 := by
  unfold linePoints
  rcases Nat.lt_trichotomy x0.toNat x1.toNat with hx | hx | hx
  · rw [if_neg (by omega), if_pos (by omega)]
  · rcases Nat.lt_trichotomy y0.toNat y1.toNat with hy | hy | hy
    · rw [if_neg (by omega), if_pos (by omega)]
    · rw [if_neg (by omega), if_neg (by omega), hx, hy]
    · rw [if_pos (by omega), if_neg (by omega)]
  · rw [if_pos (by omega), if_neg (by omega)]

/-- Settles O23: the walk between the endpoints in canonical order, by its closed form along the major axis. -/
theorem lineWalkJoinsItsEndpoints : Obligations.LineWalkJoinsItsEndpoints := by
  intro x0 y0 x1 y1
  unfold linePoints
  by_cases hswap : x1.toNat < x0.toNat ∨ (x0.toNat = x1.toNat ∧ y1.toNat < y0.toNat)
  · have hjoins := joinsEndpoints_orderedLinePoints (xa := x1.toNat) (ya := y1.toNat) (xb := x0.toNat) (yb := y0.toNat)
      (by omega)
    have hdx : ((x1.toNat : Int) - x0.toNat).natAbs = ((x0.toNat : Int) - x1.toNat).natAbs := by omega
    have hdy : ((y1.toNat : Int) - y0.toNat).natAbs = ((y0.toNat : Int) - y1.toNat).natAbs := by omega
    simp only [if_pos hswap, hdx, hdy]
    exact hjoins
  · simp only [if_neg hswap]
    exact joinsEndpoints_orderedLinePoints (xa := x0.toNat) (ya := y0.toNat) (by omega)

/-- Settles O24: both directions put their endpoints in the same order. -/
theorem lineIsTheSameInBothDirections : Obligations.LineIsTheSameInBothDirections := by
  refine fun x0 y0 x1 y1 => ⟨linePoints_comm x0 y0 x1 y1, fun color u l s => ?_⟩
  change execDrawLine x0 y0 x1 y1 color u l s = execDrawLine x1 y1 x0 y0 color u l s
  rw [execDrawLine, execDrawLine, linePoints_comm]

/-- Settles O22: the list plotted is the walk. -/
theorem drawLineDrawsItsWalk : Obligations.DrawLineDrawsItsWalk := fun x0 y0 x1 y1 _ _ _ _ =>
  drawsExactly_of_plotAll (linePoints x0 y0 x1 y1) rfl fun _ _ => Iff.rfl

/-! The axis lines (rule R147): a slope of 0 rounds to 0. -/

@[simp] theorem nearest_slope_zero {a : Int} (ha : 0 ≤ a) (k : Int) : nearest a 0 k = 0 := by
  obtain rfl | ha := ha.eq_or_lt
  · exact nearest_of_zero 0 k
  · exact nearest_eq ha (by linarith) (by linarith)

theorem toNat_end {x n : U16} (hn : 1 ≤ n.toNat) (hend : x.toNat + n.toNat - 1 ≤ 65535) :
    (x + n - 1).toNat = x.toNat + n.toNat - 1 := by
  bv_omega

theorem hlinePoints_eq_linePoints (y : U16) {x n : U16} (hn : 1 ≤ n.toNat)
    (hend : x.toNat + n.toNat - 1 ≤ 65535) : hlinePoints x y n = linePoints x y (x + n - 1) y := by
  rw [linePoints, toNat_end hn hend, if_neg (by omega), orderedLinePoints_gentle (by omega) (by simp; omega),
    hlinePoints, rowPoints]
  congr 1
  · funext k
    simp [gentlePoint, nearest_slope_zero (a := ((x.toNat + n.toNat - 1 : ℕ) : Int) - x.toNat) (by omega)]
  · congr 1
    omega

theorem vlinePoints_eq_linePoints (x : U16) {y n : U16} (hn : 1 ≤ n.toNat)
    (hend : y.toNat + n.toNat - 1 ≤ 65535) : vlinePoints x y n = linePoints x y x (y + n - 1) := by
  rw [linePoints, toNat_end hn hend, if_neg (by omega), orderedLinePoints_steep (by omega) (by simp),
    vlinePoints, columnPoints]
  have hcount : ((y.toNat : Int) + n.toNat - 1 - y.toNat + 1).toNat
      = (((y.toNat + n.toNat - 1 : ℕ) : Int) - y.toNat).natAbs + 1 := by omega
  rw [hcount]
  refine List.map_congr_left fun k hk => ?_
  rw [List.mem_range] at hk
  obtain hlt | hle := Nat.lt_or_ge 1 n.toNat
  · have hsign : lineSign y.toNat ((y.toNat + n.toNat - 1 : ℕ) : Int) = 1 := if_pos (by omega)
    simp [steepPoint, hsign]
  · obtain rfl : k = 0 := by omega
    simp [steepPoint]

/-- Settles O25: the same list of points with a length of at least 1, no point with length 0. -/
theorem axisLinesEqualDrawLine : Obligations.AxisLinesEqualDrawLine := by
  refine fun x y n color u l s => ⟨fun hn hend => ?_, fun hn hend => ?_, fun hop hsize hrange => ?_⟩
  · change execDrawHline x y n color u l s = execDrawLine x y (x + n - 1) y color u l s
    rw [execDrawHline, execDrawLine, hlinePoints_eq_linePoints y hn hend]
  · change execDrawVline x y n color u l s = execDrawLine x y x (y + n - 1) color u l s
    rw [execDrawVline, execDrawLine, vlinePoints_eq_linePoints x hn hend]
  · have hhline : hlinePoints x y 0 = [] := by simp [hlinePoints, rowPoints]
    have hvline : vlinePoints x y 0 = [] := by simp [vlinePoints, columnPoints]
    exact ⟨exec_of_plotAll_nil rfl hhline hop hsize hrange, exec_of_plotAll_nil rfl hvline hop hsize hrange⟩

end Sys2Proof.Machine
end

section
/-! PROOFS. `DRAW_CIRCLE` and `DRAW_FCIRCLE` (spec/42_raster_shapes.md section 2): the octant of rule R166 without its
decision variable, its offsets, the eight reflections, and the rows of the filled circle. -/

namespace Sys2Proof.Machine

/-! The octant. -/

/-- The midpoint below and to the right of the offset, on the circle's own scale: negative exactly when it lies inside. The
decision variable `d` of rule R166 always has this value. -/
def midpointTest (r x y : Int) : Int := (x + 1) ^ 2 + y ^ 2 - y - r ^ 2

/-- The row of the offset after `(x, y)`. -/
def nextRow (r x y : Int) : Int := if (x + 1) ^ 2 + y ^ 2 - y < r ^ 2 then y else y - 1

theorem nextRow_le (r x y : Int) : nextRow r x y ≤ y := by
  unfold nextRow
  split <;> omega

theorem le_nextRow (r x y : Int) : y - 1 ≤ nextRow r x y := by
  unfold nextRow
  split <;> omega

theorem octantWalk_of_lt (n : Nat) {x y : Int} (d : Int) (h : y < x) : octantWalk n x y d = [] := by
  cases n with
  | zero => rfl
  | succ n => exact if_neg (by omega)

/-- One iteration of rule R166: the two updates of `d` keep it the midpoint's test. -/
theorem octantWalk_succ (r : Int) (n : Nat) {x y : Int} (h : x ≤ y) :
    octantWalk (n + 1) x y (midpointTest r x y)
      = (x, y) :: octantWalk n (x + 1) (nextRow r x y) (midpointTest r (x + 1) (nextRow r x y)) := by
  have hd : midpointTest r x y < 0 ↔ (x + 1) ^ 2 + y ^ 2 - y < r ^ 2 := by
    unfold midpointTest
    constructor <;> intro h <;> linarith
  rw [octantWalk, if_pos h, nextRow]
  simp only [hd]
  split
  · congr 2
    unfold midpointTest
    ring
  · congr 2
    unfold midpointTest
    ring

theorem octant_eq (r : Nat) : octant r = octantWalk (r + 1) 0 r (midpointTest r 0 r) := by
  rw [octant]
  congr 1
  unfold midpointTest
  ring

section
variable {r : Nat}

/-- The offsets of a walk from column `x` on lie between `x`, the diagonal and the row `y` it starts from. -/
theorem mem_octantWalk_bounds {n : Nat} {x y : Int} {o : Int × Int}
    (ho : o ∈ octantWalk n x y (midpointTest r x y)) : x ≤ o.1 ∧ o.1 ≤ o.2 ∧ o.2 ≤ y := by
  induction n generalizing x y with
  | zero => cases ho
  | succ n ih =>
    obtain hxy | hxy := lt_or_ge y x
    · rw [octantWalk_of_lt _ _ hxy] at ho
      cases ho
    · rw [octantWalk_succ _ n hxy, List.mem_cons] at ho
      rcases ho with rfl | ho
      · exact ⟨le_refl _, hxy, le_refl _⟩
      · obtain ⟨hcol, hdiag, hrow⟩ := ih ho
        have := nextRow_le r x y
        exact ⟨by omega, hdiag, by omega⟩

/-- Two offsets in a row of a walk. -/
theorem octantWalk_consecutive {n k : Nat} {x y : Int} {p q : Int × Int}
    (hp : (octantWalk n x y (midpointTest r x y))[k]? = some p)
    (hq : (octantWalk n x y (midpointTest r x y))[k + 1]? = some q) : q.1 = p.1 + 1 ∧ q.2 = nextRow r p.1 p.2 := by
  induction n generalizing x y k with
  | zero => cases hp
  | succ n ih =>
    obtain hxy | hxy := lt_or_ge y x
    · rw [octantWalk_of_lt _ _ hxy] at hp
      cases hp
    · rw [octantWalk_succ _ n hxy] at hp hq
      rw [List.getElem?_cons_succ] at hq
      cases k with
      | zero =>
        obtain rfl : (x, y) = p := by simpa using hp
        cases n with
        | zero => cases hq
        | succ n =>
          obtain hlt | hge := lt_or_ge (nextRow r x y) (x + 1)
          · rw [octantWalk_of_lt _ _ hlt] at hq
            cases hq
          · rw [octantWalk_succ _ n hge] at hq
            obtain rfl : (x + 1, nextRow r x y) = q := by simpa using hq
            exact ⟨rfl, rfl⟩
      | succ k =>
        rw [List.getElem?_cons_succ] at hp
        exact ih hp hq

/-- The bound on the iterations cuts no walk off: from column `x` and a row of at most `r` the walk has left the octant
before it. -/
theorem octantWalk_getLast {n : Nat} {x y : Int} {p : Int × Int} (hn : x + n = r + 1) (hy : y ≤ r)
    (hp : (octantWalk n x y (midpointTest r x y)).getLast? = some p) : nextRow r p.1 p.2 < p.1 + 1 := by
  induction n generalizing x y with
  | zero => cases hp
  | succ n ih =>
    obtain hxy | hxy := lt_or_ge y x
    · rw [octantWalk_of_lt _ _ hxy] at hp
      cases hp
    · have hrow := nextRow_le r x y
      rw [octantWalk_succ _ n hxy] at hp
      cases htail : octantWalk n (x + 1) (nextRow r x y) (midpointTest r (x + 1) (nextRow r x y)) with
      | nil =>
        rw [htail] at hp
        obtain rfl : (x, y) = p := by simpa using hp
        by_contra hge
        cases n with
        | zero =>
          push_cast at hn
          simp only at hge
          omega
        | succ n =>
          rw [octantWalk_succ _ n (by simpa using hge)] at htail
          cases htail
      | cons o os =>
        rw [htail, List.getLast?_cons_cons, ← htail] at hp
        exact ih (by push_cast at hn; omega) (by omega) hp

theorem octant_head (r : Nat) : (octant r).head? = some (0, (r : Int)) := by
  rw [octant_eq, octantWalk_succ _ r (by omega)]
  rfl

theorem mem_octant_bounds {o : Int × Int} (ho : o ∈ octant r) : 0 ≤ o.1 ∧ o.1 ≤ o.2 ∧ o.2 ≤ r := by
  rw [octant_eq] at ho
  exact mem_octantWalk_bounds ho

theorem zero_radius_mem_octant (r : Nat) : (0, (r : Int)) ∈ octant r := List.mem_of_mem_head? (octant_head r)

end

/-! The circle's points and the filled circle's are the reflections of the octant's offsets. -/

theorem mem_circlePoints (cx cy r : U16) (X Y : Int) :
    (X, Y) ∈ circlePoints cx cy r ↔
      ∃ o ∈ octant r.toNat,
        (((X - cx.toNat).natAbs : Int) = o.1 ∧ ((Y - cy.toNat).natAbs : Int) = o.2)
          ∨ (((X - cx.toNat).natAbs : Int) = o.2 ∧ ((Y - cy.toNat).natAbs : Int) = o.1) := by
  simp only [circlePoints, List.mem_flatMap, List.mem_cons, List.not_mem_nil, or_false, Prod.mk.injEq]
  refine exists_congr fun o => and_congr_right fun ho => ?_
  obtain ⟨hcol, hdiag, -⟩ := mem_octant_bounds ho
  omega

theorem mem_fcirclePoints (cx cy r : U16) (X Y : Int) :
    (X, Y) ∈ fcirclePoints cx cy r ↔
      ∃ o ∈ octant r.toNat,
        (((X - cx.toNat).natAbs : Int) ≤ o.1 ∧ ((Y - cy.toNat).natAbs : Int) = o.2)
          ∨ (((X - cx.toNat).natAbs : Int) ≤ o.2 ∧ ((Y - cy.toNat).natAbs : Int) = o.1) := by
  simp only [fcirclePoints, List.mem_flatMap, List.mem_append, mem_rowPoints]
  refine exists_congr fun o => and_congr_right fun ho => ?_
  obtain ⟨hcol, hdiag, -⟩ := mem_octant_bounds ho
  omega

/-- A pixel of the filled circle and the outline's points of its row: the span of an offset ends in two of them, and a
pixel between two of them is at most as far from the axis as the farther one. -/
theorem mem_fcirclePoints_iff_between (cx cy r : U16) (X Y : Int) :
    (X, Y) ∈ fcirclePoints cx cy r ↔
      ∃ X1 X2 : Int, (X1, Y) ∈ circlePoints cx cy r ∧ (X2, Y) ∈ circlePoints cx cy r ∧ X1 ≤ X ∧ X ≤ X2 := by
  constructor
  · rw [mem_fcirclePoints]
    rintro ⟨o, ho, ⟨hX, hY⟩ | ⟨hX, hY⟩⟩
    all_goals obtain ⟨hcol, hdiag, -⟩ := mem_octant_bounds ho
    · refine ⟨cx.toNat - o.1, cx.toNat + o.1, ?_, ?_, by omega, by omega⟩ <;>
        exact (mem_circlePoints cx cy r _ _).2 ⟨o, ho, .inl ⟨by omega, hY⟩⟩
    · refine ⟨cx.toNat - o.2, cx.toNat + o.2, ?_, ?_, by omega, by omega⟩ <;>
        exact (mem_circlePoints cx cy r _ _).2 ⟨o, ho, .inr ⟨by omega, hY⟩⟩
  · rintro ⟨X1, X2, h1, h2, hle1, hle2⟩
    have far : ∀ X', (X', Y) ∈ circlePoints cx cy r → (X - cx.toNat).natAbs ≤ (X' - cx.toNat).natAbs →
        (X, Y) ∈ fcirclePoints cx cy r := fun X' h' hle => by
      obtain ⟨o, ho, ⟨hX, hY⟩ | ⟨hX, hY⟩⟩ := (mem_circlePoints cx cy r X' Y).1 h'
      · exact (mem_fcirclePoints cx cy r X Y).2 ⟨o, ho, .inl ⟨by omega, hY⟩⟩
      · exact (mem_fcirclePoints cx cy r X Y).2 ⟨o, ho, .inr ⟨by omega, hY⟩⟩
    obtain h | h : (X - cx.toNat).natAbs ≤ (X1 - cx.toNat).natAbs ∨ (X - cx.toNat).natAbs ≤ (X2 - cx.toNat).natAbs := by
      omega
    · exact far X1 h1 h
    · exact far X2 h2 h

/-- Settles O26: the list plotted is the walk. -/
theorem drawCircleDrawsItsWalk : Obligations.DrawCircleDrawsItsWalk := fun cx cy r _ _ _ _ =>
  drawsExactly_of_plotAll (circlePoints cx cy r) rfl fun _ _ => Iff.rfl

/-- Settles O29: the list plotted is that of `mem_fcirclePoints_iff_between`. -/
theorem drawFcircleFillsTheOutlineRowByRow : Obligations.DrawFcircleFillsTheOutlineRowByRow := fun cx cy r _ _ _ _ =>
  drawsExactly_of_plotAll (fcirclePoints cx cy r) rfl fun X Y => mem_fcirclePoints_iff_between cx cy r X Y

/-- Settles O27: the eight reflections hold with any offset its rotation, no offset is beyond `r`, and `(0, r)` is the
first. -/
theorem circleIsSymmetricAndBounded : Obligations.CircleIsSymmetricAndBounded := by
  intro cx cy r
  have hfirst := zero_radius_mem_octant r.toNat
  simp only [mem_circlePoints]
  refine ⟨fun a b => ?_, fun a b => ?_, ⟨_, hfirst, .inr ?_⟩, ⟨_, hfirst, .inr ?_⟩, ⟨_, hfirst, .inl ?_⟩,
    ⟨_, hfirst, .inl ?_⟩⟩
  · refine exists_congr fun o => and_congr_right fun _ => ?_
    omega
  · rintro ⟨o, ho, h⟩
    obtain ⟨hcol, hdiag, hrow⟩ := mem_octant_bounds ho
    omega
  all_goals
    simp only
    omega

/-- Settles O28: the walk without its decision variable, and the reflections of its offsets. -/
theorem circleOctantReachesTheDiagonal : Obligations.CircleOctantReachesTheDiagonal := by
  intro r
  refine ⟨octant_head r.toNat, fun k p q hp hq => ?_, fun p hp => ?_, fun p hp => ?_,
    fun cx cy X Y => mem_circlePoints cx cy r X Y⟩
  · rw [octant_eq] at hp hq
    exact octantWalk_consecutive hp hq
  · obtain ⟨hcol, hdiag, -⟩ := mem_octant_bounds hp
    exact ⟨hcol, hdiag⟩
  · rw [octant_eq] at hp
    have hend : nextRow r.toNat p.1 p.2 < p.1 + 1 := octantWalk_getLast (by push_cast; ring) le_rfl hp
    have := le_nextRow r.toNat p.1 p.2
    exact ⟨hend, by omega⟩

end Sys2Proof.Machine
end

section
/-! PROOFS. The protocol sequencer (spec/44_protocol_primitives.md): the start of an operation in `Active` (rule R199),
pins, delays and data frames (rules R190 to R195), and the busy-wait (rule R196). -/

namespace Sys2Proof.Machine

/-! The start of an operation in `Active`. -/

theorem protocolOp_of_active {i : Instr} {s : State} (hop : s.op = none) (hmode : s.mode = .active) :
    protocolOp i [modeFault s] id s = .next { s with op := some i, ustep := 0, inWait := false } := by
  rw [(modeFault_eq_none s).2 hmode]
  exact protocolOp_of_no_fault id hop rfl

/-- Settles O32: the mode gate is the only check. -/
theorem activeProtocolOperationStarts : Obligations.ActiveProtocolOperationStarts := fun _ _ hop hmode =>
  ⟨protocolOp_of_active hop hmode, protocolOp_of_active hop hmode, protocolOp_of_active hop hmode,
    protocolOp_of_active hop hmode, protocolOp_of_active hop hmode⟩

/-- Past the mode gate the length and the range are what is left to check (rule R212). -/
theorem exec_displayAndTransferFrame_of_active (color : Color) (u l : U32) {s : State} (hmode : s.mode = .active) :
    exec (.displayAndTransferFrame color u l) s = protocolOp (.displayAndTransferFrame color u l)
      [none, sizeFault l (planeBytes s.cfg), rangeFault s.cfg u.toNat l.toNat] id s := by
  rw [← (modeFault_eq_none s).2 hmode]
  rfl

/-- Settles O33: each clause says which of the two checks left is the first to find a fault. -/
theorem transferFrameChecksInOrder : Obligations.TransferFrameChecksInOrder := by
  intro color u l s hop hmode
  rw [exec_displayAndTransferFrame_of_active color u l hmode]
  refine ⟨fun hsize => ?_, fun hsize hrange => ?_, fun hsize hrange => ?_⟩
  · rw [sizeFault_of_ne hsize]
    exact protocolOp_of_preCheck .bufferSizeMismatch id hop rfl rfl rfl
  · rw [(sizeFault_eq_none l _).2 hsize, rangeFault_of_lt hrange]
    exact protocolOp_of_preCheck .memRange id hop rfl rfl rfl
  · rw [(sizeFault_eq_none l _).2 hsize, (rangeFault_eq_none s.cfg _ _).2 hrange]
    exact protocolOp_of_no_fault id hop rfl

/-! Pins, delays and data frames. -/

/-- Settles O36: the event, and then the end of the micro-operation. -/
theorem pinAndDelayMicroOperations : Obligations.PinAndDelayMicroOperations := by
  intro s i m hat
  obtain ⟨-, hop, hm⟩ := id hat
  refine ⟨fun p lvl hpin => ?_, fun ms hdelay => ?_⟩
  · rw [step_of_atMicro s i m hat, hpin]
    exact congrArg _ (advance_eq_microDone (State.drivePin { s with host := s.host.tail } p lvl) i m hop hm)
  · rw [step_of_atMicro s i m hat, hdelay]
    exact congrArg _ (advance_eq_microDone (State.log { s with host := s.host.tail } [.delay ms]) i m hop hm)

/-- The byte of a data micro-operation: a given one, or the one of `MEM` at its address (rules R193, R194). -/
def SendsData (s : State) (m : MicroStep) (b : Byte) : Prop :=
  m.op = .prim (.data b) ∨ ∃ a, m.op = .prim (.dataMem a) ∧ a < s.cfg.memsz ∧ s.mem.read a = b

theorem step_of_sendsData {s : State} {i : Instr} {m : MicroStep} {b : Byte} (hat : AtMicro s i m)
    (hdata : SendsData s m b) : step s = .next (State.sendFrame { s with host := s.host.tail } .high b) := by
  rw [step_of_atMicro s i m hat]
  rcases hdata with hm | ⟨a, hm, ha, rfl⟩
  · rw [hm]
    rfl
  · rw [hm]
    exact if_pos ha

/-- Settles O38: one frame with data/command high, whose end depends on the answer. -/
theorem dataFrameCompletes : Obligations.DataFrameCompletes := by
  intro s i m b rest hat hdata sent
  obtain ⟨-, hop, hm⟩ := id hat
  rw [step_of_sendsData hat hdata]
  exact ⟨fun hx => congrArg _ (sendFrame_listed_ok .high b hop hm hx),
    fun e hx => congrArg _ (sendFrame_listed_err .high b hx)⟩

/-- Settles O39: a command frame and a data frame answered `Err(e)` end alike. -/
theorem transferErrorAbortsTheSequence : Obligations.TransferErrorAbortsTheSequence := by
  intro s i m dc b e rest hat hx hframe
  have hstep : step s = .next (State.sendFrame { s with host := s.host.tail } dc b) := by
    rcases hframe with ⟨rfl, n, hm, rfl⟩ | ⟨rfl, hdata⟩
    · rw [step_of_atMicro s i m hat, hm]
    · exact step_of_sendsData hat hdata
  rw [hstep]
  exact congrArg _ (sendFrame_listed_err dc b hx)

/-! The busy-wait. -/

theorem pollLimitReached_eq_false_iff (limit : Option Nat) (n : Nat) :
    pollLimitReached limit n = false ↔ ∀ l, limit = some l → n < l := by
  cases limit <;> simp [pollLimitReached]

theorem blockStep_of_wait {s : State} {i : Instr} {m : MicroStep} (hop : s.op = some i)
    (hm : (microSeq s.cfg i)[s.ustep]? = some m) (hwait : m.op = .prim .wait) :
    blockStep s = .next s.pollOnce := by
  rw [blockStep_micro s i m hop hm, hwait]
  rfl

/-- The events of a run of busy reads that goes on (rule R196). -/
def busyEvents (cfg : Cfg) (busy : List BusyLevel) : List Event :=
  busy.flatMap fun b => [.busyRead b, .delay cfg.tPoll]

/-- A wait's state after a run of busy reads, the first of them read `b`, that stays under the bound. -/
def afterBusyReads (s : State) (b : BusyLevel) (busy rest : List BusyLevel) : State :=
  { s with
    trace := s.trace ++ busyEvents s.cfg (b :: busy)
    polln := s.pollStart + (busy.length + 1)
    busyIn := rest
    inWait := true }

section
variable {s : State} {i : Instr} {m : MicroStep} {b : BusyLevel} {rest : List BusyLevel}

theorem step_of_busyRead (hhost : s.host = []) (hop : s.op = some i) (hm : (microSeq s.cfg i)[s.ustep]? = some m)
    (hwait : m.op = .prim .wait) (hin : s.busyIn = b :: rest) (hne : b ≠ .high)
    (hlimit : ∀ l, s.cfg.pollLimit = some l → s.pollStart + 1 < l) : step s = .next (afterBusyReads s b [] rest) := by
  rw [step_of_no_host s hhost, blockStep_of_wait hop hm hwait,
    pollOnce_busy s b rest hin hne ((pollLimitReached_eq_false_iff _ _).2 hlimit)]
  rfl

/-- The next wait's poll counts on from the reads before it. -/
theorem afterBusyReads_cons (c : BusyLevel) (busy tail : List BusyLevel) :
    afterBusyReads (afterBusyReads s b [] tail) c busy rest = afterBusyReads s b (c :: busy) rest := by
  simp [afterBusyReads, busyEvents, State.pollStart]
  omega

/-- Busy reads under the bound, one step each. -/
theorem runSteps_busyReads {busy : List BusyLevel}
    (hhost : s.host = []) (hop : s.op = some i) (hm : (microSeq s.cfg i)[s.ustep]? = some m)
    (hwait : m.op = .prim .wait) (hin : s.busyIn = b :: busy ++ rest) (hbusy : ∀ x ∈ b :: busy, x ≠ .high)
    (hlimit : ∀ l, s.cfg.pollLimit = some l → s.pollStart + (busy.length + 1) < l) :
    runSteps (busy.length + 1) s = .next (afterBusyReads s b busy rest) := by
  induction busy generalizing s b with
  | nil => exact runSteps_one s _ (step_of_busyRead hhost hop hm hwait hin (hbusy b (by simp)) hlimit)
  | cons c busy ih =>
    have hfirst : step s = .next (afterBusyReads s b [] (c :: busy ++ rest)) :=
      step_of_busyRead hhost hop hm hwait hin (hbusy b (by simp)) fun l hl => (hlimit l hl).trans_le' (by simp)
    have hlimit' : ∀ l, s.cfg.pollLimit = some l → s.pollStart + 1 + (busy.length + 1) < l := fun l hl => by
      have := hlimit l hl
      simp only [List.length_cons] at this
      omega
    rw [List.length_cons, runSteps_succ _ _ _ hfirst,
      ih (s := afterBusyReads s b [] (c :: busy ++ rest)) (b := c) hhost hop hm rfl
        (fun x hx => hbusy x (List.mem_cons_of_mem b hx)) hlimit', afterBusyReads_cons]

end

/-- The end of a micro-operation forgets whether it was a wait. -/
theorem microDone_inWait (s : State) (w : Bool) (i : Instr) (loads : Option LutSet) :
    microDone { s with inWait := w } i loads = microDone s i loads := by
  unfold microDone
  split <;> rfl

theorem State.pollStart_of_not_inWait {s : State} (h : s.inWait = false) : s.pollStart = 0 := by
  simp [State.pollStart, h]

theorem step_of_idleRead {s : State} {i : Instr} {m : MicroStep} {rest : List BusyLevel} (hhost : s.host = [])
    (hop : s.op = some i) (hm : (microSeq s.cfg i)[s.ustep]? = some m) (hwait : m.op = .prim .wait)
    (hin : s.busyIn = .high :: rest) :
    step s = .next (microDone
      { s with trace := s.trace ++ [.busyRead .high], polln := 0, busyIn := rest } i m.loads) := by
  rw [step_of_no_host s hhost, blockStep_of_wait hop hm hwait, pollOnce_high s rest hin]
  exact congrArg _ (advance_eq_microDone _ i m hop hm)

/-- Settles O42: a run of busy reads that no bound ends. -/
theorem unboundedWaitGoesOn : Obligations.UnboundedWaitGoesOn := by
  rintro s i m (_ | ⟨b, busy⟩) rest ⟨-, hop, hm⟩ hhost hwait hnot hin hne hbusy hlimit
  · exact absurd rfl hne
  · rw [List.length_cons, runSteps_busyReads hhost hop hm hwait hin hbusy fun l hl => by simp [hlimit] at hl]
    simp [afterBusyReads, busyEvents, State.pollStart_of_not_inWait hnot]

/-- Settles O40: a run of busy reads under the bound, then the idle read; without busy reads the idle read alone. -/
theorem waitEndsAtTheFirstIdleRead : Obligations.WaitEndsAtTheFirstIdleRead := by
  rintro s i m (_ | ⟨b, busy⟩) rest ⟨-, hop, hm⟩ hhost hwait hnot hin hbusy hlimit
  · rw [List.length_nil, runSteps_one _ _ (step_of_idleRead hhost hop hm hwait hin)]
    simp
  · rw [List.length_cons, runSteps_add _ _ _ _ (runSteps_busyReads hhost hop hm hwait hin hbusy fun l hl => by
      rw [State.pollStart_of_not_inWait hnot, Nat.zero_add]
      exact hlimit l hl)]
    rw [runSteps_one _ _ (step_of_idleRead (s := afterBusyReads s b busy (.high :: rest)) hhost hop hm hwait rfl),
      ← microDone_inWait _ s.inWait]
    rfl

theorem step_of_limitRead {s : State} {i : Instr} {m : MicroStep} {last : BusyLevel} {rest : List BusyLevel}
    (hhost : s.host = []) (hop : s.op = some i) (hm : (microSeq s.cfg i)[s.ustep]? = some m)
    (hwait : m.op = .prim .wait) (hin : s.busyIn = last :: rest) (hne : last ≠ .high)
    (hlimit : s.cfg.pollLimit = some (s.pollStart + 1)) :
    step s = .next (runTimeFault
      { s with trace := s.trace ++ [.busyRead last], polln := s.pollStart + 1, busyIn := rest }
      .deviceNotResponding .zero) := by
  rw [step_of_no_host s hhost, blockStep_of_wait hop hm hwait,
    pollOnce_limit s last rest hin hne (by simp [pollLimitReached, hlimit])]
  rfl

/-- Settles O41: a run of busy reads under the bound, then the read that meets it; with a bound of 1 that read alone. -/
theorem boundedWaitTakesDeviceNotResponding : Obligations.BoundedWaitTakesDeviceNotResponding := by
  rintro s i m (_ | ⟨b, busy⟩) rest last ⟨-, hop, hm⟩ hhost hwait hnot hin hbusy hlast hlimit
  · have hstart := State.pollStart_of_not_inWait hnot
    have hstep := step_of_limitRead hhost hop hm hwait hin hlast (by simpa [hstart] using hlimit)
    rw [List.length_nil, runSteps_one _ _ hstep, hstart]
    simp
  · have hstart := State.pollStart_of_not_inWait hnot
    have hpolls := runSteps_busyReads hhost hop hm hwait hin hbusy fun l hl => by
      obtain rfl := Option.some.inj (hlimit.symm.trans hl)
      simp [hstart]
    have hstart' : State.pollStart (afterBusyReads s b busy (last :: rest)) = (b :: busy).length := by
      change s.pollStart + (busy.length + 1) = busy.length + 1
      rw [hstart, Nat.zero_add]
    have hlimit' : (afterBusyReads s b busy (last :: rest)).cfg.pollLimit
        = some ((afterBusyReads s b busy (last :: rest)).pollStart + 1) := by
      rw [hstart']
      exact hlimit
    have hstep := step_of_limitRead (s := afterBusyReads s b busy (last :: rest)) hhost hop hm hwait rfl hlast hlimit'
    rw [List.length_cons, runSteps_add _ _ _ _ hpolls, runSteps_one _ _ hstep, hstart']
    rfl

end Sys2Proof.Machine
end

section
/-! PROOFS. The invariant of the machine (`MachineInv` of Safety.lean) in its three parts, memory, position and status, and
that every step keeps each of them. -/

namespace Sys2Proof.Machine

/-! The three parts of the invariant. -/

/-- Memory is in canonical form and inside `MEM` (rules R35, R60). -/
def MemInv (s : State) : Prop := s.mem.wf = true ∧ s.mem.inside s.cfg.memsz = true

/-- The block is idle at `USTEP` 0, or at a micro-operation of its operation in the operation's mode, a wait under its
bound (rules R23, R196, R199). -/
def PositionInv (s : State) : Prop :=
  (s.op = none → s.ustep = 0 ∧ s.inWait = false)
    ∧ (∀ i, s.op = some i → s.ustep < (microSeq s.cfg i).length ∧ s.mode = modeInProgress i
        ∧ ∀ r, ownedRange (some i) = some r → r.1 + r.2 ≤ s.cfg.memsz)
    ∧ (s.inWait = true → (∃ m, s.currentMicro = some m ∧ m.op = .prim .wait)
        ∧ pollLimitReached s.cfg.pollLimit s.polln = false)

/-- No LUT counts as loaded outside `Active`, a fault result has set the sticky flag, and `ERRINFO` belongs to a transfer
error (rules R31, R230, R245). -/
def StatusInv (s : State) : Prop :=
  (s.mode ≠ .active → s.lutsel = .none) ∧ (s.result ≠ .ok → s.faulted = true)
    ∧ (s.result = .transferError ↔ s.errinfo ≠ .zero)

theorem machineInv_iff (s : State) : MachineInv s ↔ MemInv s ∧ PositionInv s ∧ StatusInv s := by
  simp only [MachineInv, MemInv, PositionInv, StatusInv, and_assoc]

/-! Status. -/

theorem StatusInv.of_sameRegs {u s : State} (h : StatusInv s) (hu : SameRegs u s) : StatusInv u := by
  obtain ⟨-, hmode, hlutsel, hresult, herrinfo, hfaulted, -, -, -⟩ := hu
  rwa [StatusInv, hmode, hlutsel, hresult, herrinfo, hfaulted]

theorem OpFault.result_eq_transferError_iff (f : OpFault) : f.result = .transferError ↔ f.info ≠ .zero := by
  cases f <;> simp [OpFault.result, OpFault.info]

theorem StatusInv.raise {s : State} (h : StatusInv s) (f : OpFault) : StatusInv (s.raise f) := by
  obtain ⟨hlut, -, -⟩ := h
  refine ⟨fun hmode => ?_, fun _ => rfl, f.result_eq_transferError_iff⟩
  cases hf : f.isRunTime <;> simp_all

theorem StatusInv.finishOk {s : State} (h : StatusInv s) : StatusInv s.finishOk := by
  obtain ⟨hlut, -, -⟩ := h
  exact ⟨hlut, fun hne => absurd rfl hne, by simp⟩

theorem StatusInv.entryReset {s : State} (h : StatusInv s) : StatusInv s.entryReset := by
  obtain ⟨-, hfaulted, herrinfo⟩ := h
  exact ⟨fun _ => rfl, hfaulted, herrinfo⟩

/-- Only an operation in progress in `Active` marks a LUT set as loaded. -/
theorem loads_none_or_active {cfg : Cfg} {i : Instr} {m : MicroStep} (hm : m ∈ microSeq cfg i) :
    m.loads = none ∨ modeInProgress i = .active := by
  cases hl : m.loads with
  | none => exact .inl rfl
  | some set =>
    rcases loads_cases cfg i m set hm hl with ⟨⟨c, u, l, rfl⟩, -⟩ | ⟨rfl, -⟩ | ⟨rfl, -⟩ <;> exact .inr rfl

/-- The completion effects keep the rule that no LUT counts as loaded outside `Active`. -/
theorem lutselAtEnd_of_not_active {mode : Mode} {sel : LutSel} (i : Instr) (h : mode ≠ .active → sel = .none)
    (hend : modeAtEnd mode i ≠ .active) : lutselAtEnd sel i = .none := by
  cases i
  case sleep => rfl
  case init => exact absurd rfl hend
  all_goals exact h hend

theorem StatusInv.microDone {s : State} (h : StatusInv s) {i : Instr} {m : MicroStep} (hm : m ∈ microSeq s.cfg i)
    (hmode : s.mode = modeInProgress i) : StatusInv (microDone s i m.loads) := by
  obtain ⟨hlut, hfaulted, herrinfo⟩ := h
  have hsel : s.mode ≠ .active → selAfter s.lutsel m.loads = .none := fun hne => by
    rcases loads_none_or_active hm with hnone | hactive
    · rw [hnone]
      exact hlut hne
    · exact absurd (hmode.trans hactive) hne
  unfold Machine.microDone
  split
  · exact ⟨hsel, hfaulted, herrinfo⟩
  · exact ⟨lutselAtEnd_of_not_active i hsel, fun hne => absurd rfl hne, by simp [finished]⟩

/-! Position. -/

theorem PositionInv.of_idle {s : State} (hop : s.op = none) (hustep : s.ustep = 0) (hwait : s.inWait = false) :
    PositionInv s := by
  simp [PositionInv, hop, hustep, hwait]

theorem PositionInv.of_not_inWait {s : State} {i : Instr} (hop : s.op = some i) (hwait : s.inWait = false)
    (hlt : s.ustep < (microSeq s.cfg i).length) (hmode : s.mode = modeInProgress i)
    (hrange : ∀ r, ownedRange (some i) = some r → r.1 + r.2 ≤ s.cfg.memsz) : PositionInv s := by
  refine ⟨by simp [hop], fun j hj => ?_, by simp [hwait]⟩
  obtain rfl := Option.some.inj (hop.symm.trans hj)
  exact ⟨hlt, hmode, hrange⟩

theorem PositionInv.microDone {s : State} {i : Instr} (loads : Option LutSet) (hop : s.op = some i)
    (hmode : s.mode = modeInProgress i) (hrange : ∀ r, ownedRange (some i) = some r → r.1 + r.2 ≤ s.cfg.memsz) :
    PositionInv (microDone s i loads) := by
  unfold Machine.microDone
  split
  next hlt => exact PositionInv.of_not_inWait hop rfl hlt hmode hrange
  · exact PositionInv.of_idle rfl rfl rfl

theorem PositionInv.of_sameRegs {u s : State} (h : PositionInv s) (hu : SameRegs u s)
    (hwait : u.inWait = true → (∃ m, s.currentMicro = some m ∧ m.op = .prim .wait)
      ∧ pollLimitReached s.cfg.pollLimit u.polln = false)
    (hidle : s.op = none → u.inWait = false) : PositionInv u := by
  obtain ⟨hcfg, hmode, -, -, -, -, -, hustep, hop⟩ := hu
  obtain ⟨hidleAt, hbusy, -⟩ := h
  have hmicro : u.currentMicro = s.currentMicro := by simp only [State.currentMicro, hcfg, hustep, hop]
  rw [PositionInv, hcfg, hmode, hustep, hop, hmicro]
  exact ⟨fun hnone => ⟨(hidleAt hnone).1, hidle hnone⟩, hbusy, hwait⟩

theorem modeInProgress_of_anyMode {i : Instr} (h : anyMode i = true) : modeInProgress i = .uninitialized := by
  cases i <;> simp only [anyMode, Bool.false_eq_true] at h <;> rfl

theorem ownedRange_of_anyMode {i : Instr} (h : anyMode i = true) : ownedRange (some i) = none := by
  cases i <;> simp only [anyMode, Bool.false_eq_true] at h <;> rfl

/-- An operation accepted past the mode gate runs in `Active` with its buffer inside `MEM`. -/
theorem Accepts.mode_and_range {s : State} {i : Instr} (hacc : Accepts s i) (hany : anyMode i = false) :
    s.mode = modeInProgress i ∧ ∀ r, ownedRange (some i) = some r → r.1 + r.2 ≤ s.cfg.memsz := by
  cases i <;> simp only [anyMode, Bool.true_eq_false] at hany
  case displayAndTransferFrame =>
    obtain ⟨hmode, -, hrange⟩ := hacc
    exact ⟨hmode, by rintro r ⟨⟩; exact hrange⟩
  case setPartialWindow =>
    obtain ⟨hmode, -, -, hrange⟩ := hacc
    exact ⟨hmode, by rintro r ⟨⟩; exact hrange⟩
  case displayFrame | displayFrameQuick | clearFrame | sleep | waitUntilIdle => exact ⟨hacc, nofun⟩
  all_goals cases hacc

/-! The wait. -/

theorem advance_inWait {s : State} {i : Instr} (hop : s.op = some i) : s.advance.inWait = false := by
  by_cases hlt : s.ustep + 1 < (microSeq s.cfg i).length
  · rw [advance_more s i hop hlt]
  · rw [advance_last s i hop hlt]
    rfl

/-- A poll after which the wait is still in progress has read busy and counted, and the count is under the bound (rule
R196). -/
theorem pollOnce_of_inWait {s : State} {i : Instr} (hop : s.op = some i) (h : s.pollOnce.inWait = true) :
    s.pollOnce.polln = s.pollStart + 1 ∧ pollLimitReached s.cfg.pollLimit s.pollOnce.polln = false := by
  by_cases hhigh : s.nextBusy = .high
  · have hend : s.pollOnce.inWait = false := by
      simp only [State.pollOnce, hhigh, if_true]
      exact advance_inWait (i := i) (by simpa using hop)
    simp [hend] at h
  · cases hl : pollLimitReached s.cfg.pollLimit (s.pollStart + 1) with
    | true => simp [State.pollOnce, hhigh, hl] at h
    | false =>
      rw [pollOnce_again s hhigh hl]
      exact ⟨rfl, hl⟩

/-- What a step of the block leaves of a wait: none is in progress, the block was idle, or the micro-operation at `USTEP`
is a `W` that has polled once more and is under its bound. -/
theorem blockStep_inWait {s t : State} (h : blockStep s = .next t) :
    (s.op = none ∧ t = s) ∨ t.inWait = false
      ∨ (SameRegs t s ∧ (∃ m, s.currentMicro = some m ∧ m.op = .prim .wait) ∧ t.inWait = true
        ∧ t.polln = s.pollStart + 1 ∧ pollLimitReached s.cfg.pollLimit t.polln = false) := by
  rcases blockStep_effect s t h with hidle | ⟨i, m, evs, u, hop, hm, hu, -, -, -, rfl | ⟨f, -, rfl⟩ | ⟨rfl, hwait, ht⟩⟩
  · exact .inl hidle
  · refine .inr (.inl ?_)
    unfold microDone
    split <;> rfl
  · exact .inr (.inl rfl)
  · have hpoll : s.pollOnce = t := by
      rw [blockStep_of_wait hop hm hwait] at h
      exact Host.Outcome.next.inj h
    subst hpoll
    obtain ⟨hpolln, hlimit⟩ := pollOnce_of_inWait hop ht
    exact .inr (.inr ⟨hu.sameRegs, ⟨m, by simp [State.currentMicro, hop, hm], hwait⟩, ht, hpolln, hlimit⟩)

theorem exec_inWait_of_issued {i : Instr} {s t : State} (hi : (∃ r, rasterRanges i = some r) ∨ isProtocol i = true)
    (h : exec i s = .next t) : t.inWait = false := by
  rcases hi with ⟨⟨u, l, text⟩, hr⟩ | hp
  · obtain ⟨bufa, bufl, draw, -, -, hexec, -⟩ := exec_raster i u l text hr
    rw [hexec] at h
    obtain ⟨-, ⟨f, -, rfl⟩ | ⟨-, -, -, rfl⟩⟩ := rasterOp_next _ _ _ _ _ _ h <;> rfl
  · obtain ⟨checks, entry, hexec, -⟩ := exec_protocol i hp
    rw [hexec] at h
    obtain ⟨-, ⟨f, -, rfl⟩ | ⟨-, rfl⟩⟩ := protocolOp_next _ _ _ _ _ h <;> rfl

/-- The same of any step: the host's own actions leave a wait as it is. -/
theorem step_inWait {s t : State} (h : step s = .next t) :
    (SameRegs t s ∧ t.inWait = s.inWait ∧ t.polln = s.polln) ∨ t.inWait = false
      ∨ (SameRegs t s ∧ (∃ m, s.currentMicro = some m ∧ m.op = .prim .wait) ∧ t.inWait = true
        ∧ t.polln = s.pollStart + 1 ∧ pollLimitReached s.cfg.pollLimit t.polln = false) := by
  rcases step_next s t h with ⟨-, h⟩ | ⟨-, h⟩ | ⟨bytes, rest, -, hop, h⟩ | ⟨o, rfl⟩ | ⟨a, v, rest, -, -, -, rfl⟩
  · rcases blockStep_inWait h with ⟨-, rfl⟩ | hrest
    · exact .inl ⟨SameRegs.refl _, rfl, rfl⟩
    · exact .inr hrest
  · rcases blockStep_inWait h with ⟨-, rfl⟩ | hrest
    · exact .inl ⟨SameRegs.refl _, rfl, rfl⟩
    · exact .inr hrest
  · obtain ⟨-, rfl | ⟨i, r, hd, he⟩⟩ := issueBytes_next _ _ _ h
    · exact .inr (.inl rfl)
    · exact .inr (.inl (exec_inWait_of_issued (decode_desc _ _ _ hd) he))
  · exact .inl ⟨SameRegs.refl _, rfl, rfl⟩
  · exact .inl ⟨SameRegs.refl _, rfl, rfl⟩

/-! Memory. -/

section
variable (s : State) (i : Instr) (loads : Option LutSet)

@[simp] theorem microDone_mem : (microDone s i loads).mem = s.mem := by
  unfold microDone
  split <;> rfl

@[simp] theorem microDone_cfg : (microDone s i loads).cfg = s.cfg := by
  unfold microDone
  split <;> rfl

@[simp] theorem microDone_trace : (microDone s i loads).trace = s.trace := by
  unfold microDone
  split <;> rfl

@[simp] theorem microDone_pins : (microDone s i loads).pins = s.pins := by
  unfold microDone
  split <;> rfl

end

theorem SamePlace.mem {u s : State} (h : SamePlace u s) : u.mem = s.mem := by
  obtain ⟨-, hmem, -⟩ := h
  exact hmem

theorem blockStep_mem {s t : State} (h : blockStep s = .next t) : t.mem = s.mem := by
  rcases blockStep_effect s t h with ⟨-, rfl⟩ | ⟨i, m, evs, u, -, -, hu, -, -, -, rfl | ⟨f, -, rfl⟩ | ⟨rfl, -, -⟩⟩
  · rfl
  · rw [microDone_mem, hu.mem]
  · exact hu.mem
  · exact hu.mem

theorem sendFrame_mem (s : State) (dc : Level) (b : Byte) : (s.sendFrame dc b).mem = s.mem := by
  rcases sendFrame_cases s dc b with h | ⟨e, h⟩
  · obtain ⟨-, hmem, -⟩ := advance_frame (s.frameEvents dc b)
    rw [h, hmem, State.frameEvents_mem]
  · rw [h, State.raise_mem, State.frameEvents_mem]

/-- Only the rasterizer operations write memory. -/
theorem exec_mem_of_not_raster {i : Instr} {s t : State} (hi : rasterRanges i = none) (h : exec i s = .next t) :
    t.mem = s.mem := by
  rcases instr_cases i with ⟨u, l, text, hr⟩ | hp | ⟨n, rfl⟩
  · simp [hi] at hr
  · obtain ⟨checks, entry, hexec, -, -, hentry⟩ := exec_protocol i hp
    rw [hexec] at h
    obtain ⟨-, ⟨f, -, rfl⟩ | ⟨-, rfl⟩⟩ := protocolOp_next _ _ _ _ _ h
    · rfl
    · rcases hentry with ⟨-, rfl⟩ | ⟨-, rfl⟩ <;> rfl
  · rw [exec_ofCmd_next] at h
    cases h
    exact sendFrame_mem s .low _

/-- What a step does to memory: nothing, the host's write of a byte, or what a rasterizer operation issued to an idle
block draws. -/
theorem step_mem_cases {s t : State} (h : step s = .next t) :
    t.mem = s.mem
      ∨ (∃ a v rest, s.host = .writeMem a v :: rest ∧ a < s.cfg.memsz ∧ t.mem = s.mem.write a v)
      ∨ (s.op = none ∧ ∃ i r, rasterRanges i = some r ∧ exec i s.popHost = .next t) := by
  rcases step_next s t h with ⟨-, h⟩ | ⟨-, h⟩ | ⟨bytes, rest, -, hop, h⟩ | ⟨o, rfl⟩ | ⟨a, v, rest, hhost, ha, -, rfl⟩
  · exact .inl (blockStep_mem h)
  · exact .inl (blockStep_mem (s := s.popHost) h)
  · obtain ⟨-, rfl | ⟨i, r, hd, he⟩⟩ := issueBytes_next _ _ _ h
    · exact .inl rfl
    · cases hr : rasterRanges i with
      | none => exact .inl (exec_mem_of_not_raster (s := s.popHost) hr he)
      | some r => exact .inr (.inr ⟨hop, i, r, hr, he⟩)
  · exact .inl rfl
  · exact .inr (.inl ⟨a, v, rest, hhost, ha, rfl⟩)

theorem exec_raster_memInv {i : Instr} {r : Nat × Nat × Option (Nat × Nat)} {s t : State}
    (hr : rasterRanges i = some r) (hs : MemInv s) (h : exec i s = .next t) : MemInv t := by
  obtain ⟨u, l, text⟩ := r
  obtain ⟨bufa, bufl, draw, rfl, rfl, hexec, hdraw⟩ := exec_raster i u l text hr
  rw [hexec] at h
  obtain ⟨-, ⟨f, -, rfl⟩ | ⟨hl, hrange, -, rfl⟩⟩ := rasterOp_next _ _ _ _ _ _ h
  · exact hs
  · obtain ⟨hwf, hinside⟩ := hs
    obtain ⟨hkeepWf, hkeepInside, -⟩ := hdraw s.cfg s.mem hl
    exact ⟨hkeepWf hwf, hkeepInside hinside hrange⟩

/-! A step keeps the three parts. -/

theorem step_cfg {s t : State} (h : step s = .next t) : t.cfg = s.cfg := by
  rcases step_cases s t h with ⟨hcfg, -⟩ | ⟨u, f, rfl, ⟨hcfg, -⟩, -⟩ | ⟨u, rfl, ⟨hcfg, -⟩, -⟩
    | ⟨i, u, rfl, -, -, ⟨-, v, rfl, ⟨hcfg, -⟩⟩ | ⟨-, ⟨hcfg, -⟩, -⟩⟩ | ⟨i, m, u, rfl, ⟨hcfg, -⟩, -⟩
  all_goals simpa using hcfg

theorem step_memInv {s t : State} (hs : MemInv s) (h : step s = .next t) : MemInv t := by
  have hcfg := step_cfg h
  rcases step_mem_cases h with hmem | ⟨a, v, rest, -, ha, hmem⟩ | ⟨-, i, r, hr, he⟩
  · rwa [MemInv, hmem, hcfg]
  · obtain ⟨hwf, hinside⟩ := hs
    rw [MemInv, hmem, hcfg]
    exact ⟨Memory.wf_write _ _ _ hwf, Memory.inside_write _ _ _ _ hinside ha⟩
  · exact exec_raster_memInv (s := s.popHost) hr hs he

theorem step_statusInv {s t : State} (hp : PositionInv s) (hs : StatusInv s) (h : step s = .next t) : StatusInv t := by
  rcases step_cases s t h with ht | ⟨u, f, rfl, hu, -⟩ | ⟨u, rfl, hu, -⟩
    | ⟨i, u, rfl, -, -, ⟨-, v, rfl, hv⟩ | ⟨-, hu, -⟩⟩ | ⟨i, m, u, rfl, hu, hop, hm⟩
  · exact hs.of_sameRegs ht
  · exact (hs.of_sameRegs hu).raise f
  · exact (hs.of_sameRegs hu).finishOk
  · exact (hs.of_sameRegs hv).entryReset
  · exact hs.of_sameRegs (u := u) hu
  · obtain ⟨-, hbusy, -⟩ := hp
    obtain ⟨-, hmode, -⟩ := hbusy i hop
    obtain ⟨hcfg, humode, -⟩ := id hu
    exact (hs.of_sameRegs hu).microDone (hcfg ▸ List.mem_of_getElem? hm) (humode.trans hmode)

theorem step_positionInv {s t : State} (hs : PositionInv s) (h : step s = .next t) : PositionInv t := by
  obtain ⟨hidle, hbusy, hwait⟩ := id hs
  rcases step_cases s t h with ht | ⟨u, f, rfl, hu, -⟩ | ⟨u, rfl, hu, -⟩
    | ⟨i, u, rfl, -, hprot, ⟨hany, v, rfl, hv⟩ | ⟨hany, hu, hacc⟩⟩ | ⟨i, m, u, rfl, hu, hop, hm⟩
  · rcases step_inWait h with ⟨-, hsame, hpolln⟩ | hnot | ⟨-, hmicro, hin, -, hlimit⟩
    · rw [← hpolln, ← hsame] at hwait
      exact hs.of_sameRegs ht hwait fun hop => hsame.trans (hidle hop).2
    · exact hs.of_sameRegs ht (by simp [hnot]) fun _ => hnot
    · refine hs.of_sameRegs ht (fun _ => ⟨hmicro, hlimit⟩) fun hop => ?_
      obtain ⟨m, hm, -⟩ := hmicro
      simp [State.currentMicro, hop] at hm
  · exact PositionInv.of_idle rfl rfl rfl
  · exact PositionInv.of_idle rfl rfl rfl
  · refine PositionInv.of_not_inWait rfl rfl (microSeq_pos _ i hprot) (modeInProgress_of_anyMode hany).symm ?_
    simp [ownedRange_of_anyMode hany]
  · obtain ⟨hmode, hrange⟩ := hacc.mode_and_range hany
    obtain ⟨hcfg, humode, -⟩ := hu
    refine PositionInv.of_not_inWait rfl rfl (microSeq_pos _ i hprot) (humode.trans hmode) ?_
    rw [State.begin_cfg, hcfg]
    exact hrange
  · obtain ⟨-, hmode, hrange⟩ := hbusy i hop
    obtain ⟨hcfg, humode, -, -, -, -, -, -, huop⟩ := hu
    exact PositionInv.microDone m.loads (huop.trans hop) (humode.trans hmode) (hcfg ▸ hrange)

/-- Settles O49: the three parts of the invariant are kept. -/
theorem stepKeepsTheInvariant : Obligations.StepKeepsTheInvariant := by
  intro s t hs h
  rw [machineInv_iff] at hs ⊢
  obtain ⟨hmem, hposition, hstatus⟩ := hs
  exact ⟨step_memInv hmem h, step_positionInv hposition h, step_statusInv hposition hstatus h⟩

/-- Settles O48: power-on is idle with the registers at their reset values, and the reset state is a power-on. -/
theorem powerOnSatisfiesTheInvariant : Obligations.PowerOnSatisfiesTheInvariant := by
  have hpower : ∀ (cfg : Cfg) (mem : Memory) (h : List HostAction) (x : List XferResult) (b : List BusyLevel)
      (xr : Option XferResult) (br : Option BusyLevel), mem.wf = true → mem.inside cfg.memsz = true →
        MachineInv (State.powerOn cfg mem h x b xr br) := by
    intro cfg mem h x b xr br hwf hinside
    refine (machineInv_iff _).2 ⟨⟨hwf, hinside⟩, PositionInv.of_idle rfl rfl rfl, fun _ => rfl, ?_, ?_⟩
    · exact fun hne => absurd rfl hne
    · simp [State.powerOn]
  exact ⟨hpower, ⟨_, _, _, _, _, _, _, rfl⟩, hpower _ _ _ _ _ _ _ rfl rfl⟩

end Sys2Proof.Machine
end

section
/-! PROOFS. What every step can change (spec/10_state.md, spec/60_exceptions.md section 5): the position, the mode, memory
during an operation, the trace, and where the machine stops. -/

namespace Sys2Proof.Machine

/-! The position and the mode. -/

/-- Settles O54: each case of `step_cases` is one of the three moves of the position. -/
theorem positionAdvancesByOne : Obligations.PositionAdvancesByOne := by
  intro s t h
  refine ⟨step_cfg h, ?_⟩
  rcases step_cases s t h with ⟨-, -, -, -, -, -, hopi, hustep, hop⟩ | ⟨u, f, rfl, hu, -⟩ | ⟨u, rfl, hu, -⟩
    | ⟨i, u, rfl, hidle, -, ⟨-, v, rfl, hv⟩ | ⟨-, hu, -⟩⟩ | ⟨i, m, u, rfl, hu, -, -⟩
  · exact .inl ⟨hopi, hop, .inl hustep⟩
  · exact .inr (.inr ⟨by simp [hu.opi], rfl, rfl⟩)
  · exact .inr (.inr ⟨by simp [hu.opi], rfl, rfl⟩)
  · exact .inr (.inl ⟨hv.opi, hidle, nofun, rfl⟩)
  · exact .inr (.inl ⟨hu.opi, hidle, nofun, rfl⟩)
  · obtain ⟨-, -, -, -, -, -, hopi, hustep, hop⟩ := hu
    unfold microDone
    split
    · exact .inl ⟨hopi, hop, .inr (congrArg (· + 1) hustep)⟩
    · exact .inr (.inr ⟨congrArg (· + 1) hopi, rfl, rfl⟩)

theorem eq_reset_or_init_of_anyMode {i : Instr} (h : anyMode i = true) : i = .reset ∨ i = .init := by
  cases i <;> simp only [anyMode, Bool.false_eq_true] at h <;> simp

theorem OpFault.result_of_isRunTime {f : OpFault} (h : f.isRunTime = true) :
    f.result = .transferError ∨ f.result = .deviceNotResponding := by
  cases f <;> simp_all [OpFault.isRunTime, OpFault.result]

/-- What an operation that ends without fault does to the mode (rules R27, R210, R220). -/
theorem modeAtEnd_ne {mode : Mode} {i : Instr} (h : modeAtEnd mode i ≠ mode) :
    (i = .init ∧ modeAtEnd mode i = .active) ∨ (i = .sleep ∧ modeAtEnd mode i = .sleeping) := by
  cases i
  case init => exact .inl ⟨rfl, rfl⟩
  case sleep => exact .inr ⟨rfl, rfl⟩
  all_goals exact absurd rfl h

/-- Settles O55: the mode is written on entry of `RESET` and `INIT`, by a run-time fault, and at the end of `INIT` and
`SLEEP`, whose mode in progress the invariant gives. -/
theorem modeChangesOnlyByTheTable : Obligations.ModeChangesOnlyByTheTable := by
  intro s t hs h hne
  rcases step_cases s t h with ⟨-, hmode, -⟩ | ⟨u, f, rfl, hu, hrun⟩ | ⟨u, rfl, ⟨-, hmode, -⟩, -⟩
    | ⟨i, u, rfl, hidle, -, ⟨hany, v, rfl, hv⟩ | ⟨-, ⟨-, hmode, -⟩, -⟩⟩ | ⟨i, m, u, rfl, hu, hop, hm⟩
  · exact absurd hmode hne
  · obtain ⟨-, hmode, -⟩ := id hu
    cases hf : f.isRunTime with
    | false => simp [hf, hmode] at hne
    | true =>
      exact .inl ⟨by simp [hf], .inr ⟨hrun.1 hf, rfl, by simp [hu.opi], OpFault.result_of_isRunTime hf⟩⟩
  · exact absurd hmode hne
  · refine .inl ⟨rfl, .inl ⟨hidle, ?_⟩⟩
    rcases eq_reset_or_init_of_anyMode hany with rfl | rfl <;> simp
  · exact absurd hmode hne
  · obtain ⟨-, hmode, -⟩ := id hu
    obtain ⟨-, ⟨-, hbusy, -⟩, -⟩ := (machineInv_iff s).1 hs
    obtain ⟨-, hin, -⟩ := hbusy i hop
    unfold microDone at hne ⊢
    split at hne
    · exact absurd hmode hne
    next hlast =>
      rw [if_neg hlast]
      rw [← hmode] at hne
      rcases modeAtEnd_ne hne with ⟨rfl, hend⟩ | ⟨rfl, hend⟩
      · exact .inr (.inl ⟨hend, hin, hop, rfl, rfl⟩)
      · exact .inr (.inr ⟨hend, hin, hop, rfl, rfl⟩)

/-! Memory. -/

/-- Settles O56: a busy block's step writes memory only for the host, and only the rasterizer's meanings write it. -/
theorem protocolNeverWritesMemory : Obligations.ProtocolNeverWritesMemory := by
  refine ⟨fun s t hop hhost h => ?_, fun i s t hi h => exec_mem_of_not_raster hi h⟩
  rcases step_mem_cases h with hmem | ⟨a, v, rest, hw, -⟩ | ⟨hidle, -⟩
  · exact hmem
  · exact absurd hw (hhost a v rest)
  · exact absurd hidle hop

/-! The trace. -/

theorem exec_trace_of_issued {i : Instr} {s t : State} (hi : (∃ r, rasterRanges i = some r) ∨ isProtocol i = true)
    (h : exec i s = .next t) : t.trace = s.trace ∧ t.pins = s.pins := by
  rcases hi with ⟨⟨u, l, text⟩, hr⟩ | hp
  · obtain ⟨bufa, bufl, draw, -, -, hexec, -⟩ := exec_raster i u l text hr
    rw [hexec] at h
    obtain ⟨-, ⟨f, -, rfl⟩ | ⟨-, -, -, rfl⟩⟩ := rasterOp_next _ _ _ _ _ _ h <;> exact ⟨rfl, rfl⟩
  · obtain ⟨checks, entry, hexec, -, -, hentry⟩ := exec_protocol i hp
    rw [hexec] at h
    obtain ⟨-, ⟨f, -, rfl⟩ | ⟨-, rfl⟩⟩ := protocolOp_next _ _ _ _ _ h
    · exact ⟨rfl, rfl⟩
    · rcases hentry with ⟨-, rfl⟩ | ⟨-, rfl⟩ <;> exact ⟨rfl, rfl⟩

/-- A step of the block appends the whole events of one micro-operation, which the pins mirror. -/
theorem blockStep_events {s t : State} (h : blockStep s = .next t) :
    ∃ evs, t.trace = s.trace ++ evs ∧ t.pins = pinsAfter s.pins evs ∧ WholeEvents evs := by
  rcases blockStep_effect s t h with
    ⟨-, rfl⟩ | ⟨i, m, evs, u, -, -, -, htrace, hpins, hevs, rfl | ⟨f, -, rfl⟩ | ⟨rfl, -, -⟩⟩
  · exact ⟨[], by simp, rfl, .inl rfl⟩
  · exact ⟨evs, by simpa using htrace, by simpa using hpins, hevs⟩
  · exact ⟨evs, htrace, hpins, hevs⟩
  · exact ⟨evs, htrace, hpins, hevs⟩

/-- Settles O52: a step of the block appends the events of one micro-operation, any other step appends nothing. -/
theorem stepAppendsWholeEvents : Obligations.StepAppendsWholeEvents := by
  intro s t h
  have quiet : t.trace = s.trace ∧ t.pins = s.pins →
      ∃ evs, t.trace = s.trace ++ evs ∧ t.pins = pinsAfter s.pins evs ∧ WholeEvents evs :=
    fun ⟨htrace, hpins⟩ => ⟨[], by simp [htrace], hpins, .inl rfl⟩
  rcases step_next s t h with ⟨-, h⟩ | ⟨-, h⟩ | ⟨bytes, rest, -, -, h⟩ | ⟨o, rfl⟩ | ⟨a, v, rest, -, -, -, rfl⟩
  · exact blockStep_events h
  · exact blockStep_events (s := s.popHost) h
  · obtain ⟨-, rfl | ⟨i, r, hd, he⟩⟩ := issueBytes_next _ _ _ h
    · exact quiet ⟨rfl, rfl⟩
    · exact quiet (exec_trace_of_issued (s := s.popHost) (decode_desc _ _ _ hd) he)
  · exact quiet ⟨rfl, rfl⟩
  · exact quiet ⟨rfl, rfl⟩

/-! Where the machine stops. -/

/-- The block always has a step: an operation in progress is at one of its micro-operations, and a byte it reads is in its
own buffer. -/
theorem exists_blockStep_next {s : State} (hs : PositionInv s) : ∃ t, blockStep s = .next t := by
  cases hop : s.op with
  | none => exact ⟨s, by simp [blockStep, hop]⟩
  | some i =>
    obtain ⟨-, hbusy, -⟩ := hs
    obtain ⟨hlt, -, hrange⟩ := hbusy i hop
    have hm : (microSeq s.cfg i)[s.ustep]? = some (microSeq s.cfg i)[s.ustep] := List.getElem?_eq_getElem hlt
    rw [blockStep_micro s i _ hop hm]
    cases hmicro : ((microSeq s.cfg i)[s.ustep]).op with
    | cmd n => exact ⟨_, rfl⟩
    | prim p =>
      cases p with
      | dataMem a =>
        obtain ⟨r, hr, hlo, hhi⟩ := dataMem_owned s.cfg i _ a (List.getElem_mem hlt) hmicro
        exact ⟨_, if_pos (hhi.trans_le (hrange r hr))⟩
      | pin | data | delay | wait => exact ⟨_, rfl⟩

/-- An idle block answers every operation with a next state. -/
theorem exists_exec_next {i : Instr} {s : State} (hi : (∃ r, rasterRanges i = some r) ∨ isProtocol i = true)
    (hop : s.op = none) : ∃ t, exec i s = .next t := by
  rcases hi with ⟨⟨u, l, text⟩, hr⟩ | hp
  · obtain ⟨bufa, bufl, draw, -, -, hexec, -⟩ := exec_raster i u l text hr
    rw [hexec, rasterOp, if_neg (by simp [hop])]
    split <;> exact ⟨_, rfl⟩
  · obtain ⟨checks, entry, hexec, -⟩ := exec_protocol i hp
    rw [hexec, protocolOp, if_neg (by simp [hop])]
    split <;> exact ⟨_, rfl⟩

theorem exists_issueBytes_next {bytes : List Byte} {s : State} (hlen : bytes.length = 24) (hop : s.op = none) :
    ∃ t, issueBytes bytes s = .next t := by
  cases hd : decode .desc bytes with
  | error e => exact ⟨_, issueBytes_of_decode_error s hlen hd⟩
  | ok r =>
    obtain ⟨i, rest⟩ := r
    have hrest : rest = [] := by
      have := length_of_decode_desc hd
      exact List.eq_nil_of_length_eq_zero (by omega)
    subst hrest
    rw [issueBytes_of_decode_ok s hd]
    exact exists_exec_next (decode_desc bytes i [] hd) hop

/-- The host's access at an address that the hypothesis of O50 allows. -/
theorem hostAccess_allowed {s : State} {a : Nat} (next : State) (hin : a < s.cfg.memsz)
    (hfree : ∀ u l, ownedRange s.op = some (u, l) → a < u ∨ u + l ≤ a) : hostAccess a next s = .next next := by
  refine hostAccess_free next hin ((s.ownsAddr_eq_false_iff a).2 fun i u l hop hr => hfree u l ?_)
  rw [hop]
  exact hr

/-- Settles O50: the block has a step by the invariant, and each action of the host is allowed by hypothesis. -/
theorem stepStopsOnlyAtTheHostsRequest : Obligations.StepStopsOnlyAtTheHostsRequest := by
  intro s hs hissue hmem
  obtain ⟨-, hposition, -⟩ := (machineInv_iff s).1 hs
  cases hhost : s.host with
  | nil =>
    rw [step_of_no_host s hhost]
    exact exists_blockStep_next hposition
  | cons action rest =>
    cases action with
    | issue bytes =>
      cases hop : s.op with
      | some i =>
        rw [step_of_issue_busy (by simp [hop]) hhost]
        exact exists_blockStep_next hposition
      | none =>
        rw [step_of_issue_idle s bytes rest hop hhost]
        exact exists_issueBytes_next (s := s.popHost) (hissue bytes rest hhost) hop
    | readStatus n => exact ⟨_, step_of_readStatus hhost⟩
    | readMem a =>
      obtain ⟨hin, hfree⟩ := hmem a rest (.inl hhost)
      exact ⟨_, (step_of_readMem hhost).trans (hostAccess_allowed _ hin hfree)⟩
    | writeMem a v =>
      obtain ⟨hin, hfree⟩ := hmem a rest (.inr ⟨v, hhost⟩)
      exact ⟨_, (step_of_writeMem hhost).trans (hostAccess_allowed _ hin hfree)⟩
    | yield =>
      obtain ⟨t, ht⟩ := exists_blockStep_next (s := s.popHost) hposition
      exact ⟨t, by simpa [step, machineStep, hhost] using ht⟩

end Sys2Proof.Machine
end

section
/-! PROOFS. `LUTSEL` (spec/10_state.md rule R29, spec/60_exceptions.md section 5): what sets it, and what does not. -/

namespace Sys2Proof.Machine

@[simp] theorem selAfter_none (sel : LutSel) : selAfter sel none = sel := rfl

@[simp] theorem selAfter_some (sel : LutSel) (set : LutSet) : selAfter sel (some set) = lutSelOf set := by
  cases set <;> rfl

theorem lutSelOf_ne_none (set : LutSet) : lutSelOf set ≠ .none := by
  cases set <;> simp [lutSelOf]

theorem lutselAtEnd_cases (sel : LutSel) (i : Instr) : i = .sleep ∨ lutselAtEnd sel i = sel := by
  cases i
  case sleep => exact .inl rfl
  all_goals exact .inr rfl

theorem microDone_of_lt {s : State} {i : Instr} (loads : Option LutSet)
    (h : s.ustep + 1 < (microSeq s.cfg i).length) :
    microDone s i loads = { s with lutsel := selAfter s.lutsel loads, ustep := s.ustep + 1, inWait := false } :=
  if_pos h

/-- What the end of a micro-operation does to `LUTSEL`: the end of `SLEEP`, a mark, or nothing. -/
theorem microDone_lutsel_cases (s : State) (i : Instr) (loads : Option LutSet) :
    (i = .sleep ∧ (microDone s i loads).op = none ∧ (microDone s i loads).result = .ok
        ∧ (microDone s i loads).lutsel = .none)
      ∨ (microDone s i loads).lutsel = selAfter s.lutsel loads := by
  unfold microDone
  split
  · exact .inr rfl
  · rcases lutselAtEnd_cases (selAfter s.lutsel loads) i with rfl | hsame
    · exact .inl ⟨rfl, rfl, rfl, rfl⟩
    · exact .inr hsame

/-! The step at the micro-operation that completes the loading of a LUT set. -/

theorem frameTrace_ok_ne_err (dc : Level) (b : Byte) (e : XferErr) : frameTrace dc b (.err e) ≠ frameTrace dc b .ok := by
  simp [frameTrace]

theorem blockStep_of_sendsFrame {s : State} {i : Instr} {m : MicroStep} {frame : List Event} (hop : s.op = some i)
    (hm : (microSeq s.cfg i)[s.ustep]? = some m) (hframe : SendsFrame s.cfg m frame) :
    ∃ dc b, frame = frameTrace dc b .ok ∧ blockStep s = .next (s.sendFrame dc b) := by
  rw [blockStep_micro s i m hop hm]
  rcases hframe with ⟨b, hb, rfl⟩ | ⟨n, hn, rfl⟩
  · exact ⟨.high, b, rfl, by rw [hb]; rfl⟩
  · exact ⟨.low, _, rfl, by rw [hn]⟩

/-- At a micro-operation that sends the frame the block completes it exactly when the frame, answered `Ok`, is what it
appends; otherwise it gives up the session. -/
theorem blockStep_sendsFrame_cases {s t : State} {i : Instr} {m : MicroStep} {frame : List Event}
    (hop : s.op = some i) (hm : (microSeq s.cfg i)[s.ustep]? = some m) (hframe : SendsFrame s.cfg m frame)
    (h : blockStep s = .next t) :
    (t.trace = s.trace ++ frame ∧ ∃ u, SameRegs u s ∧ t = microDone u i m.loads)
      ∨ (t.trace ≠ s.trace ++ frame ∧ t.lutsel = .none) := by
  obtain ⟨dc, b, rfl, hstep⟩ := blockStep_of_sendsFrame hop hm hframe
  obtain rfl := Host.Outcome.next.inj (h.symm.trans hstep)
  have hevents : (s.frameEvents dc b).trace = s.trace ++ frameTrace dc b s.nextXfer := State.frameEvents_trace s dc b
  cases hx : s.nextXfer with
  | ok =>
    have hdone : (s.frameEvents dc b).advance = microDone (s.frameEvents dc b) i m.loads :=
      advance_eq_microDone _ i m (by simpa using hop) (by simpa using hm)
    rw [sendFrame_ok s dc b hx, hdone]
    exact .inl ⟨by rw [microDone_trace, hevents, hx], _, (samePlace_frameEvents s dc b).sameRegs, rfl⟩
  | err e =>
    rw [sendFrame_err s dc b e hx]
    refine .inr ⟨?_, rfl⟩
    rw [State.raise_trace, hevents, hx, Ne, List.append_cancel_left_eq]
    exact frameTrace_ok_ne_err dc b e

/-- The same of any step: the host's own actions append nothing. -/
theorem step_sendsFrame_cases {s t : State} {i : Instr} {m : MicroStep} {frame : List Event} (hop : s.op = some i)
    (hm : (microSeq s.cfg i)[s.ustep]? = some m) (hframe : SendsFrame s.cfg m frame) (h : step s = .next t) :
    (t.trace = s.trace ++ frame ∧ ∃ u, SameRegs u s ∧ t = microDone u i m.loads)
      ∨ (t.trace ≠ s.trace ++ frame ∧ (t.lutsel = .none ∨ t.lutsel = s.lutsel)) := by
  have hne : frame ≠ [] := by rcases hframe with ⟨b, -, rfl⟩ | ⟨n, -, rfl⟩ <;> simp [frameTrace]
  rcases step_next s t h with ⟨-, h⟩ | ⟨-, h⟩ | ⟨bytes, rest, -, hidle, h⟩ | ⟨o, rfl⟩ | ⟨a, v, rest, -, -, -, rfl⟩
  · exact (blockStep_sendsFrame_cases hop hm hframe h).imp_right fun ⟨htrace, hnone⟩ => ⟨htrace, .inl hnone⟩
  · exact (blockStep_sendsFrame_cases (s := s.popHost) hop hm hframe h).imp_right
      fun ⟨htrace, hnone⟩ => ⟨htrace, .inl hnone⟩
  · simp [hop] at hidle
  · exact .inr ⟨by simpa using hne, .inr rfl⟩
  · exact .inr ⟨by simpa using hne, .inr rfl⟩

/-! The three parts of the table. -/

/-- Everything a step can do to `LUTSEL`. -/
theorem step_lutsel_cases {s t : State} (h : step s = .next t) :
    t.lutsel = s.lutsel
      ∨ (t.lutsel = .none ∧ s.op = none ∧ (t.op = some .reset ∨ t.op = some .init))
      ∨ (t.lutsel = .none ∧ s.op ≠ none ∧ t.op = none ∧ t.opi = s.opi + 1
        ∧ (t.result = .transferError ∨ t.result = .deviceNotResponding))
      ∨ (t.lutsel = .none ∧ s.op = some .sleep ∧ t.op = none ∧ t.result = .ok)
      ∨ ∃ i m set, s.op = some i ∧ (microSeq s.cfg i)[s.ustep]? = some m ∧ m.loads = some set
        ∧ t.lutsel = lutSelOf set := by
  rcases step_cases s t h with ⟨-, -, hlut, -⟩ | ⟨u, f, rfl, hu, hrun⟩ | ⟨u, rfl, ⟨-, -, hlut, -⟩, -⟩
    | ⟨i, u, rfl, hidle, -, ⟨hany, v, rfl, -⟩ | ⟨-, ⟨-, -, hlut, -⟩, -⟩⟩ | ⟨i, m, u, rfl, ⟨-, -, hlut, -⟩, hop, hm⟩
  · exact .inl hlut
  · obtain ⟨-, -, hlut, -⟩ := id hu
    cases hf : f.isRunTime with
    | false => exact .inl (by simp [hf, hlut])
    | true =>
      exact .inr (.inr (.inl ⟨by simp [hf], hrun.1 hf, rfl, by simp [hu.opi], OpFault.result_of_isRunTime hf⟩))
  · exact .inl hlut
  · refine .inr (.inl ⟨rfl, hidle, ?_⟩)
    rcases eq_reset_or_init_of_anyMode hany with rfl | rfl <;> simp
  · exact .inl hlut
  · rcases microDone_lutsel_cases u i m.loads with ⟨rfl, hend, hok, hnone⟩ | hsel
    · exact .inr (.inr (.inr (.inl ⟨hnone, hop, hend, hok⟩)))
    · cases hl : m.loads with
      | none => exact .inl (by rw [hl, selAfter_none] at hsel; exact hsel.trans hlut)
      | some set => exact .inr (.inr (.inr (.inr ⟨i, m, set, hop, hm, hl, by rw [hl, selAfter_some] at hsel; exact hsel⟩)))

/-- The micro-operation that completes the loading of a LUT set, completed. -/
theorem microDone_at_lutEnd {u s : State} {i : Instr} {e : LutEnd} {set : LutSet} (hu : SameRegs u s)
    (hlt : s.ustep + 1 < (microSeq s.cfg i).length) (hsel : e.sel = lutSelOf set) :
    (microDone u i (some set)).lutsel = e.sel ∧ (microDone u i (some set)).op = s.op
      ∧ (microDone u i (some set)).ustep = s.ustep + 1 := by
  obtain ⟨hcfg, -, -, -, -, -, -, hustep, huop⟩ := hu
  rw [microDone_of_lt _ (by rw [hcfg, hustep]; exact hlt), hsel]
  exact ⟨selAfter_some _ set, huop, congrArg (· + 1) hustep⟩

/-- Settles O58: `step_lutsel_cases`, and the micro-operation that stands where Safety.lean counts the end of `LoadLut`. -/
theorem lutselChangesOnlyByTheTable : Obligations.LutselChangesOnlyByTheTable := by
  intro s t h
  refine ⟨fun hne hnone => ?_, fun hne hnone => ?_, fun i e hop he hpos htrace => ?_⟩
  · rcases step_lutsel_cases h with hsame | ⟨-, hentry⟩ | ⟨-, hfault⟩ | ⟨-, hsleep⟩ | ⟨i, m, set, -, -, -, hset⟩
    · exact absurd hsame hne
    · exact .inl hentry
    · exact .inr (.inl hfault)
    · exact .inr (.inr hsleep)
    · exact absurd (hset.symm.trans hnone) (lutSelOf_ne_none set)
  · rcases step_lutsel_cases h with hsame | ⟨hgone, -⟩ | ⟨hgone, -⟩ | ⟨hgone, -⟩ | ⟨i, m, set, hop, hm, hload, -⟩
    · exact absurd hsame hne
    · exact absurd hgone hnone
    · exact absurd hgone hnone
    · exact absurd hgone hnone
    · rcases loads_at s.cfg i s.ustep m hm with ⟨hunmarked, -⟩ | ⟨e, set', he, hpos, hmark, hsel, hlt, hframe⟩
      · simp [hunmarked] at hload
      · rcases step_sendsFrame_cases hop hm hframe h with ⟨htrace, u, hu, rfl⟩ | ⟨-, hgone | hsame⟩
        · rw [hmark] at htrace ⊢
          obtain ⟨hlut, hsameOp, hnext⟩ := microDone_at_lutEnd hu hlt hsel
          exact ⟨i, e, hop, he, hpos.symm, hlut, htrace, hsameOp, hnext⟩
        · exact absurd hgone hnone
        · exact absurd hsame hne
  · obtain ⟨pre, post, set, m, hseq, hpost, hlen, hmark, hsel, -, hframe⟩ := markedAt_microSeq s.cfg i e he
    have hm : (microSeq s.cfg i)[s.ustep]? = some m := by
      rw [hseq, hpos, ← hlen]
      simp
    have hlt : s.ustep + 1 < (microSeq s.cfg i).length := by
      have := List.length_pos_iff.2 hpost
      rw [hseq, hpos, ← hlen, List.length_append, List.length_cons]
      omega
    rcases step_sendsFrame_cases hop hm hframe h with ⟨-, u, hu, rfl⟩ | ⟨hother, -⟩
    · rw [hmark]
      exact microDone_at_lutEnd hu hlt hsel
    · exact absurd htrace hother

end Sys2Proof.Machine
end

section
/-! PROOFS. The micro-sequences against the transcripts that Safety.lean writes apart from them
(spec/44_protocol_primitives.md, spec/45_protocol_operations.md): their lengths, their events and their marks. -/

namespace Sys2Proof.Machine

/-- Settles O46: the lengths of the lines of each micro-sequence, added up. -/
theorem microSequenceLengths : Obligations.MicroSequenceLengths := by
  intro cfg color x y w n plane u l lutLen
  refine ⟨rfl, ?_, fun hl => ?_, ?_, ?_, ?_, ?_, ?_, rfl⟩ <;>
    simp only [microSeq, resetSeq, initSeq, transferFrameSeq, partialWindowSeq, refreshSeq, clearFrameSeq, sleepSeq,
      List.length_append, List.length_cons, List.length_nil, length_commandBlock, length_sendResolution,
      length_microDn, length_microDbuf, length_microD16, length_loadLut, lutTable, lutLen] <;> omega

/-! The events of a run of micro-operations, each answered `Ok` or `High`. -/

/-- The events of a micro-operation whose transfer is answered `Ok`, or whose read of the busy pin `High`. -/
def okEvents (cfg : Cfg) (mem : Memory) : MicroOp → List Event
  | .cmd n => cTrace cfg n
  | .prim (.pin p lvl) => [.pin p lvl]
  | .prim (.data b) => frameTrace .high b .ok
  | .prim (.dataMem a) => frameTrace .high (mem.read a) .ok
  | .prim (.delay ms) => [.delay ms]
  | .prim .wait => [.busyRead .high]

/-- The events of a run of micro-operations. -/
def okTrace (cfg : Cfg) (mem : Memory) (ms : List MicroStep) : List Event := ms.flatMap fun m => okEvents cfg mem m.op

section
variable (cfg : Cfg) (mem : Memory)

@[simp] theorem okTrace_nil : okTrace cfg mem [] = [] := rfl

@[simp] theorem okTrace_cons (m : MicroStep) (ms : List MicroStep) :
    okTrace cfg mem (m :: ms) = okEvents cfg mem m.op ++ okTrace cfg mem ms := rfl

@[simp] theorem okTrace_append (ms ms' : List MicroStep) :
    okTrace cfg mem (ms ++ ms') = okTrace cfg mem ms ++ okTrace cfg mem ms' := List.flatMap_append

@[simp] theorem okEvents_microC (n : CmdName) : okEvents cfg mem (microC n).op = cTrace cfg n := rfl

@[simp] theorem okEvents_microD (b : Byte) : okEvents cfg mem (microD b).op = frameTrace .high b .ok := rfl

@[simp] theorem okEvents_microT (ms : Nat) : okEvents cfg mem (microT ms).op = [.delay ms] := rfl

@[simp] theorem okEvents_microW : okEvents cfg mem microW.op = [.busyRead .high] := rfl

@[simp] theorem okEvents_microP (p : PinName) (lvl : Level) : okEvents cfg mem (microP p lvl).op = [.pin p lvl] := rfl

@[simp] theorem dTrace_nil : dTrace [] = [] := rfl

@[simp] theorem dTrace_cons (b : Byte) (bs : List Byte) : dTrace (b :: bs) = frameTrace .high b .ok ++ dTrace bs := rfl

@[simp] theorem dTrace_append (bs bs' : List Byte) : dTrace (bs ++ bs') = dTrace bs ++ dTrace bs' := List.flatMap_append

@[simp] theorem okTrace_microDl (bs : List Byte) : okTrace cfg mem (microDl bs) = dTrace bs := List.flatMap_map ..

@[simp] theorem okTrace_microDn (k : Nat) (b : Byte) : okTrace cfg mem (microDn k b) = dTrace (List.replicate k b) := by
  rw [microDn, ← List.map_replicate]
  exact okTrace_microDl cfg mem _

@[simp] theorem okTrace_microDbuf (a n : Nat) : okTrace cfg mem (microDbuf a n) = dTrace (mem.readRange a n) := by
  rw [okTrace, microDbuf, List.flatMap_map, dTrace, Memory.readRange, List.flatMap_map]
  rfl

@[simp] theorem wire16_eq_hiLo (v : Nat) : wire16 v = hiLo v := by
  rw [wire16, hiLo, Nat.shiftRight_eq_div_pow]

@[simp] theorem okTrace_microD16 (v : Nat) : okTrace cfg mem (microD16 v) = dTrace (hiLo v) := by
  rw [microD16, wire16_eq_hiLo, okTrace_microDl]

@[simp] theorem okTrace_commandBlock (n : CmdName) (bs : List Byte) :
    okTrace cfg mem (commandBlock n bs) = cTrace cfg n ++ dTrace bs := by
  simp [commandBlock]

/-- The mark of a LUT set is no event. -/
@[simp] theorem okTrace_markLast (set : LutSet) (ms : List MicroStep) :
    okTrace cfg mem (markLast set ms) = okTrace cfg mem ms := by
  induction ms with
  | nil => rfl
  | cons m ms ih =>
    cases ms with
    | nil => rfl
    | cons m' ms => rw [markLast, okTrace_cons, ih, okTrace_cons cfg mem m]; simp

@[simp] theorem okTrace_loadLut (set : LutSet) : okTrace cfg mem (loadLut cfg set) = lutTrace cfg (lutTable cfg set) := by
  simp [loadLut, lutOrder, lutTrace, lutCmd, lutBytes]

@[simp] theorem okTrace_sendResolution : okTrace cfg mem (sendResolution cfg) = resolutionTrace cfg := by
  simp [sendResolution, resolutionTrace]

@[simp] theorem okTrace_resetSeq : okTrace cfg mem (resetSeq cfg) = resetTrace cfg := rfl

theorem colorByte_eq_byteOf (c : Color) : colorByte cfg c = byteOf cfg c := by
  rw [colorByte, byteOf, bitOf, colorBit_eq]

end

/-- The micro-sequence of a protocol operation makes its transcript. The right end of a window is written in two ways,
which agree for a window that is not empty. -/
theorem okTrace_microSeq {s : State} {i : Instr} (hp : isProtocol i = true) (hacc : Accepts s i) :
    okTrace s.cfg s.mem (microSeq s.cfg i) = transcript s.cfg s.mem i := by
  cases i
  case setPartialWindow x y w n plane u l =>
    obtain ⟨-, ⟨hw, -⟩, -⟩ := hacc
    have hxs : windowXs x = x.toNat / 8 * 8 := by rw [windowXs_eq, Nat.mul_comm]
    cases plane <;>
      simp [microSeq, partialWindowSeq, transcript, hxs, windowXe_eq hw, windowYs, windowYe, planeCmd]
  case reset | init | displayAndTransferFrame | displayFrame | displayFrameQuick | clearFrame | sleep
      | waitUntilIdle =>
    simp [microSeq, initSeq, transferFrameSeq, refreshSeq, clearFrameSeq, sleepSeq, transcript, colorByte_eq_byteOf,
      lutTable]
  all_goals cases hp

/-! The marks. -/

/-- `LUTSEL` after a run of micro-operations. -/
def loadsAfter (sel : LutSel) (ms : List MicroStep) : LutSel := ms.foldl (fun sel m => selAfter sel m.loads) sel

theorem loadsAfter_of_none (sel : LutSel) (ms : List MicroStep) (h : ∀ m ∈ ms, m.loads = none) :
    loadsAfter sel ms = sel := by
  induction ms with
  | nil => rfl
  | cons m ms ih =>
    rw [loadsAfter, List.foldl_cons, h m (by simp), selAfter_none]
    exact ih fun m' hm' => h m' (by simp [hm'])

theorem loadsAfter_of_markedAt {cfg : Cfg} {e : LutEnd} {ms : List MicroStep} (sel : LutSel) (h : MarkedAt cfg e ms) :
    loadsAfter sel ms = e.sel := by
  obtain ⟨pre, post, set, m, rfl, -, -, hmark, hsel, hnone, -⟩ := h
  have hpost : ∀ m ∈ post, m.loads = none := fun m hm => hnone m (List.mem_append_right _ hm)
  rw [loadsAfter, List.foldl_append, List.foldl_cons, hmark, selAfter_some, hsel]
  exact loadsAfter_of_none _ _ hpost

/-- `LUTSEL` after the whole micro-sequence: the set that it loads, if it loads one. -/
theorem loadsAfter_microSeq (cfg : Cfg) (i : Instr) (sel : LutSel) :
    loadsAfter sel (microSeq cfg i) = ((lutEnd cfg i).map LutEnd.sel).getD sel := by
  cases he : lutEnd cfg i with
  | none => exact loadsAfter_of_none sel _ (loads_none_of_lutEnd cfg i he)
  | some e => exact loadsAfter_of_markedAt sel (markedAt_microSeq cfg i e he)

end Sys2Proof.Machine
end

section
/-! PROOFS. The runs of the protocol operations (spec/44_protocol_primitives.md rule R199,
spec/45_protocol_operations.md): a run of micro-operations that are all answered `Ok` or `High`, and the operations
from `Issue` to their end. -/

namespace Sys2Proof.Machine

/-! What the environment answers. -/

section
variable (evs evs' : List Event)

@[simp] theorem busBytes_append : busBytes (evs ++ evs') = busBytes evs ++ busBytes evs' := List.flatMap_append

@[simp] theorem busyReadCount_append : busyReadCount (evs ++ evs') = busyReadCount evs + busyReadCount evs' :=
  List.countP_append

theorem pinsAfter_append (p : Pins) : pinsAfter p (evs ++ evs') = pinsAfter (pinsAfter p evs) evs' := List.foldl_append

end

@[simp] theorem busBytes_frameTrace (dc : Level) (b : Byte) (r : XferResult) : busBytes (frameTrace dc b r) = [b] := rfl

@[simp] theorem busyReadCount_frameTrace (dc : Level) (b : Byte) (r : XferResult) :
    busyReadCount (frameTrace dc b r) = 0 := rfl

/-- A state after events that the environment has answered, its coming answers being `xs` and `bs` (rules R8, R32, R33,
R196). -/
def State.after (s : State) (evs : List Event) (xs : List XferResult) (bs : List BusyLevel) : State :=
  { s with
    pins := pinsAfter s.pins evs
    polln := if busyReadCount evs = 0 then s.polln else 0
    trace := s.trace ++ evs
    xferIn := xs
    busyIn := bs }

/-- The environment's lists begin with the answers `Ok` and `High` that the events ask for. -/
def AnsweredOk (s : State) (evs : List Event) (xs : List XferResult) (bs : List BusyLevel) : Prop :=
  s.xferIn = List.replicate (busBytes evs).length .ok ++ xs ∧ s.busyIn = List.replicate (busyReadCount evs) .high ++ bs

/-- The answers to the first events are used up, and those to the rest are left. -/
theorem AnsweredOk.append {s : State} {evs evs' : List Event} {xs : List XferResult} {bs : List BusyLevel}
    (h : AnsweredOk s (evs ++ evs') xs bs) :
    ∃ xs' bs', AnsweredOk s evs xs' bs' ∧ ∀ t : State, t.xferIn = xs' → t.busyIn = bs' → AnsweredOk t evs' xs bs := by
  obtain ⟨hx, hb⟩ := h
  refine ⟨_, _, ⟨?_, ?_⟩, fun t htx htb => ⟨htx, htb⟩⟩
  · rw [hx, busBytes_append, List.length_append, List.replicate_add, List.append_assoc]
  · rw [hb, busyReadCount_append, List.replicate_add, List.append_assoc]

/-! One micro-operation. -/

section
variable {s : State} {i : Instr} {m : MicroStep} {xs : List XferResult} {bs : List BusyLevel} (hhost : s.host = [])
  (hop : s.op = some i) (hm : (microSeq s.cfg i)[s.ustep]? = some m)
include hhost hop hm

theorem step_of_frame_ok {dc : Level} {b : Byte} (hstep : blockStep s = .next (s.sendFrame dc b))
    (hok : AnsweredOk s (frameTrace dc b .ok) xs bs) :
    step s = .next (microDone (s.after (frameTrace dc b .ok) xs bs) i m.loads) := by
  obtain ⟨hx, hb⟩ := hok
  rw [step_of_no_host s hhost, hstep, sendFrame_listed_ok dc b hop hm (rest := xs) hx]
  refine congrArg (fun u => Host.Outcome.next (microDone u i m.loads)) ?_
  have hbusy : s.busyIn = bs := hb
  rw [State.after, ← hbusy]
  rfl

/-- Events that ask for no answer leave the environment's lists. -/
theorem step_of_unanswered {evs : List Event} (hbytes : busBytes evs = []) (hreads : busyReadCount evs = 0)
    (hstep : blockStep s = .next (s.after evs s.xferIn s.busyIn).advance) (hok : AnsweredOk s evs xs bs) :
    step s = .next (microDone (s.after evs xs bs) i m.loads) := by
  obtain ⟨hx, hb⟩ := hok
  have hx' : s.xferIn = xs := by simpa [hbytes] using hx
  have hb' : s.busyIn = bs := by simpa [hreads] using hb
  rw [step_of_no_host s hhost, hstep, ← hx', ← hb']
  exact congrArg _ (advance_eq_microDone _ i m hop hm)

/-- A micro-operation answered `Ok` or `High` appends its events and completes. -/
theorem step_of_okEvents (hdata : ∀ a, m.op = .prim (.dataMem a) → a < s.cfg.memsz)
    (hok : AnsweredOk s (okEvents s.cfg s.mem m.op) xs bs) :
    step s = .next (microDone (s.after (okEvents s.cfg s.mem m.op) xs bs) i m.loads) := by
  have hblock := blockStep_micro s i m hop hm
  cases hmicro : m.op with
  | cmd n =>
    rw [hmicro] at hblock hok
    exact step_of_frame_ok hhost hop hm hblock hok
  | prim p =>
    cases p with
    | data b =>
      rw [hmicro] at hblock hok
      exact step_of_frame_ok hhost hop hm hblock hok
    | dataMem a =>
      rw [hmicro] at hblock hok
      exact step_of_frame_ok hhost hop hm (hblock.trans (if_pos (hdata a hmicro))) hok
    | pin q lvl =>
      rw [hmicro] at hblock hok
      exact step_of_unanswered hhost hop hm rfl rfl hblock hok
    | delay ms =>
      rw [hmicro] at hblock hok
      exact step_of_unanswered hhost hop hm rfl rfl hblock hok
    | wait =>
      rw [hmicro] at hok
      obtain ⟨hx, hb⟩ := hok
      have hx' : s.xferIn = xs := hx
      rw [step_of_idleRead hhost hop hm hmicro hb, ← hx']
      rfl

end

/-! A run of micro-operations. -/

@[simp] theorem State.after_append (s : State) (evs evs' : List Event) (xs xs' : List XferResult)
    (bs bs' : List BusyLevel) : (s.after evs xs bs).after evs' xs' bs' = s.after (evs ++ evs') xs' bs' := by
  by_cases h : busyReadCount evs = 0 <;> by_cases h' : busyReadCount evs' = 0 <;>
    simp [State.after, pinsAfter_append, h, h']

/-- The end of an operation `i`, at which `LUTSEL` is `sel` before its completion effects. -/
def ended (s : State) (i : Instr) (sel : LutSel) : State :=
  finished { s with mode := modeAtEnd s.mode i, lutsel := lutselAtEnd sel i }

theorem getElem?_and_length_of_drop {l ms : List MicroStep} {k : Nat} {m : MicroStep} (h : l.drop k = m :: ms) :
    l[k]? = some m ∧ l.length = k + (ms.length + 1) := by
  refine ⟨by rw [← List.head?_drop, h]; rfl, ?_⟩
  have := congrArg List.length h
  rw [List.length_drop, List.length_cons] at this
  omega

/-- The rest of a micro-sequence, every micro-operation answered `Ok` or `High`: its events, its marks and the end of the
operation. -/
theorem runSteps_okTrace {s : State} {i : Instr} {m : MicroStep} {ms : List MicroStep} {xs : List XferResult}
    {bs : List BusyLevel} (hhost : s.host = []) (hop : s.op = some i)
    (hrest : (microSeq s.cfg i).drop s.ustep = m :: ms)
    (hdata : ∀ m' ∈ microSeq s.cfg i, ∀ a, m'.op = .prim (.dataMem a) → a < s.cfg.memsz)
    (hok : AnsweredOk s (okTrace s.cfg s.mem (m :: ms)) xs bs) :
    runSteps (ms.length + 1) s
      = .next (ended (s.after (okTrace s.cfg s.mem (m :: ms)) xs bs) i (loadsAfter s.lutsel (m :: ms))) := by
  induction ms generalizing s m with
  | nil =>
    obtain ⟨hm, hlen⟩ := getElem?_and_length_of_drop hrest
    rw [okTrace_cons, okTrace_nil, List.append_nil] at hok ⊢
    rw [List.length_nil, runSteps_one _ _ (step_of_okEvents hhost hop hm (hdata m (List.mem_of_getElem? hm)) hok)]
    exact congrArg _ (if_neg (by simp [State.after, hlen]))
  | cons m' ms ih =>
    obtain ⟨hm, hlen⟩ := getElem?_and_length_of_drop hrest
    rw [okTrace_cons] at hok ⊢
    obtain ⟨xs', bs', hfirst, hleft⟩ := hok.append
    have hstep := step_of_okEvents hhost hop hm (hdata m (List.mem_of_getElem? hm)) hfirst
    rw [microDone_of_lt m.loads (by simp [State.after, hlen])] at hstep
    have hnext : (microSeq s.cfg i).drop (s.ustep + 1) = m' :: ms := by rw [← List.drop_drop, hrest]; rfl
    have htail := ih (s := { s.after (okEvents s.cfg s.mem m.op) xs' bs' with
      lutsel := selAfter s.lutsel m.loads, ustep := s.ustep + 1, inWait := false }) hhost hop hnext hdata
      (hleft _ rfl rfl)
    rw [List.length_cons, runSteps_succ _ _ _ hstep, ← State.after_append s _ _ xs' xs bs' bs]
    exact htail

/-! From `Issue` to the end. -/

theorem Accepts.with_host {s : State} {i : Instr} (h : Accepts s i) (actions : List HostAction) :
    Accepts { s with host := actions } i := by
  cases i <;> exact h

/-- An accepted protocol operation issued by its encoding is in progress after one step. -/
theorem step_of_issue_accepted {s : State} {i : Instr} (hp : isProtocol i = true) (hop : s.op = none)
    (hhost : s.host = [.issue (encode i)]) (hacc : Accepts s i) :
    ∃ entry : State → State, step s = .next ((entry { s with host := [] }).begin i)
      ∧ ((anyMode i = true ∧ entry = State.entryReset) ∨ (anyMode i = false ∧ entry = id)) := by
  have hdecode : decode .desc (encode i) = .ok (i, []) := by
    simpa using decode_encode_of_desc i [] (format_of_protocol hp)
  obtain ⟨checks, entry, hexec, -, haccepts, hentry⟩ := exec_protocol i hp
  refine ⟨entry, ?_, hentry⟩
  rw [stepRunsTheIssuedOperation s (encode i) [] i hop hhost hdecode, hexec]
  exact protocolOp_of_no_fault (s := { s with host := [] }) entry hop ((haccepts _).2 (hacc.with_host []))

/-- A byte that an accepted operation sends from its buffer is in `MEM` (rule R65). -/
theorem Accepts.dataMem_lt {s : State} {i : Instr} (hacc : Accepts s i) :
    ∀ m ∈ microSeq s.cfg i, ∀ a, m.op = .prim (.dataMem a) → a < s.cfg.memsz := by
  intro m hm a ha
  obtain ⟨r, hr, -, hhi⟩ := dataMem_owned s.cfg i m a hm ha
  cases hany : anyMode i with
  | true => simp [ownedRange_of_anyMode hany] at hr
  | false => exact hhi.trans_le ((hacc.mode_and_range hany).2 r hr)

/-- `MODE` and `LUTSEL` at the end, for an operation that sets them on entry (rules R200, R210). -/
theorem modeLutAfter_of_anyMode (cfg : Cfg) {i : Instr} (mode : Mode) (sel : LutSel) (h : anyMode i = true) :
    modeLutAfter mode sel i
      = (modeAtEnd .uninitialized i, lutselAtEnd (loadsAfter .none (microSeq cfg i)) i) := by
  rw [loadsAfter_microSeq]
  rcases eq_reset_or_init_of_anyMode h with rfl | rfl <;> rfl

/-- The same for an operation that enters with the registers as they are (rules R29, R220, R245). -/
theorem modeLutAfter_of_not_anyMode (cfg : Cfg) {i : Instr} (mode : Mode) (sel : LutSel) (hp : isProtocol i = true)
    (h : anyMode i = false) :
    modeLutAfter mode sel i = (modeAtEnd mode i, lutselAtEnd (loadsAfter sel (microSeq cfg i)) i) := by
  rw [loadsAfter_microSeq]
  cases i
  case reset | init => cases h
  case displayAndTransferFrame | setPartialWindow | displayFrame | displayFrameQuick | clearFrame | sleep
      | waitUntilIdle => rfl
  all_goals cases hp

/-- Settles O43: one step for `Issue`, then the whole micro-sequence answered `Ok` and `High`, whose events are the
transcript. -/
theorem protocolOperationRunsItsTranscript : Obligations.ProtocolOperationRunsItsTranscript := by
  intro i s xs bs hp hop hhost hacc hx hb
  obtain ⟨entry, hstep, hentry⟩ := step_of_issue_accepted hp hop hhost hacc
  have htrace := okTrace_microSeq hp hacc
  have hpos := microSeq_pos s.cfg i hp
  rw [← htrace] at hx hb ⊢
  obtain ⟨m, ms, hseq⟩ := List.exists_cons_of_length_pos hpos
  rw [Nat.add_comm, runSteps_succ _ _ _ hstep]
  rcases hentry with ⟨hany, rfl⟩ | ⟨hany, rfl⟩
  · rw [modeLutAfter_of_anyMode s.cfg s.mode s.lutsel hany]
    rw [hseq] at hx hb ⊢
    exact runSteps_okTrace (s := (State.entryReset { s with host := [] }).begin i) rfl rfl hseq hacc.dataMem_lt
      ⟨hx, hb⟩
  · rw [modeLutAfter_of_not_anyMode s.cfg s.mode s.lutsel hp hany]
    rw [hseq] at hx hb ⊢
    exact runSteps_okTrace (s := State.begin { s with host := [] } i) rfl rfl hseq hacc.dataMem_lt ⟨hx, hb⟩

end Sys2Proof.Machine
end

section
/-! PROOFS. Two operations whose transcripts are read further: `RESET` (spec/70_reset_and_hazards.md section 1) and `INIT`
(spec/45_protocol_operations.md rule R211). -/

namespace Sys2Proof.Machine

/-- Settles O44: the run of `RESET` by its transcript, which has no frame and no read of the busy pin. -/
theorem resetPulsesTheResetPin : Obligations.ResetPulsesTheResetPin := by
  intro s hop hhost
  exact protocolOperationRunsItsTranscript .reset s s.xferIn s.busyIn rfl hop hhost trivial rfl rfl

/-! The bytes on the bus. -/

@[simp] theorem busBytes_cTrace (cfg : Cfg) (n : CmdName) : busBytes (cTrace cfg n) = [cfg.cmd.byte n] := rfl

@[simp] theorem busyReadCount_cTrace (cfg : Cfg) (n : CmdName) : busyReadCount (cTrace cfg n) = 0 := rfl

@[simp] theorem busBytes_dTrace (bs : List Byte) : busBytes (dTrace bs) = bs := by
  induction bs with
  | nil => rfl
  | cons b bs ih => rw [dTrace_cons, busBytes_append, ih, busBytes_frameTrace]; rfl

@[simp] theorem busyReadCount_dTrace (bs : List Byte) : busyReadCount (dTrace bs) = 0 := by
  induction bs with
  | nil => rfl
  | cons b bs ih => rw [dTrace_cons, busyReadCount_append, ih, busyReadCount_frameTrace]

/-- Every frame drives data/command before its byte, so the level before it does not matter. -/
@[simp] theorem framedBytes_frameTrace_append (dc : Option Level) (lvl : Level) (b : Byte) (r : XferResult)
    (evs : List Event) :
    framedBytes dc (frameTrace lvl b r ++ evs) = (some lvl, b) :: framedBytes (some lvl) evs := rfl

@[simp] theorem framedBytes_cTrace_append (dc : Option Level) (cfg : Cfg) (n : CmdName) (evs : List Event) :
    framedBytes dc (cTrace cfg n ++ evs) = (some .low, cfg.cmd.byte n) :: framedBytes (some .low) evs := rfl

@[simp] theorem framedBytes_dTrace_append (dc : Option Level) (bs : List Byte) (evs : List Event) :
    framedBytes dc (dTrace bs ++ evs)
      = bs.map (fun b => (some .high, b)) ++ framedBytes (if bs = [] then dc else some .high) evs := by
  induction bs generalizing dc with
  | nil => rfl
  | cons b bs ih =>
    rw [dTrace_cons, List.append_assoc, framedBytes_frameTrace_append, ih]
    simp

@[simp] theorem framedBytes_dTrace (dc : Option Level) (bs : List Byte) :
    framedBytes dc (dTrace bs) = bs.map fun b => (some .high, b) := by
  simpa [framedBytes] using framedBytes_dTrace_append dc bs []

@[simp] theorem framedBytes_resetTrace_append (dc : Option Level) (cfg : Cfg) (evs : List Event) :
    framedBytes dc (resetTrace cfg ++ evs) = framedBytes dc evs := rfl

@[simp] theorem framedBytes_busyRead_cons (dc : Option Level) (lvl : BusyLevel) (evs : List Event) :
    framedBytes dc (.busyRead lvl :: evs) = framedBytes dc evs := rfl

/-- Settles O45: the run of `INIT` by its transcript, and the bytes of the transcript's frames. -/
theorem initSendsTheFiveCommandBlocks : Obligations.InitSendsTheFiveCommandBlocks := by
  intro s xs bs hop hhost hx hb
  have hbytes : (busBytes (transcript s.cfg s.mem .init)).length = 5 + s.cfg.pwrData.length + s.cfg.btstData.length
      + s.cfg.psrData.length + s.cfg.pllData.length := by
    have hreset : busBytes (resetTrace s.cfg) = [] := rfl
    have hread : busBytes [.busyRead .high] = [] := rfl
    simp only [transcript, busBytes_append, hreset, hread, busBytes_cTrace, busBytes_dTrace, List.length_append,
      List.length_cons, List.length_nil]
    omega
  have hreads : busyReadCount (transcript s.cfg s.mem .init) = 1 := by
    have hreset : busyReadCount (resetTrace s.cfg) = 0 := rfl
    have hread : busyReadCount [.busyRead .high] = 1 := rfl
    simp only [transcript, busyReadCount_append, hreset, hread, busyReadCount_cTrace, busyReadCount_dTrace]
  rw [← hbytes] at hx
  have hrun := protocolOperationRunsItsTranscript .init s xs bs rfl hop hhost trivial hx (by rw [hreads]; exact hb)
  refine ⟨_, _, transcript s.cfg s.mem .init, hrun, rfl, rfl, rfl, rfl, ?_⟩
  simp [transcript, CmdTable.byte]

end Sys2Proof.Machine
end

section
/-! PROOFS. The end of an operation under a bound on the busy-wait, and the wait that never ends without one
(spec/70_reset_and_hazards.md section 3, rule R271). -/

namespace Sys2Proof.Machine

/-! The block's step as progress of the operation. -/

/-- What a step of the block does to the operation in progress: it ends it, completes a micro-operation, or polls once
more. -/
theorem blockStep_progress {s t : State} {i : Instr} (hop : s.op = some i) (h : blockStep s = .next t) :
    (t.op = none ∧ t.opi = s.opi + 1)
      ∨ (t.op = some i ∧ t.opi = s.opi ∧ t.cfg = s.cfg ∧ t.ustep = s.ustep + 1 ∧ t.inWait = false)
      ∨ (SameRegs t s ∧ t.inWait = true ∧ t.polln = s.pollStart + 1) := by
  rcases blockStep_inWait h with ⟨hidle, -⟩ | hnot | ⟨hregs, -, hin, hpolln, -⟩
  · simp [hop] at hidle
  · rcases blockStep_effect s t h with ⟨hidle, -⟩ | ⟨j, m, evs, u, hj, -, hu, -, -, -, rfl | ⟨f, -, rfl⟩ | ⟨rfl, -, hin⟩⟩
    · simp [hop] at hidle
    · obtain ⟨hcfg, -, -, -, -, -, -, hopi, hustep, huop, -, -⟩ := hu
      obtain rfl := Option.some.inj (hop.symm.trans hj)
      unfold microDone
      split
      · exact .inr (.inl ⟨huop.trans hop, hopi, hcfg, congrArg (· + 1) hustep, rfl⟩)
      · exact .inl ⟨rfl, congrArg (· + 1) hopi⟩
    · exact .inl ⟨rfl, congrArg (· + 1) hu.sameRegs.opi⟩
    · simp [hin] at hnot
  · exact .inr (.inr ⟨hregs, hin, hpolln⟩)

theorem blockStep_ended_or_same_op {s t : State} {i : Instr} (hop : s.op = some i) (h : blockStep s = .next t) :
    (t.op = none ∧ t.opi = s.opi + 1) ∨ (t.op = some i ∧ t.opi = s.opi) := by
  rcases blockStep_progress hop h with hend | ⟨hsame, hopi, -⟩ | ⟨⟨-, -, -, -, -, -, hopi, -, hsame⟩, -⟩
  · exact .inl hend
  · exact .inr ⟨hsame, hopi⟩
  · exact .inr ⟨hsame.trans hop, hopi⟩

/-! The bound. -/

/-- How many steps an operation has left at most: the bound and one more for each micro-operation from `USTEP` on, less
the polls made at `USTEP`. -/
def stepsLeft (limit : Nat) (s : State) (i : Instr) : Nat :=
  ((microSeq s.cfg i).length - s.ustep) * (limit + 1) - s.pollStart

theorem pollStart_le_limit {s : State} {limit : Nat} (hs : PositionInv s) (hlimit : s.cfg.pollLimit = some limit) :
    s.pollStart ≤ limit := by
  obtain ⟨-, -, hwait⟩ := hs
  cases hin : s.inWait with
  | false => simp [State.pollStart, hin]
  | true =>
    have := (pollLimitReached_eq_false_iff _ _).1 (hwait hin).2 limit hlimit
    simp only [State.pollStart, hin, if_true]
    omega

section
variable {s : State} {i : Instr} {limit : Nat} (hs : PositionInv s) (hop : s.op = some i)
  (hlimit : s.cfg.pollLimit = some limit)
include hs hop hlimit

theorem stepsLeft_pos : 0 < stepsLeft limit s i := by
  have hstart := pollStart_le_limit hs hlimit
  obtain ⟨-, hbusy, -⟩ := hs
  obtain ⟨hlt, -⟩ := hbusy i hop
  have : 1 * (limit + 1) ≤ ((microSeq s.cfg i).length - s.ustep) * (limit + 1) := Nat.mul_le_mul_right _ (by omega)
  unfold stepsLeft
  omega

/-- A step of the block that does not end the operation leaves fewer steps. -/
theorem stepsLeft_lt {t : State} (h : blockStep s = .next t) (ht : t.op ≠ none) :
    stepsLeft limit t i < stepsLeft limit s i := by
  have hpos := stepsLeft_pos hs hop hlimit
  have hstart := pollStart_le_limit hs hlimit
  unfold stepsLeft at hpos ⊢
  rcases blockStep_progress hop h with ⟨hend, -⟩ | ⟨-, -, hcfg, hustep, hnot⟩
    | ⟨⟨hcfg, -, -, -, -, -, -, hustep, -⟩, hin, hpolln⟩
  · exact absurd hend ht
  · rw [hcfg, hustep, State.pollStart_of_not_inWait hnot]
    have hless : (microSeq s.cfg i).length - (s.ustep + 1) = (microSeq s.cfg i).length - s.ustep - 1 := by omega
    rw [hless, Nat.sub_mul]
    omega
  · have hpolls : t.pollStart = s.pollStart + 1 := by simp [State.pollStart, hin] at hpolln ⊢; exact hpolln
    rw [hcfg, hustep, hpolls]
    omega

end

/-- An operation with no action of the host pending ends within the steps it has left. -/
theorem ends_within_stepsLeft {limit n : Nat} {i : Instr} {s : State} (hs : MachineInv s) (hop : s.op = some i)
    (hhost : s.host = []) (hlimit : s.cfg.pollLimit = some limit) (hn : stepsLeft limit s i ≤ n) :
    ∃ k t, k ≤ n ∧ runSteps k s = .next t ∧ t.op = none ∧ t.opi = s.opi + 1 := by
  induction n generalizing s with
  | zero =>
    obtain ⟨-, hposition, -⟩ := (machineInv_iff s).1 hs
    have := stepsLeft_pos hposition hop hlimit
    omega
  | succ n ih =>
    obtain ⟨-, hposition, -⟩ := (machineInv_iff s).1 hs
    obtain ⟨t, ht⟩ := exists_blockStep_next hposition
    have hstep : step s = .next t := (step_of_no_host s hhost).trans ht
    by_cases hend : t.op = none
    · obtain ⟨-, hopi⟩ := (blockStep_ended_or_same_op hop ht).resolve_right fun ⟨hsame, _⟩ => by simp [hsame] at hend
      exact ⟨1, t, by omega, runSteps_one s t hstep, hend, hopi⟩
    · obtain ⟨hsame, hopi⟩ := (blockStep_ended_or_same_op hop ht).resolve_left fun ⟨hnone, _⟩ => hend hnone
      have hless := stepsLeft_lt hposition hop hlimit ht hend
      obtain ⟨k, u, hk, hrun, hidle, hfinished⟩ := ih (stepKeepsTheInvariant s t hs hstep) hsame
        ((blockStep_host ht).trans hhost) ((congrArg Cfg.pollLimit (step_cfg hstep)).trans hlimit) (by omega)
      exact ⟨k + 1, u, by omega, (runSteps_succ k s t hstep).trans hrun, hidle, hopi ▸ hfinished⟩

/-- Settles O51: the steps left are at most the bound and one more for each micro-operation. -/
theorem everyOperationEndsUnderABound : Obligations.EveryOperationEndsUnderABound := by
  intro s i limit hs hop hhost hlimit
  exact ends_within_stepsLeft hs hop hhost hlimit
    ((Nat.sub_le _ _).trans (Nat.mul_le_mul_right _ (Nat.sub_le _ _)))

end Sys2Proof.Machine
end

section
/-! PROOFS. The wait that never ends (spec/70_reset_and_hazards.md section 3, rule R271; the hang of rule R280 (c)). -/

namespace Sys2Proof.Machine

/-! A wait whose answers are never `High`. -/

/-- The block is at a `W` with no bound, the pin never reads idle, and the host wants nothing but to issue. -/
def WaitsForever (s : State) : Prop :=
  (∀ a ∈ s.host, ∃ bytes, a = .issue bytes)
    ∧ (∃ i m, s.op = some i ∧ (microSeq s.cfg i)[s.ustep]? = some m ∧ m.op = .prim .wait)
    ∧ ((∀ lvl ∈ s.busyIn, lvl ≠ .high) ∧ ∃ b, s.busyRest = some b ∧ b ≠ .high)
    ∧ s.cfg.pollLimit = none

theorem nextBusy_ne_high {s : State} {b : BusyLevel} (hlisted : ∀ lvl ∈ s.busyIn, lvl ≠ .high)
    (hrest : s.busyRest = some b) (hb : b ≠ .high) : s.nextBusy ≠ .high := by
  cases hin : s.busyIn with
  | nil => simpa [State.nextBusy, hin, hrest] using hb
  | cons lvl rest => simpa [State.nextBusy, hin] using hlisted lvl (by simp [hin])

/-- A step that finishes no descriptor goes on with the run. -/
theorem runStatus_succ_of_opi {s t : State} (n : Nat) (hdone : s.programDone = false) (hstep : step s = .next t)
    (hopi : t.opi = s.opi) : runStatus (n + 1) s = runStatus n t := by
  rw [runStatus_succ n s t hdone hstep, if_neg (by simp [faultFinish, hopi])]

/-- With an operation in progress and a host that only issues, the step is the block's (rule R24). -/
theorem step_of_busy_of_issues {s : State} (hop : s.op ≠ none) (hhost : ∀ a ∈ s.host, ∃ bytes, a = .issue bytes) :
    step s = blockStep s := by
  cases hh : s.host with
  | nil => exact step_of_no_host s hh
  | cons action rest =>
    obtain ⟨bytes, rfl⟩ := hhost action (by simp [hh])
    exact step_of_issue_busy hop hh

namespace WaitsForever
variable {s : State} (h : WaitsForever s)
include h

theorem isSome_op : s.op.isSome = true := by
  obtain ⟨-, ⟨i, m, hop, -⟩, -⟩ := h
  simp [hop]

/-- The step: one more poll (rule R196). -/
theorem step_eq : step s = .next { s.drawBusy with
    trace := s.trace ++ [.busyRead s.nextBusy, .delay s.cfg.tPoll], polln := s.pollStart + 1, inWait := true } := by
  obtain ⟨hhost, ⟨i, m, hop, hm, hwait⟩, ⟨hlisted, b, hrest, hb⟩, hlimit⟩ := h
  rw [step_of_busy_of_issues (by simp [hop]) hhost, blockStep_of_wait hop hm hwait,
    pollOnce_again s (nextBusy_ne_high hlisted hrest hb) (by rw [hlimit]; rfl)]

/-- The step leaves the block in the wait, changes no register but `POLLN`, and takes nothing from the host. -/
theorem exists_step : ∃ t, step s = .next t ∧ WaitsForever t ∧ t.inWait = true ∧ t.polln = s.pollStart + 1
    ∧ t.endState = { s.endState with polln := s.pollStart + 1, trace := t.trace } ∧ t.op = s.op ∧ t.host = s.host := by
  refine ⟨_, h.step_eq, ?_, rfl, rfl, ?_, ?_, ?_⟩
  · obtain ⟨hhost, hmicro, ⟨hlisted, hrest⟩, hlimit⟩ := h
    unfold WaitsForever
    simp only [State.drawBusy_host, State.drawBusy_op, State.drawBusy_cfg, State.drawBusy_ustep, State.drawBusy_busyIn,
      State.drawBusy_busyRest]
    exact ⟨hhost, hmicro, ⟨fun lvl hmem => hlisted lvl (List.mem_of_mem_tail hmem), hrest⟩, hlimit⟩
  · simp [State.endState]
  · simp
  · simp

/-- Any number of steps: one poll each. -/
theorem exists_runSteps (n : Nat) : ∃ t, runSteps (n + 1) s = .next t ∧ t.inWait = true
    ∧ t.endState = { s.endState with polln := s.pollStart + (n + 1), trace := t.trace } ∧ t.op = s.op
    ∧ t.host = s.host := by
  induction n generalizing s with
  | zero =>
    obtain ⟨t, hstep, -, hin, -, hend, hop, hhost⟩ := h.exists_step
    exact ⟨t, runSteps_one s t hstep, hin, hend, hop, hhost⟩
  | succ n ih =>
    obtain ⟨t, hstep, ht, hin, hpolln, hend, hop, hhost⟩ := h.exists_step
    obtain ⟨u, hrun, huin, huend, huop, huhost⟩ := ih ht
    have hstart : t.pollStart = s.pollStart + 1 := by simpa [State.pollStart, hin] using hpolln
    refine ⟨u, (runSteps_succ _ s t hstep).trans hrun, huin, ?_, huop.trans hop, huhost.trans hhost⟩
    rw [huend, hend, hstart, show s.pollStart + 1 + (n + 1) = s.pollStart + (n + 1 + 1) by omega]

theorem programDone_eq_false : s.programDone = false := by
  simp [State.programDone, Option.isNone_eq_false_iff.2 h.isSome_op]

/-- The run is going after any number of steps, in the wait from the first on. -/
theorem exists_runStatus (n : Nat) : ∃ t, runStatus (1 + n) s = .going t ∧ t.inWait = true := by
  rw [Nat.add_comm]
  induction n generalizing s with
  | zero =>
    obtain ⟨t, hstep, ht, hin, -, hend, -, -⟩ := h.exists_step
    refine ⟨t, ?_, hin⟩
    rw [runStatus_succ_of_opi 0 h.programDone_eq_false hstep (congrArg EndState.opi hend)]
    simp [runStatus, ht.programDone_eq_false]
  | succ n ih =>
    obtain ⟨t, hstep, ht, -, -, hend, -, -⟩ := h.exists_step
    rw [runStatus_succ_of_opi _ h.programDone_eq_false hstep (congrArg EndState.opi hend)]
    exact ih ht

/-- So the run hangs (rule R280 (c)). -/
theorem hangs : Hangs s := by
  obtain ⟨-, -, -, hlimit⟩ := id h
  exact ⟨hlimit, 1, h.exists_runStatus⟩

end WaitsForever

/-! The wait of a launched program. -/

theorem programDone_eq_false_of_issue {s : State} {bytes : List Byte} {rest : List HostAction}
    (h : s.host = .issue bytes :: rest) : s.programDone = false := by
  simp [State.programDone, h]

/-- The step of the issued `WAIT_UNTIL_IDLE`. -/
theorem step_launch_waitUntilIdle {s : State} (program : List (List Byte)) (hop : s.op = none) (hmode : s.mode = .active) :
    step (s.launch (encode .waitUntilIdle :: program))
      = .next { s.launch program with op := some .waitUntilIdle, ustep := 0, inWait := false } := by
  rw [stepRunsTheIssuedOperation (s.launch _) (encode .waitUntilIdle) (program.map .issue) .waitUntilIdle hop rfl
    (decode_encode_of_desc .waitUntilIdle [] rfl)]
  exact protocolOp_of_active (s := s.launch program) hop hmode

/-- A step that finishes no descriptor, to a state whose run hangs. -/
theorem hangs_of_step {s t : State} (hdone : s.programDone = false) (hstep : step s = .next t) (hopi : t.opi = s.opi)
    (ht : Hangs t) : Hangs s := by
  obtain ⟨hlimit, k, hgoing⟩ := ht
  refine ⟨step_cfg hstep ▸ hlimit, k + 1, fun n => ?_⟩
  rw [Nat.add_right_comm, runStatus_succ_of_opi _ hdone hstep hopi]
  exact hgoing n

/-- Settles O59: the wait goes on with each step, and `WAIT_UNTIL_IDLE` is in it after the step that issues it. -/
theorem unboundedWaitHangs : Obligations.UnboundedWaitHangs := by
  constructor
  · intro s i m b hhost hop hm hwait hlisted hrest hb hlimit
    have h : WaitsForever s := ⟨hhost, ⟨i, m, hop, hm, hwait⟩, ⟨hlisted, b, hrest, hb⟩, hlimit⟩
    refine ⟨h.hangs, fun n => ?_⟩
    obtain ⟨t, hrun, -, hend, hsame, htail⟩ := h.exists_runSteps n
    exact ⟨t, hrun, hend, hsame, htail⟩
  · intro s b program hop hmode hlisted hrest hb hlimit
    refine hangs_of_step (programDone_eq_false_of_issue rfl) (step_launch_waitUntilIdle program hop hmode) rfl
      (WaitsForever.hangs ⟨?_, ⟨.waitUntilIdle, microW, rfl, rfl, rfl⟩, ⟨hlisted, b, hrest, hb⟩, hlimit⟩)
    intro a ha
    obtain ⟨bytes, -, rfl⟩ := List.mem_map.1 ha
    exact ⟨bytes, rfl⟩

end Sys2Proof.Machine
end

section
/-! PROOFS. The outcomes of a run (spec/70_reset_and_hazards.md rule R280): an invariant of the run, a measure that every
step lowers unless it is a poll, and that the three outcomes exclude each other. -/

namespace Sys2Proof.Machine

/-! An issued operation. -/

/-- An operation issued to an idle block has finished after its step or is in progress; the step takes no action of the
host. -/
theorem exec_issued_effect {i : Instr} {s t : State} (hi : (∃ r, rasterRanges i = some r) ∨ isProtocol i = true)
    (h : exec i s = .next t) :
    t.host = s.host ∧ ((t.op = none ∧ t.opi = s.opi + 1) ∨ (t.op.isSome = true ∧ t.opi = s.opi)) := by
  rcases hi with ⟨⟨u, l, text⟩, hr⟩ | hp
  · obtain ⟨bufa, bufl, draw, -, -, hexec, -⟩ := exec_raster i u l text hr
    rw [hexec] at h
    obtain ⟨-, ⟨f, -, rfl⟩ | ⟨-, -, -, rfl⟩⟩ := rasterOp_next _ _ _ _ _ _ h <;> exact ⟨rfl, .inl ⟨rfl, rfl⟩⟩
  · obtain ⟨checks, entry, hexec, -, -, hentry⟩ := exec_protocol i hp
    rw [hexec] at h
    obtain ⟨-, ⟨f, -, rfl⟩ | ⟨-, rfl⟩⟩ := protocolOp_next _ _ _ _ _ h
    · exact ⟨rfl, .inl ⟨rfl, rfl⟩⟩
    · rcases hentry with ⟨-, rfl⟩ | ⟨-, rfl⟩ <;> exact ⟨rfl, .inr ⟨rfl, rfl⟩⟩

theorem issueBytes_effect {bytes : List Byte} {s t : State} (h : issueBytes bytes s = .next t) :
    t.host = s.host ∧ ((t.op = none ∧ t.opi = s.opi + 1) ∨ (t.op.isSome = true ∧ t.opi = s.opi)) := by
  obtain ⟨-, rfl | ⟨i, r, hd, he⟩⟩ := issueBytes_next _ _ _ h
  · exact ⟨rfl, .inl ⟨rfl, rfl⟩⟩
  · exact exec_issued_effect (decode_desc _ _ _ hd) he

/-- `RESULT` is written where an operation finishes and nowhere else (rule R230). -/
theorem step_result_of_opi {s t : State} (h : step s = .next t) (hopi : t.opi = s.opi) : t.result = s.result := by
  rcases step_cases s t h with ⟨-, -, -, hresult, -⟩ | ⟨u, f, rfl, hu, -⟩ | ⟨u, rfl, hu, -⟩
    | ⟨i, u, rfl, -, -, ⟨-, v, rfl, ⟨-, -, -, hresult, -⟩⟩ | ⟨-, ⟨-, -, -, hresult, -⟩, -⟩⟩ | ⟨i, m, u, rfl, hu, -, -⟩
  · exact hresult
  · simp [hu.opi] at hopi
  · simp [hu.opi] at hopi
  · exact hresult
  · exact hresult
  · obtain ⟨-, -, -, hresult, -, -, huopi, -⟩ := hu
    unfold microDone at hopi ⊢
    split at hopi
    next hlt => rw [if_pos hlt]; exact hresult
    · simp [finished, huopi] at hopi

/-! What is left of a run. -/

/-- How many descriptors have not finished: those the host still issues, and the operation in progress. -/
def State.outstanding (s : State) : Nat := s.host.length + s.op.isSome.toNat

/-- How many micro-operations the operation in progress has left. -/
def State.microLeft (s : State) : Nat :=
  match s.op with
  | some i => (microSeq s.cfg i).length - s.ustep
  | none => 0

/-- What every step but a poll of a busy pin lowers. -/
def runMeasure (s : State) : Nat ×ₗ Nat := toLex (s.host.length, s.microLeft)

theorem runMeasure_lt_of_host {s t : State} (h : t.host.length < s.host.length) : runMeasure t < runMeasure s :=
  Prod.Lex.toLex_lt_toLex.2 (.inl h)

theorem runMeasure_lt_of_microLeft {s t : State} (hhost : t.host = s.host) (h : t.microLeft < s.microLeft) :
    runMeasure t < runMeasure s :=
  Prod.Lex.toLex_lt_toLex.2 (.inr ⟨congrArg List.length hhost, h⟩)

theorem SameRegs.microLeft {s t : State} (h : SameRegs t s) : t.microLeft = s.microLeft := by
  obtain ⟨hcfg, -, -, -, -, -, -, hustep, hop⟩ := h
  simp only [State.microLeft, hcfg, hustep, hop]

/-- What a step of the run from `s` to `t` does: it finishes a descriptor, goes on with one, or polls once more. -/
def RunProgress (s t : State) : Prop :=
  (t.opi = s.opi + 1 ∧ t.outstanding + 1 = s.outstanding ∧ runMeasure t < runMeasure s)
    ∨ (t.opi = s.opi ∧ t.outstanding = s.outstanding
      ∧ (runMeasure t < runMeasure s
        ∨ (runMeasure t = runMeasure s ∧ t.inWait = true ∧ t.polln = s.pollStart + 1)))

theorem runProgress_of_blockStep {s t : State} {i : Instr} (hs : PositionInv s) (hop : s.op = some i)
    (h : blockStep s = .next t) : RunProgress s t := by
  obtain ⟨-, hbusy, -⟩ := hs
  obtain ⟨hlt, -⟩ := hbusy i hop
  have hhost := blockStep_host h
  rcases blockStep_progress hop h with ⟨hend, hopi⟩ | ⟨hsame, hopi, hcfg, hustep, -⟩ | ⟨hregs, hin, hpolln⟩
  · refine .inl ⟨hopi, ?_, runMeasure_lt_of_microLeft hhost ?_⟩
    · simp [State.outstanding, hhost, hend, hop]
    · simp only [State.microLeft, hend, hop]
      omega
  · refine .inr ⟨hopi, ?_, .inl (runMeasure_lt_of_microLeft hhost ?_)⟩
    · simp [State.outstanding, hhost, hsame, hop]
    · simp only [State.microLeft, hsame, hop, hcfg, hustep]
      omega
  · obtain ⟨-, -, -, -, -, -, hopi, -, hsame⟩ := id hregs
    refine .inr ⟨hopi, ?_, .inr ⟨?_, hin, hpolln⟩⟩
    · simp [State.outstanding, hhost, hsame]
    · simp only [runMeasure, hhost, hregs.microLeft]

theorem runProgress_of_issueBytes {s t : State} {bytes : List Byte} {rest : List HostAction} (hop : s.op = none)
    (hhost : s.host = .issue bytes :: rest) (h : issueBytes bytes s.popHost = .next t) :
    t.host = rest ∧ RunProgress s t := by
  obtain ⟨hsame, hcase⟩ := issueBytes_effect h
  have hrest : t.host = rest := by simpa [State.popHost, hhost] using hsame
  have hless : runMeasure t < runMeasure s := runMeasure_lt_of_host (by simp [hrest, hhost])
  refine ⟨hrest, ?_⟩
  rcases hcase with ⟨hend, hopi⟩ | ⟨hstart, hopi⟩
  · exact .inl ⟨hopi, by simp [State.outstanding, hrest, hhost, hop, hend], hless⟩
  · exact .inr ⟨hopi, by simp [State.outstanding, hrest, hhost, hop, hstart], .inl hless⟩

theorem eq_of_runStatus_zero {s t : State} (h : runStatus 0 s = .going t) : s = t := by
  unfold runStatus at h
  split at h
  · cases h
  · exact RunStatus.going.inj h

/-! The invariant of the run. -/

/-- Where the run of `count` descriptors launched at `start` is while no descriptor has faulted. -/
structure RunInv (start : State) (count : Nat) (s : State) : Prop where
  inv : MachineInv s
  cfg : s.cfg = start.cfg
  issues : ∀ a ∈ s.host, ∃ bytes, a = .issue bytes ∧ bytes.length = 24
  total : s.opi + s.outstanding = start.opi + count
  opi : start.opi ≤ s.opi
  faulted : s.faulted = start.faulted
  result : s.opi = start.opi ∨ s.result = .ok

/-- The end of a run that completed (rule R280). -/
def CompletedEnd (start : State) (count : Nat) (e : EndState) : Prop :=
  e.opi = start.opi + count ∧ e.faulted = start.faulted ∧ (count ≠ 0 → e.result = .ok)

/-- The end of a run that stopped at a fault (rule R280). -/
def StoppedEnd (start : State) (count : Nat) (e : EndState) : Prop :=
  e.result ≠ .ok ∧ e.faulted = true ∧ start.opi < e.opi ∧ e.opi ≤ start.opi + count

namespace RunInv
variable {start s : State} {count : Nat} (h : RunInv start count s)
include h

/-- A run that is not done has a step. -/
theorem exists_step (hdone : s.programDone = false) :
    ∃ t, step s = .next t ∧ (∀ a ∈ t.host, a ∈ s.host) ∧ RunProgress s t := by
  obtain ⟨-, hposition, -⟩ := (machineInv_iff s).1 h.inv
  cases hop : s.op with
  | some i =>
    obtain ⟨t, ht⟩ := exists_blockStep_next hposition
    refine ⟨t, ?_, fun a ha => blockStep_host ht ▸ ha, runProgress_of_blockStep hposition hop ht⟩
    rw [step_of_busy_of_issues (by simp [hop]) fun a ha => (h.issues a ha).imp fun _ hbytes => hbytes.1, ht]
  | none =>
    cases hhost : s.host with
    | nil => simp [State.programDone, hop, hhost] at hdone
    | cons action rest =>
      obtain ⟨bytes, rfl, hlen⟩ := h.issues action (by simp [hhost])
      obtain ⟨t, ht⟩ := exists_issueBytes_next (s := s.popHost) hlen hop
      obtain ⟨hrest, hprogress⟩ := runProgress_of_issueBytes hop hhost ht
      refine ⟨t, (step_of_issue_idle s bytes rest hop hhost).trans ht, ?_, hprogress⟩
      simp +contextual [hrest]

/-- A run that is done has finished every descriptor. -/
theorem completedEnd (hdone : s.programDone = true) : CompletedEnd start count s.endState := by
  have hidle : s.op = none ∧ s.host = [] := by
    simp only [State.programDone, Bool.and_eq_true, Option.isNone_iff_eq_none, List.all_eq_true] at hdone
    obtain ⟨hop, hall⟩ := hdone
    refine ⟨hop, List.eq_nil_iff_forall_not_mem.2 fun a ha => ?_⟩
    obtain ⟨bytes, rfl, -⟩ := h.issues a ha
    simpa using hall _ ha
  obtain ⟨hop, hhost⟩ := hidle
  have hopi : s.opi = start.opi + count := by simpa [State.outstanding, hop, hhost] using h.total
  exact ⟨hopi, h.faulted, fun hcount => h.result.resolve_left (by omega)⟩

section
variable {t : State} (hstep : step s = .next t) (hprogress : RunProgress s t)
include hstep hprogress

/-- A step that finishes a descriptor with a fault ends the run with it. -/
theorem stoppedEnd (hfault : faultFinish s t = true) : StoppedEnd start count t.endState := by
  obtain ⟨hopi, hresult⟩ : t.opi ≠ s.opi ∧ t.result ≠ .ok := by simpa [faultFinish] using hfault
  obtain ⟨hfinish, hout, -⟩ := hprogress.resolve_right fun ⟨hsame, _⟩ => hopi hsame
  have hfaulted : t.faulted = true := by
    rcases step_faulted_cases s t hstep with ⟨-, hsame | hok⟩ | ⟨hset, -⟩
    · exact absurd hsame hopi
    · exact absurd hok hresult
    · exact hset
  have htotal := h.total
  have hle := h.opi
  refine ⟨hresult, hfaulted, ?_, ?_⟩ <;> simp only [State.endState] <;> omega

/-- Any other step keeps the invariant of the run. -/
theorem of_step (hhost : ∀ a ∈ t.host, a ∈ s.host) (hfault : faultFinish s t = false) : RunInv start count t := by
  have hgood : t.opi ≠ s.opi → t.result = .ok := by simpa [faultFinish] using hfault
  have htotal := h.total
  have hle := h.opi
  have hcount : t.opi + t.outstanding = start.opi + count ∧ start.opi ≤ t.opi := by
    rcases hprogress with ⟨hopi, hout, -⟩ | ⟨hopi, hout, -⟩ <;> omega
  obtain ⟨hsum, hge⟩ := hcount
  refine ⟨stepKeepsTheInvariant s t h.inv hstep, (step_cfg hstep).trans h.cfg, fun a ha => h.issues a (hhost a ha), hsum,
    hge, ?_, ?_⟩
  · rcases step_faulted_cases s t hstep with ⟨hsame, -⟩ | ⟨-, hopi, hresult⟩
    · exact hsame.trans h.faulted
    · exact absurd (hgood (by omega)) hresult
  · by_cases hopi : t.opi = s.opi
    · rw [hopi, step_result_of_opi hstep hopi]
      exact h.result
    · exact .inr (hgood hopi)

end

/-- Where the run is after `n` steps: it never asks for a step that the machine does not have. -/
theorem runStatus_cases (n : Nat) :
    (∃ t, runStatus n s = .going t ∧ RunInv start count t)
      ∨ (∃ e, runStatus n s = .completed e ∧ CompletedEnd start count e)
      ∨ ∃ e, runStatus n s = .stoppedAtFault e ∧ StoppedEnd start count e := by
  induction n generalizing s with
  | zero =>
    cases hdone : s.programDone with
    | true => exact .inr (.inl ⟨_, runStatus_done 0 s hdone, h.completedEnd hdone⟩)
    | false => exact .inl ⟨s, by simp [runStatus, hdone], h⟩
  | succ n ih =>
    cases hdone : s.programDone with
    | true => exact .inr (.inl ⟨_, runStatus_done _ s hdone, h.completedEnd hdone⟩)
    | false =>
      obtain ⟨t, hstep, hhost, hprogress⟩ := h.exists_step hdone
      rw [runStatus_succ n s t hdone hstep]
      cases hfault : faultFinish s t with
      | true => exact .inr (.inr ⟨_, rfl, h.stoppedEnd hstep hprogress hfault⟩)
      | false => exact ih (h.of_step hstep hprogress hhost hfault)

omit h in
/-- One more step of a run that is still going. -/
theorem of_going {u t : State} {n : Nat} (hu : RunInv start count u) (hn : runStatus n s = .going u)
    (hsucc : runStatus (n + 1) s = .going t) : RunInv start count t ∧ RunProgress u t := by
  rw [runStatus_add n 1 s u hn] at hsucc
  cases hdone : u.programDone with
  | true => simp [runStatus_done 1 u hdone] at hsucc
  | false =>
    obtain ⟨v, hstep, hhost, hprogress⟩ := hu.exists_step hdone
    rw [runStatus_succ 0 u v hdone hstep] at hsucc
    cases hfault : faultFinish u v with
    | true => simp [hfault] at hsucc
    | false =>
      obtain rfl : v = t := by
        rw [hfault] at hsucc
        exact eq_of_runStatus_zero hsucc
      exact ⟨hu.of_step hstep hprogress hhost hfault, hprogress⟩

/-! Every run has an outcome. -/

/-- A run that never ends and never lowers its measure polls with each step. -/
theorem polls_of_never_lower (hgoing : ∀ n, ∃ t, runStatus n s = .going t)
    (hleast : ∀ n t, runStatus n s = .going t → ¬ runMeasure t < runMeasure s) (n : Nat) :
    ∃ t, runStatus n s = .going t ∧ RunInv start count t ∧ runMeasure t = runMeasure s ∧ n ≤ t.pollStart := by
  induction n with
  | zero =>
    obtain ⟨t, ht⟩ := hgoing 0
    obtain rfl := eq_of_runStatus_zero ht
    exact ⟨s, ht, h, rfl, Nat.zero_le _⟩
  | succ n ih =>
    obtain ⟨u, hu, hinv, hmeasure, hpolls⟩ := ih
    obtain ⟨t, ht⟩ := hgoing (n + 1)
    obtain ⟨htinv, hprogress⟩ := of_going hinv hu ht
    have hnot : ¬ runMeasure t < runMeasure u := hmeasure ▸ hleast _ t ht
    rcases hprogress with ⟨-, -, hless⟩ | ⟨-, -, hless | ⟨hsame, hin, hpolln⟩⟩
    · exact absurd hless hnot
    · exact absurd hless hnot
    · refine ⟨t, ht, htinv, hsame.trans hmeasure, ?_⟩
      simp only [State.pollStart, hin, if_true]
      omega

/-- Such a run hangs: a bound on the busy-wait would have ended it (rule R271). -/
theorem hangs_of_never_lower (hgoing : ∀ n, ∃ t, runStatus n s = .going t)
    (hleast : ∀ n t, runStatus n s = .going t → ¬ runMeasure t < runMeasure s) : Hangs s := by
  refine ⟨?_, 1, fun n => ?_⟩
  · cases hlimit : s.cfg.pollLimit with
    | none => rfl
    | some limit =>
      obtain ⟨t, -, hinv, -, hpolls⟩ := h.polls_of_never_lower hgoing hleast (limit + 1)
      obtain ⟨-, hposition, -⟩ := (machineInv_iff t).1 hinv.inv
      have hbound := pollStart_le_limit hposition (limit := limit) (by rw [hinv.cfg, ← h.cfg, hlimit])
      omega
  · obtain ⟨t, ht, -, -, hpolls⟩ := h.polls_of_never_lower hgoing hleast (1 + n)
    refine ⟨t, ht, ?_⟩
    by_contra hnot
    rw [State.pollStart_of_not_inWait (by simpa using hnot)] at hpolls
    omega

omit h in
/-- An outcome of where a run has come to is its outcome. -/
theorem outcome_of_going {u : State} {k : Nat} (hcfg : u.cfg = s.cfg) (hk : runStatus k s = .going u)
    (hu : Completes u ∨ StopsAtFault u ∨ Hangs u) : Completes s ∨ StopsAtFault s ∨ Hangs s := by
  rcases hu with ⟨n, e, he⟩ | ⟨n, e, he⟩ | ⟨hlimit, j, hwait⟩
  · exact .inl ⟨k + n, e, (runStatus_add k n s u hk).trans he⟩
  · exact .inr (.inl ⟨k + n, e, (runStatus_add k n s u hk).trans he⟩)
  · refine .inr (.inr ⟨hcfg ▸ hlimit, k + j, fun n => ?_⟩)
    rw [Nat.add_assoc, runStatus_add k _ s u hk]
    exact hwait n

/-- Every run has an outcome, by the measure of where it is: it comes to a place with a lower one, or it ends, or it polls
for ever. -/
theorem outcome : Completes s ∨ StopsAtFault s ∨ Hangs s := by
  induction hm : runMeasure s using WellFoundedLT.induction generalizing s with
  | ind m ih =>
    subst hm
    by_cases hlower : ∃ k t, runStatus k s = .going t ∧ runMeasure t < runMeasure s
    · obtain ⟨k, t, hk, hless⟩ := hlower
      have ht : RunInv start count t := by
        rcases h.runStatus_cases k with ⟨u, hu, hinv⟩ | ⟨e, he, -⟩ | ⟨e, he, -⟩
        · exact RunStatus.going.inj (hu.symm.trans hk) ▸ hinv
        · simp [hk] at he
        · simp [hk] at he
      exact outcome_of_going (ht.cfg.trans h.cfg.symm) hk (ih _ hless ht rfl)
    · by_cases hgoing : ∀ n, ∃ t, runStatus n s = .going t
      · exact .inr (.inr (h.hangs_of_never_lower hgoing fun n t ht hless => hlower ⟨n, t, ht, hless⟩))
      · obtain ⟨n, hend⟩ := not_forall.1 hgoing
        rcases h.runStatus_cases n with ⟨t, ht, -⟩ | ⟨e, he, -⟩ | ⟨e, he, -⟩
        · exact absurd ⟨t, ht⟩ hend
        · exact .inl ⟨n, e, he⟩
        · exact .inr (.inl ⟨n, e, he⟩)

end RunInv

/-! The outcomes exclude each other. -/

/-- A run that has ended stays as it ended, so it ends in one way. -/
theorem runStatus_ended_unique {s : State} {a b : Nat} (ha : ∀ t, runStatus a s ≠ .going t)
    (hb : ∀ t, runStatus b s ≠ .going t) : runStatus a s = runStatus b s :=
  calc runStatus a s = runStatus (a + b) s := (runStatus_stable a b s ha).symm
    _ = runStatus (b + a) s := by rw [Nat.add_comm]
    _ = runStatus b s := runStatus_stable b a s hb

theorem not_hangs_of_ended {s : State} {n : Nat} (h : ∀ t, runStatus n s ≠ .going t) : ¬ Hangs s := by
  rintro ⟨-, k, hwait⟩
  obtain ⟨t, ht, -⟩ := hwait n
  rw [Nat.add_comm, runStatus_stable n k s h] at ht
  exact h t ht

theorem Completes.not_stopsAtFault {s : State} (h : Completes s) : ¬ StopsAtFault s := by
  rintro ⟨b, f, hf⟩
  obtain ⟨a, e, he⟩ := h
  have hsame := runStatus_ended_unique (s := s) (a := a) (b := b) (by simp [he]) (by simp [hf])
  simp [he, hf] at hsame

theorem Completes.not_hangs {s : State} (h : Completes s) : ¬ Hangs s := by
  obtain ⟨n, e, he⟩ := h
  exact not_hangs_of_ended (n := n) (by simp [he])

theorem StopsAtFault.not_hangs {s : State} (h : StopsAtFault s) : ¬ Hangs s := by
  obtain ⟨n, e, he⟩ := h
  exact not_hangs_of_ended (n := n) (by simp [he])

/-! The launch. -/

theorem RunInv.launch {s : State} {program : List (List Byte)} (hs : MachineInv s) (hop : s.op = none)
    (hlen : ∀ bytes ∈ program, bytes.length = 24) : RunInv s program.length (s.launch program) where
  inv := hs
  cfg := rfl
  issues a ha := by
    obtain ⟨bytes, hmem, rfl⟩ := List.mem_map.1 ha
    exact ⟨bytes, rfl, hlen bytes hmem⟩
  total := by simp [State.outstanding, State.launch, hop]
  opi := Nat.le_refl _
  faulted := rfl
  result := .inl rfl

/-- Settles O60: the run has an outcome, the three exclude each other, and the invariant of the run says how it ends. -/
theorem runHasExactlyOneOutcome : Obligations.RunHasExactlyOneOutcome := by
  intro s program hs hop hlen
  have hr := RunInv.launch hs hop hlen
  refine ⟨?_, fun n e he => ?_, fun n e he => ?_⟩
  · rcases hr.outcome with h | h | h
    · exact .inl ⟨h, h.not_stopsAtFault, h.not_hangs⟩
    · exact .inr (.inl ⟨fun hc => hc.not_stopsAtFault h, h, h.not_hangs⟩)
    · exact .inr (.inr ⟨fun hc => hc.not_hangs h, fun hf => hf.not_hangs h, h⟩)
  · rcases hr.runStatus_cases n with ⟨t, ht, -⟩ | ⟨e', he', hopi, hfaulted, hresult⟩ | ⟨e', he', -⟩
    · simp [he] at ht
    · obtain rfl := RunStatus.completed.inj (he'.symm.trans he)
      exact ⟨hopi, hfaulted, fun hne => hresult (by simpa using hne)⟩
    · simp [he] at he'
  · rcases hr.runStatus_cases n with ⟨t, ht, -⟩ | ⟨e', he', -⟩ | ⟨e', he', hend⟩
    · simp [he] at ht
    · simp [he] at he'
    · obtain rfl := RunStatus.stoppedAtFault.inj (he'.symm.trans he)
      exact hend

end Sys2Proof.Machine
end
